-- ==== Sys2Proof/Word.lean ====
section
/-! DEFINITION. The word types of the block (00_scope.md R9, 10_state.md R30, R34). -/

namespace Sys2Proof

/-- A byte of IN or OUT (20_memory.md R77). -/
abbrev Byte := BitVec 8

/-- An unsigned 32-bit value: sizes, counts, counters (10_state.md R30). -/
abbrev U32 := BitVec 32

/-- A stream position: 35 bits hold `0 .. 8 * (2^32 - 1)` (10_state.md R34). -/
abbrev BitPos := BitVec 35

/-- The count vector of one alphabet, symbol ids strictly rising, a symbol not listed counting 0
(10_state.md R36; log 13). -/
abbrev Counts := List (Nat × U32)

/-- The length table of one alphabet, symbol ids strictly rising, a symbol not listed having length 0,
which is "absent" (10_state.md R36, 00_scope.md R13; log 13). -/
abbrev Lengths := List (Nat × Nat)

end Sys2Proof
end

