-- ==== Sys2Proof/Config.lean ====
section
/-! DEFINITION. The configuration record `Cfg` of 00_scope.md R6 as plain data, and the uninterpreted constants: the
configuration an implementation has, its frequency-to-length mappings, and the values the spec leaves unspecified. -/

namespace Sys2Proof

/-- `LEN_BASE[i]` with `LEN_EXTRA[i]`, or `DIST_BASE[j]` with `DIST_EXTRA[j]` (R6). -/
structure ExtraRow where
  base  : Nat
  extra : Nat
  deriving DecidableEq, Repr, Inhabited

/-- One known value of a frequency-to-length mapping: the lengths it gives for a count vector (log 3). -/
structure MappingPoint where
  counts  : Counts
  lengths : Lengths
  deriving DecidableEq, Repr, Inhabited

/-- `TAIL_CHECK` (R6, 43_decoder.md R209). -/
inductive TailCheck where
  | none
  | wholeByte
  deriving DecidableEq, Repr, Inhabited

/-- The configuration record (R6). `W` is fixed: `Cfg.wordWidth`. The two mappings are held by their known points
(log 3). -/
structure Cfg where
  /-- `NLL` -/
  nll           : Nat
  /-- `ND` -/
  nd            : Nat
  /-- `MAXDEPTH_LL` -/
  maxDepthLL    : Nat
  /-- `MAXDEPTH_D` -/
  maxDepthD     : Nat
  /-- `LEN_BASE[i]`, `LEN_EXTRA[i]`, `i = 0 .. NLL-257` -/
  lens          : List ExtraRow
  /-- `DIST_BASE[j]`, `DIST_EXTRA[j]`, `j = 0 .. ND-1` -/
  dists         : List ExtraRow
  /-- `INIT_LEN_LL` -/
  initLL        : Lengths
  /-- `INIT_LEN_D` -/
  initD         : Lengths
  /-- `REBUILD_PERIOD` -/
  rebuildPeriod : Nat
  /-- known points of `REBUILD_LL` -/
  rebuildLL     : List MappingPoint
  /-- known points of `REBUILD_D` -/
  rebuildD      : List MappingPoint
  /-- `WINDOW_SIZE` -/
  windowSize    : Nat
  /-- `OUT_CAPACITY` -/
  outCapacity   : Nat
  /-- `TAIL_CHECK` -/
  tailCheck     : TailCheck
  deriving DecidableEq, Repr, Inhabited

/-- `W` (R6): fixed 32. -/
def Cfg.wordWidth : Nat := 32

/-- The configuration of the implementation: nothing is known of it (R6 "no rule of this spec fixes a field's value"; log 2). -/
opaque Config.implemented : Cfg

/-- `REBUILD_LL` at the count vectors a configuration lists no point for (41_codetree.md R156; log 3). -/
opaque Config.rebuildLL : Counts → Lengths

/-- `REBUILD_D` at the count vectors a configuration lists no point for (41_codetree.md R156; log 3). -/
opaque Config.rebuildD : Counts → Lengths

/-! Free values (log 4): what the spec calls unspecified after START, a reset or a failure, one constant per element, applied
to the state's draw counter. -/

opaque Config.freeInLen : Nat → U32
opaque Config.freeCs : Nat → U32
opaque Config.freeOs : Nat → U32
opaque Config.freeBnd : Nat → U32
opaque Config.freeBitPos : Nat → BitPos
opaque Config.freeWp : Nat → U32
opaque Config.freeLenLL : Nat → Lengths
opaque Config.freeLenD : Nat → Lengths
opaque Config.freeCntLL : Nat → Counts
opaque Config.freeCntD : Nat → Counts
opaque Config.freeSymCount : Nat → U32

end Sys2Proof
end

