-- ==== Sys2Proof/Machine/Assoc.lean ====
section
/-! DEFINITION. Lists of key and value in one canonical form (keys strictly rising): the shape of the two memories, the length
tables and the counter files. -/

namespace Sys2Proof.Machine

/-- The canonical form: keys strictly rising, so no key twice. -/
abbrev Assoc.Sorted {α : Type} (m : List (Nat × α)) : Prop :=
  (m.map Prod.fst).Pairwise (· < ·)

/-- The value listed at a key. -/
def Assoc.get? {α : Type} : List (Nat × α) → Nat → Option α
  | [], _ => none
  | (k, v) :: r, a => if k = a then some v else Assoc.get? r a

/-- Lists a value at a key, in the key's place, over any value listed there. -/
def Assoc.put {α : Type} : List (Nat × α) → Nat → α → List (Nat × α)
  | [], a, v => [(a, v)]
  | (k, w) :: r, a, v =>
    if a < k then (a, v) :: (k, w) :: r
    else if a = k then (a, v) :: r
    else (k, w) :: Assoc.put r a v

/-- Takes a key out of the list. -/
def Assoc.erase {α : Type} : List (Nat × α) → Nat → List (Nat × α)
  | [], _ => []
  | (k, w) :: r, a => if k = a then r else (k, w) :: Assoc.erase r a

/-- Element `k` of a vector held sparse: `d` where nothing is listed (log 13). -/
def Sparse.get {α : Type} (d : α) (m : List (Nat × α)) (k : Nat) : α :=
  (Assoc.get? m k).getD d

/-- Writes element `k` of a sparse vector, listing nothing for the value `d` (log 13). -/
def Sparse.set {α : Type} [DecidableEq α] (d : α) (m : List (Nat × α)) (k : Nat) (v : α) :
    List (Nat × α) :=
  if v = d then Assoc.erase m k else Assoc.put m k v

/-- The canonical sparse form of the first `n` elements of what a list says, its earlier entries taking precedence. -/
def Sparse.fit {α : Type} [DecidableEq α] (d : α) (n : Nat) (m : List (Nat × α)) : List (Nat × α) :=
  m.foldr (fun e acc => if e.1 < n then Sparse.set d acc e.1 e.2 else acc) []

/-- The canonical form of a vector of `n` elements: keys rising and below `n`, no element `d` listed. -/
abbrev Sparse.Formed {α : Type} [DecidableEq α] (d : α) (n : Nat) (m : List (Nat × α)) : Prop :=
  Assoc.Sorted m ∧ ∀ e ∈ m, e.1 < n ∧ e.2 ≠ d

end Sys2Proof.Machine
end

