-- ==== Sys2Proof/Machine/CodeTree.lean ====
section
/-! DEFINITION. The generic CodeTree of 41_codetree.md as pure functions of a length table: validation, classification, canonical
codewords, and the table a rebuild gives. Descending a tree over the stream is `decodeOne` of Operands.lean. -/

namespace Sys2Proof.Machine

/-- The Kraft sum of a table, scaled by `2^maxDepth` (R151). -/
def kraftSum (maxDepth : Nat) (t : Lengths) : Nat :=
  (t.map fun e => 2 ^ (maxDepth - e.2)).sum

/-- `validate(L, MAXDEPTH)` (R151). -/
def validTable (maxDepth : Nat) (t : Lengths) : Bool :=
  t.all (fun e => decide (e.2 ≤ maxDepth)) && decide (kraftSum maxDepth t ≤ 2 ^ maxDepth)

/-- The classes of a table (R152). -/
inductive TreeClass where
  | empty
  | single (symbol : Nat)
  | full
  deriving DecidableEq, Repr

/-- Classification by the number of symbols present (R152). -/
def classify : Lengths → TreeClass
  | [] => .empty
  | [e] => .single e.1
  | _ :: _ :: _ => .full

/-- `bl_count[l]` (R153): how many symbols have codewords of length `l`. -/
def blCount (t : Lengths) (l : Nat) : Nat :=
  t.countP fun e => e.2 = l

/-- `next[l]` before any codeword is assigned (R153). -/
def firstCode (t : Lengths) : Nat → Nat
  | 0 => 0
  | 1 => 0
  | l + 2 => (firstCode t (l + 1) + blCount t (l + 1)) * 2

/-- A codeword: `code` written in `len` bits stands for `symbol`. -/
structure Codeword where
  symbol : Nat
  len    : Nat
  code   : Nat
  deriving DecidableEq, Repr

/-- The assignment loop of R153 over the symbols of `t`, in increasing order: `done` are the symbols assigned so far, so
`next[l]` is `firstCode t l` plus the number of them with length `l`. -/
def assignCodes (t : Lengths) : (done todo : Lengths) → List Codeword
  | _, [] => []
  | done, e :: r =>
    ⟨e.1, e.2, firstCode t e.2 + blCount done e.2⟩ :: assignCodes t (done ++ [e]) r

/-- The canonical codewords of a table (R153). -/
def codewords (t : Lengths) : List Codeword :=
  assignCodes t [] t

/-- `exists s with L[s] = l and code[s] = v` (R154). -/
def matchCode (cs : List Codeword) (l v : Nat) : Option Nat :=
  (cs.find? fun c => c.len = l && c.code = v).map Codeword.symbol

/-- The `n` bits of `v`, most significant first. -/
def bitsMSB (n v : Nat) : List Bool :=
  (List.range n).map fun k => v.testBit (n - 1 - k)

/-- The bits that spell a symbol in a tree: none in a Single tree (R152), the codeword in a Full one (R153); `none` if the tree
cannot spell it. -/
def spellSymbol (t : Lengths) (symbol : Nat) : Option (List Bool) :=
  match classify t with
  | .empty => none
  | .single s => if s = symbol then some [] else none
  | .full =>
    ((codewords t).find? fun c => c.symbol = symbol).map fun c => bitsMSB c.len c.code

/-- A mapping given by its known points, and by `elsewhere` at every other count vector, giving a length vector of `n` elements
(R156, R6; log 3). -/
def applyMapping (elsewhere : Counts → Lengths) (points : List MappingPoint) (n : Nat)
    (cnt : Counts) : Lengths :=
  Sparse.fit 0 n <|
    match points.find? fun p => p.counts = cnt with
    | some p => p.lengths
    | none => elsewhere cnt

/-- `REBUILD_LL(cnt)` (R6, R156). -/
def rebuiltLL (c : Cfg) (cnt : Counts) : Lengths :=
  applyMapping Config.rebuildLL c.rebuildLL c.nll cnt

/-- `REBUILD_D(cnt)` (R6, R156). -/
def rebuiltD (c : Cfg) (cnt : Counts) : Lengths :=
  applyMapping Config.rebuildD c.rebuildD c.nd cnt

end Sys2Proof.Machine
end

