-- ==== Sys2Proof/Syntax.lean ====
section
/-! DEFINITION. The instructions of the block: one constructor per row of spec/opcode_table.json. -/

namespace Sys2Proof

/-- The instructions (30_encoding.md R106, R113). -/
inductive Instr where
  /-- FRAME_HEADER (44_frame_header.md R240): the two size fields of the 8-byte header. -/
  | frameHeader (compressedSize originalSize : U32)
  /-- LIT (43_decoder.md R204): the literal byte, which is the LL symbol itself. -/
  | lit (byte : Byte)
  /-- MATCH (43_decoder.md R205): the length index `i`, LL symbol `256 + i`. The length extra bits, the
  distance codeword and the distance extra bits are read from the stream as the instruction executes. -/
  | matchRef (i : Nat)
  /-- START (43_decoder.md R201): the START bit of a CTRL write. -/
  | start (go : Bool)
  deriving DecidableEq, Repr

end Sys2Proof
end

