-- ==== Sys2Proof/Decode.lean ====
section
/-! DEFINITION. Decoding: from the three places an instruction is read (the header bytes of IN, a decoded LL symbol, a CTRL write)
to an instruction or a rejection by name; then the encoder. Which LL symbol the stream spells is the tree's matter
(`decodeOne` of Machine/Operands.lean). -/

namespace Sys2Proof

/-- What an instruction is decoded from. -/
inductive Encoded where
  /-- the first bytes of IN, lowest offset first (30_encoding.md R100) -/
  | header (bytes : List Byte)
  /-- a decoded LL symbol id (30_encoding.md R106) -/
  | symbol (id : Nat)
  /-- a word written to CTRL (10_state.md R38) -/
  | ctrl (word : U32)
  deriving DecidableEq, Repr

/-- Why something decodes to no instruction. -/
inductive Reject where
  /-- fewer than eight header bytes -/
  | headerTooShort
  /-- a symbol id of `NLL` or more (30_encoding.md R106) -/
  | symbolOutsideAlphabet
  deriving DecidableEq, Repr

/-- `le32(b0, b1, b2, b3)` (00_scope.md R11): `b0` is the least significant byte. -/
def le32 (b0 b1 b2 b3 : Byte) : U32 :=
  BitVec.ofNat 32 (b0.toNat + 256 * b1.toNat + 65536 * b2.toNat + 16777216 * b3.toNat)

/-- Byte `k` of a word, byte 0 the least significant. -/
def byteOf (w k : Nat) : Byte := BitVec.ofNat 8 (w / 256 ^ k)

/-- The header's two fields (30_encoding.md R100, 44_frame_header.md R246); bytes after the eighth are not the header's. -/
def decodeHeader : List Byte → Except Reject Instr
  | b0 :: b1 :: b2 :: b3 :: b4 :: b5 :: b6 :: b7 :: _ =>
    .ok (.frameHeader (le32 b0 b1 b2 b3) (le32 b4 b5 b6 b7))
  | _ => .error .headerTooShort

/-- The opcode map (30_encoding.md R106): `0 .. 255` LIT, `256 .. NLL-1` MATCH. -/
def decodeSymbol (nll id : Nat) : Except Reject Instr :=
  if id < 256 then .ok (.lit (BitVec.ofNat 8 id))
  else if id < nll then .ok (.matchRef (id - 256))
  else .error .symbolOutsideAlphabet

/-- A CTRL write: bit 0 is START, the reserved bits are ignored (10_state.md R38, R39). -/
def decodeCtrl (w : U32) : Instr := .start (w.getLsbD 0)

/-- The decoder, with the size `NLL` of the literal/length alphabet. -/
def decode (nll : Nat) : Encoded → Except Reject Instr
  | .header bytes => decodeHeader bytes
  | .symbol id => decodeSymbol nll id
  | .ctrl w => .ok (decodeCtrl w)

/-- What encodes an instruction (30_encoding.md R100, R106; 10_state.md R38). -/
def encode : Instr → Encoded
  | .frameHeader cs os =>
    .header [byteOf cs.toNat 0, byteOf cs.toNat 1, byteOf cs.toNat 2, byteOf cs.toNat 3,
      byteOf os.toNat 0, byteOf os.toNat 1, byteOf os.toNat 2, byteOf os.toNat 3]
  | .lit b => .symbol b.toNat
  | .matchRef i => .symbol (256 + i)
  | .start go => .ctrl (if go then 1 else 0)

/-- The largest alphabet a configuration may have (00_scope.md R7 WF7). -/
def largestNLL : Nat := 65536

/-- The bytes of a word of `n` bytes, least significant first. -/
def bytesOf (n w : Nat) : List Byte := (List.range n).map (byteOf w)

/-- What the table's numbering of an instruction's bits stands for: 64 bits are the header word `H` of 30_encoding.md R101, 32
bits a CTRL word, 16 bits an LL symbol id (R113). -/
def tableEncoded (nbits w : Nat) : Option Encoded :=
  if nbits = 64 then some (.header (bytesOf 8 w))
  else if nbits = 32 then some (.ctrl (BitVec.ofNat 32 w))
  else if nbits = 16 then some (.symbol (w % 65536))
  else none

/-- The decoder on a word of spec/opcode_table.json, in the largest alphabet. -/
def decodeTableWord (nbits w : Nat) : Option Instr :=
  match tableEncoded nbits w with
  | none => none
  | some e => (decode largestNLL e).toOption

/-- The number of bits the table gives an instruction. -/
def tableBits : Instr → Nat
  | .frameHeader _ _ => 64
  | .lit _ => 16
  | .matchRef _ => 16
  | .start _ => 32

/-- An instruction's word in the table's numbering (30_encoding.md R101, R113). -/
def tableWord : Instr → Nat
  | .frameHeader cs os => cs.toNat + 2 ^ 32 * os.toNat
  | .lit b => b.toNat
  | .matchRef i => 256 + i
  | .start go => if go then 1 else 0

/-- The fields of a LIT in the stream (30_encoding.md R104): the LL codeword of the byte. -/
def spellLit (lenLL : Lengths) (b : Byte) : Option (List Bool) :=
  Machine.spellSymbol lenLL b.toNat

/-- The fields of a MATCH in the stream, in their order (30_encoding.md R105): LL codeword, length extra bits, D codeword,
distance extra bits. -/
def spellMatch (c : Cfg) (lenLL lenD : Lengths) (i lx j dx : Nat) : Option (List Bool) :=
  match c.lens[i]?, c.dists[j]?, Machine.spellSymbol lenLL (256 + i), Machine.spellSymbol lenD j with
  | some lr, some dr, some llc, some dc =>
    some (llc ++ Machine.bitsMSB lr.extra lx ++ dc ++ Machine.bitsMSB dr.extra dx)
  | _, _, _, _ => none

end Sys2Proof
end

