-- ==== Sys2Proof/Machine/CfgCheck.lean ====
section
/-! DEFINITION. When a configuration is well formed (00_scope.md R7), and the derived bounds of R8. -/

namespace Sys2Proof.Machine

/-- The conditions of R7, and that the record has exactly the elements R6 gives it (log 15). -/
inductive CfgRule where
  | wf1 | wf2 | wf3 | wf4 | wf5 | wf6 | wf7
  /-- a table has more or fewer elements than R6 says, or an initial table is not in sparse form -/
  | shape
  deriving DecidableEq, Repr

/-- The largest value of a row: `BASE + 2^EXTRA - 1`. -/
def rowMax (r : ExtraRow) : Nat := r.base + 2 ^ r.extra - 1

/-- `MAX_DIST` (R7 WF5). -/
def maxDist (c : Cfg) : Nat := (c.dists.map rowMax).foldr max 0

/-- `MAX_LEN` (R8). -/
def maxLen (c : Cfg) : Nat := (c.lens.map rowMax).foldr max 0

/-- `MIN_LEN` (R8). -/
def minLen (c : Cfg) : Nat := (c.lens.map ExtraRow.base).min?.getD 0

/-- `MIN_DIST` (R8). -/
def minDist (c : Cfg) : Nat := (c.dists.map ExtraRow.base).min?.getD 0

/-- WF4 for one row (R7). -/
def rowFits (r : ExtraRow) : Bool := decide (1 ≤ r.base) && decide (rowMax r ≤ 2 ^ 32 - 1)

/-- The first condition of R7 a configuration breaks, if any. -/
def violated (c : Cfg) : Option CfgRule :=
  if ¬ (257 ≤ c.nll ∧ 1 ≤ c.nd) then some .wf1
  else if ¬ (1 ≤ c.maxDepthLL ∧ c.maxDepthLL ≤ Cfg.wordWidth ∧
      1 ≤ c.maxDepthD ∧ c.maxDepthD ≤ Cfg.wordWidth) then some .wf2
  else if ¬ (∀ r ∈ c.lens ++ c.dists, r.extra ≤ Cfg.wordWidth) then some .wf3
  else if ¬ (∀ r ∈ c.lens ++ c.dists, rowFits r = true) then some .wf4
  else if ¬ (maxDist c ≤ c.windowSize) then some .wf5
  else if ¬ (c.outCapacity ≤ 2 ^ 32 - 1) then some .wf6
  else if ¬ (c.nll ≤ 65536 ∧ c.nd ≤ 65536) then some .wf7
  else if ¬ (c.lens.length = c.nll - 256 ∧ c.dists.length = c.nd ∧
      Sparse.Formed 0 c.nll c.initLL ∧ Sparse.Formed 0 c.nd c.initD) then some .shape
  else none

/-- A well-formed configuration (R7). -/
abbrev CfgOk (c : Cfg) : Prop := violated c = none

end Sys2Proof.Machine
end

