-- ==== Sys2Proof/Machine/State.lean ====
section
/-! DEFINITION. The state of the block (10_state.md R30) with the parameters of every step that a state must carry (R31) and the
host's pending moves (70_reset_and_hazards.md R294); the reasons a step stops; the state right after reset (R290). -/

namespace Sys2Proof.Machine

/-- The error kinds (60_exceptions.md R260). An error is not a stop of the machine: raising it is a next state (R266). -/
inductive ErrorKind where
  | truncatedHeader
  | truncatedInput
  | corruptCodeTree
  | invalidBackReference
  | lengthMismatch
  | outOfMemory
  deriving DecidableEq, Repr

/-- The states of the decoder state machine (10_state.md R30). -/
inductive Fsm where
  | idle
  | readingHeader
  | decodingSymbols
  | done
  | failed (e : ErrorKind)
  deriving DecidableEq, Repr

/-- The registers of the host's view (10_state.md R38), in the order of their indices. -/
inductive Reg where
  | ctrl | status | inLen | csize | osize | emitted | bitpos
  deriving DecidableEq, Repr

/-- A move of the host (10_state.md R38, 70_reset_and_hazards.md R291, R294; log 7). -/
inductive HostMove where
  /-- places the bytes of a frame in IN, from offset 0 -/
  | place (bytes : List Byte)
  /-- writes a register -/
  | write (r : Reg) (v : U32)
  /-- resets the block -/
  | reset
  /-- leaves the step to the block -/
  | pass
  deriving DecidableEq, Repr

/-- Bytes by offset: offsets strictly rising, an offset not listed holding no value (logs 5 and 6). -/
abbrev Memory := List Host.Cell

/-- The canonical form of a memory. -/
abbrev Memory.wf (m : Memory) : Prop := Assoc.Sorted m

/-- The state. `cfg` and `inp` are the parameters R31 names, `host` and `fresh` are the model's own (logs 2, 7, 4); every other
field is an element of R30. -/
structure State where
  /-- the configuration `Cfg` -/
  cfg      : Cfg
  /-- the input buffer IN -/
  inp      : Memory
  /-- the decoder state machine -/
  fsm      : Fsm
  /-- `in_len`, the register IN_LEN -/
  inLen    : U32
  /-- `compressed_size`, the register CSIZE -/
  cs       : U32
  /-- `original_size`, the register OSIZE -/
  os       : U32
  /-- the boundary: payload bytes the bit reader may consume -/
  bnd      : U32
  /-- the stream position, the register BITPOS -/
  bitPos   : BitPos
  /-- the emitted count, the register EMITTED -/
  wp       : U32
  /-- the length table of the LL tree -/
  lenLL    : Lengths
  /-- the length table of the D tree -/
  lenD     : Lengths
  /-- the frequency counters of the LL symbols -/
  cntLL    : Counts
  /-- the frequency counters of the distance symbols -/
  cntD     : Counts
  /-- the number of LL symbols fully processed in this frame -/
  symCount : U32
  /-- the output buffer OUT -/
  out      : Memory
  /-- the host's pending moves, oldest first -/
  host     : List HostMove
  /-- how many times free values have been drawn -/
  fresh    : Nat
  deriving DecidableEq, Repr

/-- Why the machine stops with a fault. Each is an access the rules of the spec never make (20_memory.md R71, R73, R74; 30_encoding.md
R108); in a state a run reaches, with IN placed, none is raised. All are safe: the machine stops where the spec says nothing happens. -/
inductive Fault where
  /-- raised by a read of IN at an offset of `in_len` or more, which does not exist (R70, R71); safe -/
  | inputOutOfRange
  /-- raised by a read of an IN byte the host has placed nothing at (R294 duty 1; log 6); safe -/
  | inputNotPlaced
  /-- raised by an access to OUT at an offset of `os` or more, which does not exist (R70, R73); safe -/
  | outputOutOfRange
  /-- raised by a read of an OUT byte this frame has not written (R74, U4; log 5); safe -/
  | outputUnwritten
  /-- raised by MATCH when the D tree gives a symbol with no row in the distance table (R108, I2); safe -/
  | distanceOutsideAlphabet
  deriving DecidableEq, Repr

/-- Why an instruction, or a step, has no meaning. All are safe: nothing happens where the spec gives no effect. -/
inductive Refusal where
  /-- an instruction not modelled yet: raised by `exec` alone, by name; no arm does; safe -/
  | notModelled (mnemonic : String)
  /-- raised by `step` under a configuration that breaks R7 (R293, 93_implementation_defined.md P12); safe -/
  | illFormedConfiguration (rule : CfgRule)
  /-- raised by START while BUSY, which is no move of the host (10_state.md R39, 93_implementation_defined.md H1); safe -/
  | startWhileBusy
  /-- raised by FRAME_HEADER, LIT and MATCH in a state of `fsm` whose step they are not (43_decoder.md R200); safe -/
  | noStepInThisState
  /-- raised by MATCH with an index the length table has no row for (30_encoding.md R105, R106); safe -/
  | lengthIndexOutsideAlphabet
  /-- raised by `step` when what is fetched decodes to no instruction (30_encoding.md R108, I2); safe -/
  | undecodable (why : Reject)
  deriving DecidableEq, Repr

/-- The machine right after reset (70_reset_and_hazards.md R290): Idle; every element the spec leaves unspecified at the value log 1
names; no frame placed, no move of the host pending. -/
def State.reset : State where
  cfg := Config.implemented
  inp := []
  fsm := .idle
  inLen := 0
  cs := 0
  os := 0
  bnd := 0
  bitPos := 0
  wp := 0
  lenLL := []
  lenD := []
  cntLL := []
  cntD := []
  symCount := 0
  out := []
  host := []
  fresh := 0

end Sys2Proof.Machine
end

