-- ==== Sys2Proof/Machine/Flags.lean ====
section
/-! DEFINITION. The status flags and the codes of STATUS (10_state.md R35, R38; 60_exceptions.md R260). -/

namespace Sys2Proof.Machine

/-- BUSY (R35). -/
def State.busy (s : State) : Bool :=
  match s.fsm with
  | .readingHeader | .decodingSymbols => true
  | .idle | .done | .failed _ => false

/-- DONE (R35). -/
def State.isDone (s : State) : Bool := decide (s.fsm = .done)

/-- FAILED (R35). -/
def State.isFailed (s : State) : Bool :=
  match s.fsm with
  | .failed _ => true
  | .idle | .readingHeader | .decodingSymbols | .done => false

/-- The numeric code of an error kind (R260). -/
def errorCode : ErrorKind → Nat
  | .truncatedHeader => 1
  | .truncatedInput => 2
  | .corruptCodeTree => 3
  | .invalidBackReference => 4
  | .lengthMismatch => 5
  | .outOfMemory => 6

/-- STATUS.STATE (R38). -/
def stateField : Fsm → Nat
  | .idle => 0
  | .readingHeader => 1
  | .decodingSymbols => 2
  | .done => 3
  | .failed _ => 4

/-- STATUS.ERR (R38): 0 when STATE is not Failed. -/
def errField : Fsm → Nat
  | .failed e => errorCode e
  | .idle | .readingHeader | .decodingSymbols | .done => 0

/-- STATUS as a word (R38): STATE in bits 2:0, ERR in bits 6:4, every other bit 0. -/
def State.statusWord (s : State) : U32 :=
  BitVec.ofNat 32 (stateField s.fsm + 16 * errField s.fsm)

end Sys2Proof.Machine
end

