-- ==== Sys2Proof/Machine/Ops.lean ====
section
/-! DEFINITION. The named operations over State: the outcome of a primitive, the two memories, the writes the rules make, entering
Failed (60_exceptions.md R266), and the loss of every element's value at START and at a reset. -/

namespace Sys2Proof.Machine

/-! ## Outcome of a primitive -/

/-- What a primitive of the spec's pseudocode ends in: a value, an error raised (00_scope.md R11), or a fault of the model. The state
is the one with every write made so far. -/
inductive Res (α : Type) where
  | ok (a : α) (s : State)
  | raise (e : ErrorKind) (s : State)
  | fault (f : Fault)

/-- One primitive after another: the first raise or fault ends the step (00_scope.md R11, 60_exceptions.md R268). -/
def Res.bind {α β : Type} : Res α → (α → State → Res β) → Res β
  | .ok a s, k => k a s
  | .raise e s, _ => .raise e s
  | .fault f, _ => .fault f

/-! ## Memory -/

/-- `MemRead(IN, a, 1)` (20_memory.md R71). -/
def readIn (s : State) (a : Nat) : Except Fault Byte :=
  if a < s.inLen.toNat then
    match Assoc.get? s.inp a with
    | some b => .ok b
    | none => .error .inputNotPlaced
  else .error .inputOutOfRange

/-- `MemRead(IN, a, n)` (20_memory.md R71). -/
def readInBytes (s : State) : (a n : Nat) → Except Fault (List Byte)
  | _, 0 => .ok []
  | a, n + 1 =>
    match readIn s a with
    | .error f => .error f
    | .ok b =>
      match readInBytes s (a + 1) n with
      | .error f => .error f
      | .ok bs => .ok (b :: bs)

/-- `MemRead(OUT, a, 1)` (20_memory.md R74). -/
def readOut (s : State) (a : Nat) : Except Fault Byte :=
  if a < s.os.toNat then
    match Assoc.get? s.out a with
    | some b => .ok b
    | none => .error .outputUnwritten
  else .error .outputOutOfRange

/-- The memory that lists the bytes of a buffer from an offset on. -/
def Memory.ofBytes : (a : Nat) → List Byte → Memory
  | _, [] => []
  | a, b :: r => (a, b) :: Memory.ofBytes (a + 1) r

/-! ## Writes -/

/-- `fsm <- f`. -/
def State.enter (f : Fsm) (s : State) : State := { s with fsm := f }

/-- `bit_pos <- bit_pos + n` (40_bitreader.md R131, R132). -/
def State.advance (n : Nat) (s : State) : State :=
  { s with bitPos := s.bitPos + BitVec.ofNat 35 n }

/-- `MemWrite(OUT, wp, 1, b); wp <- wp + 1` (20_memory.md R73). -/
def State.emit (b : Byte) (s : State) : State :=
  { s with out := Assoc.put s.out s.wp.toNat b, wp := s.wp + 1 }

/-- A counter file after one more occurrence of a symbol (43_decoder.md R208). -/
def bump (cnt : Counts) (symbol : Nat) : Counts :=
  Sparse.set 0 cnt symbol (Sparse.get 0 cnt symbol + 1)

/-- `cnt_ll[s] <- cnt_ll[s] + 1` (43_decoder.md R208). -/
def State.countLL (symbol : Nat) (s : State) : State := { s with cntLL := bump s.cntLL symbol }

/-- `cnt_d[j] <- cnt_d[j] + 1` (43_decoder.md R208). -/
def State.countD (symbol : Nat) (s : State) : State := { s with cntD := bump s.cntD symbol }

/-- `sym_count <- sym_count + 1` (43_decoder.md R208). -/
def State.countInstr (s : State) : State := { s with symCount := s.symCount + 1 }

/-- `len_ll <- t` (41_codetree.md R155, R156). -/
def State.setLenLL (t : Lengths) (s : State) : State := { s with lenLL := t }

/-- `len_d <- t` (41_codetree.md R155, R156). -/
def State.setLenD (t : Lengths) (s : State) : State := { s with lenD := t }

/-- The size fields and the boundary of a header (44_frame_header.md R240, R243, R246). -/
def State.setSizes (cs os : U32) (s : State) : State :=
  { s with cs := cs, os := os, bnd := BitVec.ofNat 32 (min cs.toNat (s.inLen.toNat - 8)) }

/-- The positions and counters at the start of a frame (44_frame_header.md R240). -/
def State.clearFrame (s : State) : State :=
  { s with bitPos := 0, wp := 0, symCount := 0, cntLL := [], cntD := [] }

/-- The host's next moves. -/
def State.setHost (moves : List HostMove) (s : State) : State := { s with host := moves }

/-- IN as the host places it (70_reset_and_hazards.md R294 duty 1). -/
def State.place (bytes : List Byte) (s : State) : State :=
  { s with inp := Memory.ofBytes 0 bytes }

/-! ## Failure, START and reset -/

/-- Entering `Failed(e)` (60_exceptions.md R266): CSIZE, OSIZE, EMITTED and BITPOS become unspecified, so they take free values
(log 4); every write made before the raise remains. -/
def State.fail (e : ErrorKind) (s : State) : State :=
  { s with
    fsm := .failed e
    cs := Config.freeCs s.fresh
    os := Config.freeOs s.fresh
    wp := Config.freeWp s.fresh
    bitPos := Config.freeBitPos s.fresh
    fresh := s.fresh + 1 }

/-- Every element of 10_state.md R30 but `fsm` and `in_len` becomes unspecified (43_decoder.md R201, 70_reset_and_hazards.md R290): free
values (log 4), and OUT bytes with no value (log 5). -/
def State.forget (s : State) : State :=
  { s with
    cs := Config.freeCs s.fresh
    os := Config.freeOs s.fresh
    bnd := Config.freeBnd s.fresh
    bitPos := Config.freeBitPos s.fresh
    wp := Config.freeWp s.fresh
    lenLL := Sparse.fit 0 s.cfg.nll (Config.freeLenLL s.fresh)
    lenD := Sparse.fit 0 s.cfg.nd (Config.freeLenD s.fresh)
    cntLL := Sparse.fit 0 s.cfg.nll (Config.freeCntLL s.fresh)
    cntD := Sparse.fit 0 s.cfg.nd (Config.freeCntD s.fresh)
    symCount := Config.freeSymCount s.fresh
    out := []
    fresh := s.fresh + 1 }

/-- A reset of the block (70_reset_and_hazards.md R290, R291): Idle, every other element unspecified; IN, the configuration and the
host's later moves are not the block's (log 22). -/
def State.hostReset (s : State) : State :=
  { s.forget with fsm := .idle, inLen := Config.freeInLen s.fresh }

/-- The outcome of a step whose pseudocode has run: a raise is the failure entry of 60_exceptions.md R266, a next state. -/
def Res.finish : Res Unit → Host.Outcome State Fault Refusal
  | .ok _ s => .next s
  | .raise e s => .next (s.fail e)
  | .fault f => .fault f

end Sys2Proof.Machine
end

