-- ==== Sys2Proof/Machine/Control.lean ====
section
/-! DEFINITION. The host's side: START (43_decoder.md R201), the register view (10_state.md R38), the result of a frame (43_decoder.md R216). -/

namespace Sys2Proof.Machine

/-- START (43_decoder.md R201): `in_len` is IN_LEN, one storage (log 20), so only the rest is lost. Writing 0 does nothing (log 14); writing 1
while BUSY is no move of the host (10_state.md R39). -/
def execStart (go : Bool) (s : State) : Host.Outcome State Fault Refusal :=
  if go then
    if s.busy then .refused .startWhileBusy else .next (s.forget.enter .readingHeader)
  else .next s

/-- A register's index (10_state.md R38). -/
def Reg.index : Reg → Nat
  | .ctrl => 0
  | .status => 1
  | .inLen => 2
  | .csize => 3
  | .osize => 4
  | .emitted => 5
  | .bitpos => 6

/-- A read of a register, zero-extended to 64 bits (10_state.md R38); it has no side effect. -/
def readReg (s : State) : Reg → BitVec 64
  | .ctrl => 0
  | .status => s.statusWord.setWidth 64
  | .inLen => s.inLen.setWidth 64
  | .csize => s.cs.setWidth 64
  | .osize => s.os.setWidth 64
  | .emitted => s.wp.setWidth 64
  | .bitpos => s.bitPos.setWidth 64

/-- A write of a register other than CTRL (10_state.md R38, R39): IN_LEN while not BUSY; every other register ignores writes. -/
def writeReg (r : Reg) (v : U32) (s : State) : State :=
  match r with
  | .inLen => if s.busy then s else { s with inLen := v }
  | .ctrl | .status | .csize | .osize | .emitted | .bitpos => s

/-- A byte of OUT as the host may read it (20_memory.md R82): only at Done, only below `os`. -/
def hostReadOut (s : State) (a : Nat) : Option Byte :=
  if s.isDone && decide (a < s.os.toNat) then Assoc.get? s.out a else none

/-- The result of a frame (43_decoder.md R216), the five decode errors kept apart from OutOfMemory by their kinds (60_exceptions.md R267). -/
inductive FrameResult where
  | bytes (out : List Byte)
  | err (e : ErrorKind)
  deriving DecidableEq, Repr

/-- The result at a terminal state (43_decoder.md R216): none before it. -/
def frameResult (s : State) : Option FrameResult :=
  match s.fsm with
  | .done => some (.bytes ((List.range s.os.toNat).filterMap (Assoc.get? s.out)))
  | .failed e => some (.err e)
  | .idle | .readingHeader | .decodingSymbols => none

end Sys2Proof.Machine
end

