-- ==== Sys2Proof/Machine/Dictionary.lean ====
section
/-! DEFINITION. The dictionary and copy unit (42_dictionary.md). -/

namespace Sys2Proof.Machine

/-- One byte written to OUT at `wp`, which must lie inside the buffer (20_memory.md R73). -/
def emitByte (b : Byte) (s : State) : Res Unit :=
  if s.wp.toNat < s.os.toNat then .ok () (s.emit b) else .fault .outputOutOfRange

/-- `emit_literal(b)` (R181). -/
def emitLiteral (b : Byte) (s : State) : Res Unit := emitByte b s

/-- The loop of `copy_back` (R182): strictly one byte at a time, in order. -/
def copyLoop (distance : Nat) : (length : Nat) → State → Res Unit
  | 0, s => .ok () s
  | k + 1, s =>
    match readOut s (s.wp.toNat - distance) with
    | .error f => .fault f
    | .ok b => (emitByte b s).bind fun _ s => copyLoop distance k s

/-- `copy_back(distance, length)` (R182): both checks before any byte is copied. -/
def copyBack (distance length : Nat) (s : State) : Res Unit :=
  if distance = 0 ∨ s.wp.toNat < distance then .raise .invalidBackReference s
  else if s.os.toNat - s.wp.toNat < length then .raise .invalidBackReference s
  else copyLoop distance length s

end Sys2Proof.Machine
end

