-- ==== Sys2Proof/Machine/Operands.lean ====
section
/-! DEFINITION. Reading the stream: the BitReader (40_bitreader.md), the prefix-tree lookup (41_codetree.md R154), and the operands of
MATCH (43_decoder.md R206, R207). -/

namespace Sys2Proof.Machine

/-- `remaining = 8*bnd - bit_pos` (R130). -/
def State.remaining (s : State) : Nat := 8 * s.bnd.toNat - s.bitPos.toNat

/-- `StreamBit(p)` (00_scope.md R10, R11): bit `7 - p mod 8` of payload byte `p div 8`. -/
def streamBit (s : State) (p : Nat) : Except Fault Bool :=
  match readIn s (8 + p / 8) with
  | .error f => .error f
  | .ok b => .ok (b.getLsbD (7 - p % 8))

/-- The loop of `read_bits` (R131): `n` bits from position `p` on, shifted into `v` one by one. -/
def streamBits (s : State) : (p n v : Nat) → Except Fault Nat
  | _, 0, v => .ok v
  | p, n + 1, v =>
    match streamBit s p with
    | .error f => .error f
    | .ok b => streamBits s (p + 1) n (2 * v + b.toNat)

/-- `peek_bits(n)` (R133). -/
def peekBits (n : Nat) (s : State) : Res Nat :=
  if s.remaining < n then .raise .truncatedInput s
  else
    match streamBits s s.bitPos.toNat n 0 with
    | .error f => .fault f
    | .ok v => .ok v s

/-- `read_bits(n)` (R131). -/
def readBits (n : Nat) (s : State) : Res Nat :=
  if s.remaining < n then .raise .truncatedInput s
  else
    match streamBits s s.bitPos.toNat n 0 with
    | .error f => .fault f
    | .ok v => .ok v (s.advance n)

/-- `read_bit()` (R135). -/
def readBit (s : State) : Res Nat := readBits 1 s

/-- `read_extra(k)` (R134). -/
def readExtra (k : Nat) (s : State) : Res Nat :=
  if k = 0 then .ok 0 s else readBits k s

/-- The descent of a Full tree (41_codetree.md R154): `fuel` is `MAXDEPTH - l`, `v` the `l` bits read so far. -/
def descend (cs : List Codeword) : (fuel l v : Nat) → State → Res Nat
  | 0, _, _, s => .raise .corruptCodeTree s
  | fuel + 1, l, v, s =>
    (readBit s).bind fun b s =>
      match matchCode cs (l + 1) (2 * v + b) with
      | some symbol => .ok symbol s
      | none => descend cs fuel (l + 1) (2 * v + b) s

/-- `decode_one(T)` (41_codetree.md R154). -/
def decodeOne (maxDepth : Nat) (t : Lengths) (s : State) : Res Nat :=
  match classify t with
  | .empty => .raise .corruptCodeTree s
  | .single symbol => .ok symbol s
  | .full => descend (codewords t) maxDepth 0 0 s

/-- `decode_one(LL tree)`. -/
def decodeLL (s : State) : Res Nat := decodeOne s.cfg.maxDepthLL s.lenLL s

/-- `decode_one(D tree)`. -/
def decodeD (s : State) : Res Nat := decodeOne s.cfg.maxDepthD s.lenD s

/-- A base and the extra bits read after it (30_encoding.md R107). -/
def readValue (row : ExtraRow) (s : State) : Res Nat :=
  (readExtra row.extra s).bind fun x s => .ok (row.base + x) s

/-- The distance symbol, its count and its extra bits (43_decoder.md R205, R207, R208). -/
def readDistance (s : State) : Res Nat :=
  (decodeD s).bind fun j s =>
    match s.cfg.dists[j]? with
    | none => .fault .distanceOutsideAlphabet
    | some row => readValue row (s.countD j)

/-- The operands of a MATCH with the length row `row` (43_decoder.md R205): the length, then the distance. -/
def readMatchOperands (row : ExtraRow) (s : State) : Res (Nat × Nat) :=
  (readValue row s).bind fun length s =>
    (readDistance s).bind fun distance s => .ok (length, distance) s

end Sys2Proof.Machine
end

