-- ==== Sys2Proof/Machine/Symbols.lean ====
section
/-! DEFINITION. The symbol instructions LIT and MATCH with the accounting, completion and rebuild of a symbol step (43_decoder.md R203–R210). -/

namespace Sys2Proof.Machine

/-- Installing a table in the LL tree through `validate` (41_codetree.md R151, R155, R156). -/
def installLL (t : Lengths) (s : State) : Res Unit :=
  if validTable s.cfg.maxDepthLL t then .ok () (s.setLenLL t) else .raise .corruptCodeTree s

/-- Installing a table in the D tree through `validate` (41_codetree.md R151, R155, R156). -/
def installD (t : Lengths) (s : State) : Res Unit :=
  if validTable s.cfg.maxDepthD t then .ok () (s.setLenD t) else .raise .corruptCodeTree s

/-- Whether the rebuild cadence is due (R210). -/
def rebuildDue (s : State) : Bool :=
  decide (0 < s.cfg.rebuildPeriod) && decide (s.symCount.toNat % s.cfg.rebuildPeriod = 0)

/-- `rebuild(LL tree); rebuild(D tree)` (41_codetree.md R156), each from its own counters. -/
def rebuildTrees (s : State) : Res Unit :=
  (installLL (rebuiltLL s.cfg s.cntLL) s).bind fun _ s => installD (rebuiltD s.cfg s.cntD) s

/-- `rebuild_if_due()` (R210). -/
def rebuildIfDue (s : State) : Res Unit := if rebuildDue s then rebuildTrees s else .ok () s

/-- Whether the tail check refuses the frame (R209): a whole payload byte or more is left unread. -/
def tailLeft (s : State) : Bool :=
  decide (s.cfg.tailCheck = .wholeByte) && decide (8 ≤ s.remaining)

/-- The end of a frame (R209). -/
def complete (s : State) : Res Unit :=
  if tailLeft s then .raise .lengthMismatch s else .ok () (s.enter .done)

/-- `complete_or_rebuild()` (R209). -/
def completeOrRebuild (s : State) : Res Unit :=
  if s.wp = s.os then complete s else rebuildIfDue s

/-- What every symbol instruction does around its own effect (R203, R208): the LL symbol is counted at once, then the
effect, then the instruction is counted and the frame completed or the trees rebuilt. -/
def symbolInstr (symbol : Nat) (effect : State → Res Unit) (s : State) : Res Unit :=
  (effect (s.countLL symbol)).bind fun _ s => completeOrRebuild s.countInstr

/-- The effect of MATCH with the length row `row` (R205). -/
def matchEffect (row : ExtraRow) (s : State) : Res Unit :=
  (readMatchOperands row s).bind fun p s => copyBack p.2 p.1 s

/-- LIT (R204), a step of DecodingSymbols (R200; log 10). -/
def execLit (b : Byte) (s : State) : Host.Outcome State Fault Refusal :=
  if s.fsm = .decodingSymbols then (symbolInstr b.toNat (emitLiteral b) s).finish
  else .refused .noStepInThisState

/-- MATCH (R205), a step of DecodingSymbols (R200; log 10). -/
def execMatchRef (i : Nat) (s : State) : Host.Outcome State Fault Refusal :=
  if s.fsm = .decodingSymbols then
    match s.cfg.lens[i]? with
    | none => .refused .lengthIndexOutsideAlphabet
    | some row => (symbolInstr (256 + i) (matchEffect row) s).finish
  else .refused .noStepInThisState

end Sys2Proof.Machine
end

