-- ==== Sys2Proof/Machine/Header.lean ====
section
/-! DEFINITION. The frame header step (44_frame_header.md). -/

namespace Sys2Proof.Machine

/-- The trees at the start of a frame, the LL table first (41_codetree.md R155, R241). -/
def installInitial (s : State) : Res Unit :=
  (installLL s.cfg.initLL s).bind fun _ s => installD s.cfg.initD s

/-- Where the header step ends (R240, R244). -/
def beginSymbols (s : State) : Res Unit :=
  if s.os = 0 then complete s else .ok () (s.enter .decodingSymbols)

/-- `header_step()` (R240), its checks in the spec's order. -/
def headerStep (cs os : U32) (s : State) : Res Unit :=
  if s.inLen.toNat < 8 then .raise .truncatedHeader s
  else if s.cfg.outCapacity < os.toNat then .raise .outOfMemory (s.setSizes cs os)
  else (installInitial (s.setSizes cs os).clearFrame).bind fun _ s => beginSymbols s

/-- FRAME_HEADER (R240), the step of ReadingHeader (43_decoder.md R200; log 10). -/
def execFrameHeader (cs os : U32) (s : State) : Host.Outcome State Fault Refusal :=
  if s.fsm = .readingHeader then (headerStep cs os s).finish else .refused .noStepInThisState

end Sys2Proof.Machine
end

