-- ==== Sys2Proof/Machine/Dispatch.lean ====
section
/-! DEFINITION. The instruction's meaning, one arm per constructor. -/

namespace Sys2Proof.Machine

def exec (i : Instr) (s : State) : Host.Outcome State Fault Refusal :=
  match i with
  | .frameHeader cs os => Sys2Proof.Machine.execFrameHeader cs os s
  | .lit b => Sys2Proof.Machine.execLit b s
  | .matchRef k => Sys2Proof.Machine.execMatchRef k s
  | .start go => Sys2Proof.Machine.execStart go s

end Sys2Proof.Machine
end

