-- ==== Sys2Proof/Machine/Fetch.lean ====
section
/-! DEFINITION. What the next step is (43_decoder.md R200, R203; 44_frame_header.md R240; 70_reset_and_hazards.md R294): a move of the host, the
instruction the block fetches, or waiting. -/

namespace Sys2Proof.Machine

/-- The next step: settled already, or the instruction to run and the state it runs in. -/
inductive Action where
  | settle (o : Host.Outcome State Fault Refusal)
  | run (i : Instr) (s : State)

/-- Runs what is decoded, or stops by name. -/
def runDecoded (d : Except Reject Instr) (s : State) : Action :=
  match d with
  | .ok i => .run i s
  | .error why => .settle (.refused (.undecodable why))

/-- The fetch of ReadingHeader (44_frame_header.md R240, R245): bytes 0..7 of IN, if the buffer has them. -/
def fetchHeader (s : State) : Action :=
  if s.inLen.toNat < 8 then .settle (.next (s.fail .truncatedHeader))
  else
    match readInBytes s 0 8 with
    | .error f => .settle (.fault f)
    | .ok bytes => runDecoded (decode s.cfg.nll (.header bytes)) s

/-- The fetch of DecodingSymbols (43_decoder.md R203): one LL symbol, `bit_pos` moved past its codeword. -/
def fetchSymbol (s : State) : Action :=
  match decodeLL s with
  | .raise e s' => .settle (.next (s'.fail e))
  | .fault f => .settle (.fault f)
  | .ok symbol s' => runDecoded (decode s.cfg.nll (.symbol symbol)) s'

/-- The block's own step (43_decoder.md R200, R211, R212): Idle, Done and Failed wait (log 8). -/
def blockAction (s : State) : Action :=
  match s.fsm with
  | .readingHeader => fetchHeader s
  | .decodingSymbols => fetchSymbol s
  | .idle | .done | .failed _ => .settle (.next s)

/-- A move of the host the block is not BUSY for (10_state.md R38, 70_reset_and_hazards.md R294); a CTRL write is the START instruction. -/
def hostAction (m : HostMove) (s : State) : Action :=
  match m with
  | .place bytes => .settle (.next (s.place bytes))
  | .write .ctrl v => runDecoded (decode s.cfg.nll (.ctrl v)) s
  | .write r v => .settle (.next (writeReg r v s))
  | .reset => .settle (.next s.hostReset)
  | .pass => blockAction s

/-- The next step (log 7): a reset or a pass is taken at any time; any other move waits while the block is BUSY (R294 duties 3 and 4). -/
def nextAction (s : State) : Action :=
  match s.host with
  | [] => blockAction s
  | .reset :: rest => hostAction .reset (s.setHost rest)
  | .pass :: rest => hostAction .pass (s.setHost rest)
  | m :: rest => if s.busy then blockAction s else hostAction m (s.setHost rest)

end Sys2Proof.Machine
end

