-- ==== Sys2Proof/Machine/Probe.lean ====
section
/-! DEFINITION. How an instruction given as a word of spec/opcode_table.json is placed where the next step fetches it (log 12). -/

namespace Sys2Proof.Machine

/-- A well-formed configuration with the LL symbol `id`, the only one its first LL tree spells; every length is 1, every distance
is 1, no rebuild. -/
def probeCfg (id : Nat) : Cfg where
  nll := max 257 (id + 1)
  nd := 1
  maxDepthLL := 1
  maxDepthD := 1
  lens := List.replicate (max 257 (id + 1) - 256) ⟨1, 0⟩
  dists := [⟨1, 0⟩]
  initLL := [(id, 1)]
  initD := [(0, 1)]
  rebuildPeriod := 0
  rebuildLL := []
  rebuildD := []
  windowSize := 1
  outCapacity := 2 ^ 32 - 1
  tailCheck := .none

/-- The header bytes at IN 0..7, eight bytes long, the block reading its header. -/
def placeHeader (w : Nat) (s : State) : State :=
  { s with
    cfg := probeCfg 0
    inp := Memory.ofBytes 0 (bytesOf 8 w)
    inLen := 8
    fsm := .readingHeader
    host := [] }

/-- A frame under way, nothing emitted yet, whose trees are Single trees: the LL tree spells the symbol in no bits. -/
def placeSymbol (id : Nat) (s : State) : State :=
  { s with
    cfg := probeCfg id
    fsm := .decodingSymbols
    inLen := 8
    os := BitVec.ofNat 32 (2 ^ 32 - 1)
    bnd := 0
    bitPos := 0
    wp := 0
    lenLL := [(id, 1)]
    lenD := [(0, 1)]
    host := [] }

/-- A CTRL write as the host's next move, the block not BUSY. -/
def placeCtrl (w : U32) (s : State) : State :=
  { s with
    cfg := probeCfg 0
    fsm := if s.busy then .idle else s.fsm
    host := .write .ctrl w :: s.host }

/-- The instruction of a table word placed for the next step. -/
def placeEncoded (e : Option Encoded) (w : Nat) (s : State) : State :=
  match e with
  | some (.header _) => placeHeader w s
  | some (.symbol id) => placeSymbol id s
  | some (.ctrl v) => placeCtrl v s
  | none => s

end Sys2Proof.Machine
end

