-- ==== Sys2Proof/Machine/Step.lean ====
section
/-! DEFINITION. One step of the machine. -/

namespace Sys2Proof.Machine

/-- One step: an ill-formed configuration is refused (00_scope.md R7, 70_reset_and_hazards.md R293); else the next action, and an instruction
it fetches runs through `exec`. -/
def step (s : State) : Host.Outcome State Fault Refusal :=
  match violated s.cfg with
  | some rule => .refused (.illFormedConfiguration rule)
  | none =>
    match nextAction s with
    | .settle o => o
    | .run i s' => exec i s'

/-- The state whose next step fetches and runs the instruction of a table word (log 12). -/
def State.withFetchWord (s : State) (nbits w : Nat) : State :=
  placeEncoded (tableEncoded nbits w) w s

end Sys2Proof.Machine
end

