-- ==== Sys2Proof/Machine/Assembler.lean ====
section
/-! DEFINITION. The assembler of 30_encoding.md R112: frames as text items to the bytes of IN. -/

namespace Sys2Proof.Machine

/-- A line of a frame's body (R112); `.pad` is always done at the end. -/
inductive AsmItem where
  /-- `LIT b` -/
  | lit (b : Byte)
  /-- `MATCH length, distance` -/
  | back (length distance : Nat)
  /-- `.byte b` -/
  | raw (b : Byte)
  deriving DecidableEq, Repr

/-- The trees and counters the assembler follows (R112 "the tree current at that point of the stream"). -/
structure AsmState where
  lenLL : Lengths
  lenD  : Lengths
  cntLL : Counts
  cntD  : Counts
  count : Nat
  deriving DecidableEq, Repr

/-- A counter file after one more occurrence (43_decoder.md R208). -/
def asmBump (cnt : Counts) (k : Nat) : Counts := Sparse.set 0 cnt k (Sparse.get 0 cnt k + 1)

/-- The state after an instruction: counted, the trees rebuilt when due (43_decoder.md R208, R210). -/
def asmAfter (c : Cfg) (ll : Nat) (d : Option Nat) (a : AsmState) : AsmState :=
  let cntLL := asmBump a.cntLL ll
  let cntD := match d with
    | none => a.cntD
    | some j => asmBump a.cntD j
  let count := a.count + 1
  if 0 < c.rebuildPeriod ∧ count % c.rebuildPeriod = 0 then
    ⟨rebuiltLL c cntLL, rebuiltD c cntD, cntLL, cntD, count⟩
  else ⟨a.lenLL, a.lenD, cntLL, cntD, count⟩

/-- The lowest index whose row reaches a value (R112). -/
def lowestRow (rows : List ExtraRow) (v : Nat) : Option Nat :=
  rows.findIdx? fun r => decide (r.base ≤ v) && decide (v ≤ rowMax r)

/-- The base of row `i`. -/
def rowBase (rows : List ExtraRow) (i : Nat) : Nat := (rows[i]?.map ExtraRow.base).getD 0

/-- The bits of one item, and the state after it; `none` if the trees or tables cannot spell it. -/
def asmItem (c : Cfg) (a : AsmState) : AsmItem → Option (List Bool × AsmState)
  | .lit b => (spellLit a.lenLL b).map fun bits => (bits, asmAfter c b.toNat none a)
  | .back length distance =>
    match lowestRow c.lens length, lowestRow c.dists distance with
    | some i, some j =>
      (spellMatch c a.lenLL a.lenD i (length - rowBase c.lens i) j (distance - rowBase c.dists j)).map
        fun bits => (bits, asmAfter c (256 + i) (some j) a)
    | _, _ => none
  | .raw b => some (bitsMSB 8 b.toNat, a)

/-- The bits of a body. -/
def asmBody (c : Cfg) : AsmState → List AsmItem → Option (List Bool)
  | _, [] => some []
  | a, x :: r =>
    match asmItem c a x with
    | none => none
    | some (bits, a) => (asmBody c a r).map fun more => bits ++ more

/-- The number eight bits spell, most significant first. -/
def byteOfBits (bits : List Bool) : Byte :=
  BitVec.ofNat 8 (bits.foldl (fun v b => 2 * v + b.toNat) 0)

/-- Bits packed into bytes, `.pad` filling the last one with zeros (R112). `fuel` bounds the number of bytes. -/
def packBits : (fuel : Nat) → List Bool → List Byte
  | 0, _ => []
  | _, [] => []
  | fuel + 1, bits =>
    byteOfBits ((bits.take 8) ++ List.replicate (8 - (bits.take 8).length) false) ::
      packBits fuel (bits.drop 8)

/-- A frame (R112): `cs` none is `cs=auto`, the bytes of the body. -/
def assemble (c : Cfg) (cs : Option Nat) (os : Nat) (body : List AsmItem) : Option (List Byte) :=
  (asmBody c ⟨c.initLL, c.initD, [], [], 0⟩ body).map fun bits =>
    bytesOf 4 (cs.getD (packBits bits.length bits).length) ++ bytesOf 4 os ++
      packBits bits.length bits

end Sys2Proof.Machine
end

