-- ==== Sys2Proof/Machine/Lookahead.lean ====
section
/-! DEFINITION. A tree decoder by lookahead, one of the mechanisms 41_codetree.md R157 allows beside the descent that defines
`decode_one` (40_bitreader.md R133, 70_reset_and_hazards.md R299; log 18). -/

namespace Sys2Proof.Machine

/-- The codeword that `n` bits of value `v` begin with. -/
def beginningCodeword (cs : List Codeword) (n v : Nat) : Option Codeword :=
  cs.find? fun c => decide (c.len ≤ n) && decide (v / 2 ^ (n - c.len) = c.code)

/-- `decode_one` by lookahead: at most `MAXDEPTH` bits are looked at, and none past the payload (R299); then the codeword's length is
consumed. -/
def lookaheadOne (maxDepth : Nat) (t : Lengths) (s : State) : Res Nat :=
  match classify t with
  | .empty => .raise .corruptCodeTree s
  | .single symbol => .ok symbol s
  | .full =>
    match streamBits s s.bitPos.toNat (min maxDepth s.remaining) 0 with
    | .error f => .fault f
    | .ok v =>
      match beginningCodeword (codewords t) (min maxDepth s.remaining) v with
      | some c => .ok c.symbol (s.advance c.len)
      | none =>
        if s.remaining < maxDepth then .raise .truncatedInput s else .raise .corruptCodeTree s

end Sys2Proof.Machine
end

