-- ==== Sys2Proof/Machine/Window.lean ====
section
/-! DEFINITION. The circular history window of 42_dictionary.md R184, an implementation of the copy unit beside the one the rules
define; it is not state of the block (R40, R86, R184; log 18). -/

namespace Sys2Proof.Machine

/-- `WIN[a mod WINDOW_SIZE] <- b` (R184). -/
def windowPut (size : Nat) (win : Memory) (a : Nat) (b : Byte) : Memory := Assoc.put win (a % size) b

/-- A byte emitted to OUT and to the window (R184). -/
def windowEmit (size : Nat) (b : Byte) (win : Memory) (s : State) : Res Memory :=
  (emitByte b s).bind fun _ s' => .ok (windowPut size win s.wp.toNat b) s'

/-- The copy loop that reads `WIN[(wp - distance) mod WINDOW_SIZE]` (R184). -/
def windowLoop (size distance : Nat) : (length : Nat) → Memory → State → Res Memory
  | 0, win, s => .ok win s
  | k + 1, win, s =>
    match Assoc.get? win ((s.wp.toNat - distance) % size) with
    | none => .fault .outputUnwritten
    | some b => (windowEmit size b win s).bind fun win s => windowLoop size distance k win s

/-- `copy_back` over the window: the checks of R182, then the loop. -/
def windowCopyBack (size distance length : Nat) (win : Memory) (s : State) : Res Memory :=
  if distance = 0 ∨ s.wp.toNat < distance then .raise .invalidBackReference s
  else if s.os.toNat - s.wp.toNat < length then .raise .invalidBackReference s
  else windowLoop size distance length win s

/-- The window holds the tail of OUT (R184): at every distance it can serve, it holds the byte OUT holds. -/
def WindowMirrors (size : Nat) (win : Memory) (s : State) : Prop :=
  ∀ d, 1 ≤ d → d ≤ size → d ≤ s.wp.toNat →
    Assoc.get? win ((s.wp.toNat - d) % size) = Assoc.get? s.out (s.wp.toNat - d)

end Sys2Proof.Machine
end

