-- ==== Sys2Proof/WellFormed.lean ====
section
/-! DEFINITION. Which instructions a configuration has (30_encoding.md R104–R107, R109). Every value of the other operands is
legal: the header has no reserved bits (R100), a literal is any byte, CTRL has one field. -/

namespace Sys2Proof

/-- The check an instruction can fail. -/
inductive IllFormed where
  /-- a length index above `NLL - 257` (R105) -/
  | lengthIndex
  deriving DecidableEq, Repr

/-- The check an instruction fails in a configuration, if any. -/
def Instr.illFormed (c : Cfg) : Instr → Option IllFormed
  | .frameHeader _ _ => none
  | .lit _ => none
  | .matchRef i => if 256 + i < c.nll then none else some .lengthIndex
  | .start _ => none

/-- A well-formed instruction. -/
abbrev Instr.WellFormed (c : Cfg) (i : Instr) : Prop := i.illFormed c = none

end Sys2Proof
end

