-- ==== Sys2Proof/Safety.lean ====
section
/-! DEFINITION. What counts as a safe state and a safe run: the invariant of the machine (10_state.md R30, R34, R36; 43_decoder.md R203, R208,
R209), the host's duty to place IN, and the terms claims are stated in. -/

namespace Sys2Proof.Machine

/-- The outcome is a next state. -/
def Proceeds (o : Host.Outcome State Fault Refusal) : Prop := ∃ t, o = .next t

/-- `fsm` is Done or Failed (43_decoder.md R211). -/
def State.Terminal (s : State) : Prop := s.isDone = true ∨ s.isFailed = true

/-- The sum of a counter file. -/
def totalCount (cnt : Counts) : Nat := (cnt.map fun e => e.2.toNat).sum

/-- Every piece of State that is a list is in its canonical form. -/
structure State.Canonical (s : State) : Prop where
  inp   : Memory.wf s.inp
  out   : Memory.wf s.out
  lenLL : Sparse.Formed 0 s.cfg.nll s.lenLL
  lenD  : Sparse.Formed 0 s.cfg.nd s.lenD
  cntLL : Sparse.Formed 0 s.cfg.nll s.cntLL
  cntD  : Sparse.Formed 0 s.cfg.nd s.cntD

/-- What holds in DecodingSymbols and at Done (10_state.md R30, R34, R36; 20_memory.md R73; 41_codetree.md R151). -/
structure State.FrameOk (s : State) : Prop where
  /-- the stream position lies in the payload (R34) -/
  bitPos  : s.bitPos.toNat ≤ 8 * s.bnd.toNat
  /-- no more is emitted than declared (R30) -/
  wp      : s.wp.toNat ≤ s.os.toNat
  /-- the output fits (R70) -/
  fits    : s.os.toNat ≤ s.cfg.outCapacity
  /-- exactly the offsets below `wp` are written (R73) -/
  history : ∀ a, (Assoc.get? s.out a).isSome = true ↔ a < s.wp.toNat
  /-- the installed tables are valid (R151) -/
  treeLL  : validTable s.cfg.maxDepthLL s.lenLL = true
  treeD   : validTable s.cfg.maxDepthD s.lenD = true
  /-- the LL counters count the instructions, the D counters the MATCHes among them (R208) -/
  countLL : totalCount s.cntLL = s.symCount.toNat
  countD  : totalCount s.cntD ≤ s.symCount.toNat
  /-- every instruction has emitted at least one byte (R36) -/
  count   : s.symCount.toNat ≤ s.wp.toNat

/-- The invariant of the machine. -/
structure State.Inv (s : State) : Prop where
  canonical : s.Canonical
  /-- the OUT of an earlier frame is no longer a result (43_decoder.md R201; log 5) -/
  header    : s.fsm = .readingHeader → s.out = []
  frame     : s.fsm = .decodingSymbols ∨ s.fsm = .done → s.FrameOk
  /-- the boundary lies in IN (44_frame_header.md R243) and there is something left to emit (43_decoder.md R203) -/
  decoding  : s.fsm = .decodingSymbols →
    8 + s.bnd.toNat ≤ s.inLen.toNat ∧ s.wp.toNat < s.os.toNat
  /-- at Done everything is emitted (43_decoder.md R209) -/
  finished  : s.fsm = .done → s.wp = s.os

/-- The host's duty 1 (70_reset_and_hazards.md R294): every byte of IN is placed. -/
def State.Placed (s : State) : Prop := ∀ a, a < s.inLen.toNat → (Assoc.get? s.inp a).isSome = true

/-- The rebuild is due after the instruction now executing (43_decoder.md R210). -/
def State.RebuildNext (s : State) : Prop :=
  0 < s.cfg.rebuildPeriod ∧ (s.symCount + 1).toNat % s.cfg.rebuildPeriod = 0

/-- The tail check lets the frame complete (43_decoder.md R209). -/
def State.TailOk (s : State) : Prop := ¬ (s.cfg.tailCheck = .wholeByte ∧ 8 ≤ s.remaining)

/-- The trees a rebuild gives from the given counters are valid (41_codetree.md R151, R156). -/
def State.RebuildsValid (s : State) (cntLL cntD : Counts) : Prop :=
  validTable s.cfg.maxDepthLL (rebuiltLL s.cfg cntLL) = true ∧
    validTable s.cfg.maxDepthD (rebuiltD s.cfg cntD) = true

/-- The trees `t` holds are what a rebuild by `s` from `t`'s counters leaves (41_codetree.md R151, R156; 43_decoder.md R210): the LL tree first, an invalid
table not installed and nothing rebuilt after it. -/
def State.RebuildsInto (s t : State) : Prop :=
  t.lenLL = (if validTable s.cfg.maxDepthLL (rebuiltLL s.cfg t.cntLL) then rebuiltLL s.cfg t.cntLL else s.lenLL) ∧
    t.lenD = (if validTable s.cfg.maxDepthLL (rebuiltLL s.cfg t.cntLL) ∧ validTable s.cfg.maxDepthD (rebuiltD s.cfg t.cntD)
      then rebuiltD s.cfg t.cntD else s.lenD)

/-- Where a LIT or MATCH that emitted `n` bytes ends (43_decoder.md R209, R210; 41_codetree.md R156), from `s`, with its bits read in `u`: at `os` bytes Done or,
by the tail check, LengthMismatch; before that CorruptCodeTree when a rebuild is due and a table of it is invalid, else DecodingSymbols. -/
def State.EndsIn (s u t : State) (n : Nat) : Prop :=
  (s.wp.toNat + n = s.os.toNat → (u.TailOk → t.fsm = .done) ∧ (¬ u.TailOk → t.fsm = .failed .lengthMismatch)) ∧
    (s.wp.toNat + n ≠ s.os.toNat →
      (¬ s.RebuildNext ∨ s.RebuildsValid t.cntLL t.cntD → t.fsm = .decodingSymbols) ∧
        (s.RebuildNext → ¬ s.RebuildsValid t.cntLL t.cntD → t.fsm = .failed .corruptCodeTree))

/-- It is the block's own turn to step, and it steps as `u` would (log 7): no move of the host is pending, or a pass is taken, or the block is BUSY and the
pending move waits (70_reset_and_hazards.md R294). -/
def State.BlockTurn (s u : State) : Prop :=
  s.host = [] ∧ u = s ∨ (∃ rest, s.host = .pass :: rest ∧ u = { s with host := rest }) ∨
    s.busy = true ∧ (∃ m rest, s.host = m :: rest ∧ m ≠ .reset ∧ m ≠ .pass) ∧ u = s

/-- The stream holds the given bits from position `p` on. -/
def StreamHolds (s : State) (p : Nat) (bits : List Bool) : Prop :=
  ∀ k b, bits[k]? = some b → streamBit s (p + k) = .ok b

/-- Two outcomes of a primitive agree in all a run can show: the value and the state, or the error kind, or the fault. -/
def SameResult {α : Type} : Res α → Res α → Prop
  | .ok a s, .ok b t => a = b ∧ s = t
  | .raise e _, .raise f _ => e = f
  | .fault f, .fault g => f = g
  | .ok _ _, .raise _ _ | .ok _ _, .fault _ | .raise _ _, .ok _ _ | .raise _ _, .fault _
  | .fault _, .ok _ _ | .fault _, .raise _ _ => False

/-- `n` steps of the machine; a fault or a refusal ends them. -/
def runSteps (n : Nat) (s : State) : Host.Outcome State Fault Refusal := Sys2Proof.core.run n s

end Sys2Proof.Machine
end

