-- ==== Sys2Proof/Certificates/Slice0/Obligations.lean ====
section
/-! DEFINITION. The statements for the provers: what the rules of spec/ say the block does. -/

open Sys2Proof Sys2Proof.Machine

/-! ## Encoding (30_encoding.md, 41_codetree.md) -/

/-- Words written out from the spec's encodings decode to the instructions they stand for (R101, R106, R246, R38). -/
def Obligations.SampleWordsDecode : Prop :=
  (decode 258 (.header [0x0B, 0x00, 0x00, 0x00, 0x00, 0x01, 0x00, 0x00])).toOption = some (.frameHeader 11 256) ∧
  (decode 258 (.symbol 0x41)).toOption = some (.lit 0x41) ∧
  (decode 258 (.symbol 255)).toOption = some (.lit 255) ∧
  (decode 258 (.symbol 256)).toOption = some (.matchRef 0) ∧
  (decode 258 (.symbol 257)).toOption = some (.matchRef 1) ∧
  (decode 258 (.symbol 258)).toOption = none ∧
  (decode 258 (.ctrl 1)).toOption = some (.start true) ∧
  (decode 258 (.ctrl 0)).toOption = some (.start false)

/-- Every well-formed instruction of a well-formed configuration is what its encoding decodes to (R100, R106, R38). -/
def Obligations.EncodedInstructionDecodes : Prop :=
  ∀ (c : Cfg) (i : Instr), CfgOk c → i.WellFormed c → decode c.nll (encode i) = .ok i

/-- The same of the words of the opcode table: every well-formed instruction is what its table word decodes to (R101,
R113), read in the largest alphabet a configuration may have (log 17). -/
def Obligations.TableWordDecodes : Prop :=
  ∀ (c : Cfg) (i : Instr), CfgOk c → i.WellFormed c → decodeTableWord (tableBits i) (tableWord i) = some i

/-- What decodes is encoded back: eight header bytes, every symbol id, and the two CTRL words whose reserved bits are 0; so no two
of them decode to one instruction. -/
def Obligations.DecodedWordReencodes : Prop :=
  ∀ (n : Nat) (e : Encoded) (i : Instr), decode n e = .ok i →
    (∀ bytes, e = .header bytes → bytes.length = 8) → (∀ w, e = .ctrl w → w = 0 ∨ w = 1) → encode i = e

/-- The canonical codewords of a table (R153): they stand for the table's symbols with its lengths, shorter ones first, equal
lengths in increasing symbol order, each the next number of its length; a valid table's codewords fit their lengths. The order is the one the spec
marks as its own choice (PRESUMED: log 9). -/
def Obligations.CodewordsAreCanonical : Prop :=
  ∀ (n depth : Nat) (t : Lengths), Sparse.Formed 0 n t →
    ((codewords t).map fun c => (c.symbol, c.len)) = t ∧
    (∀ c ∈ codewords t, c.code = firstCode t c.len + t.countP fun e => e.2 = c.len ∧ e.1 < c.symbol) ∧
    (∀ c ∈ codewords t, ∀ d ∈ codewords t, c.len < d.len ∨ c.len = d.len ∧ c.symbol < d.symbol →
      (c.code + 1) * 2 ^ (d.len - c.len) ≤ d.code) ∧
    (validTable depth t = true → ∀ c ∈ codewords t, c.code < 2 ^ c.len)

/-- No codeword of a table is the beginning of another (R153). -/
def Obligations.NoCodewordBeginsAnother : Prop :=
  ∀ (n : Nat) (t : Lengths), Sparse.Formed 0 n t →
    ∀ c ∈ codewords t, ∀ d ∈ codewords t, c ≠ d → c.len ≤ d.len → d.code / 2 ^ (d.len - c.len) ≠ c.code

/-- The tree lookup decodes what the tree spells (R152, R153, R154): where the stream holds the bits that spell a symbol, `decode_one`
answers that symbol and consumes exactly those bits. -/
def Obligations.SpelledSymbolIsDecoded : Prop :=
  ∀ (n depth : Nat) (t : Lengths) (symbol : Nat) (bits : List Bool) (s : State),
    Sparse.Formed 0 n t → validTable depth t = true → spellSymbol t symbol = some bits →
    bits.length ≤ s.remaining → StreamHolds s s.bitPos.toNat bits →
    decodeOne depth t s = .ok symbol (s.advance bits.length)

/-- The four fields of a MATCH are decoded as they are spelled (R105, R107, R206, R207): the LL symbol gives the instruction, and reading its
operands gives length and distance, at every value of the extra bits. -/
def Obligations.SpelledMatchIsDecoded : Prop :=
  ∀ (s : State) (lr dr : ExtraRow) (i lx j dx : Nat) (bits : List Bool),
    CfgOk s.cfg → s.Canonical → validTable s.cfg.maxDepthLL s.lenLL = true → validTable s.cfg.maxDepthD s.lenD = true →
    s.cfg.lens[i]? = some lr → s.cfg.dists[j]? = some dr → lx < 2 ^ lr.extra → dx < 2 ^ dr.extra →
    spellMatch s.cfg s.lenLL s.lenD i lx j dx = some bits → bits.length ≤ s.remaining →
    StreamHolds s s.bitPos.toNat bits →
    ∃ s1, decodeLL s = .ok (256 + i) s1 ∧ decode s.cfg.nll (.symbol (256 + i)) = .ok (.matchRef i) ∧
      readMatchOperands lr (s1.countLL (256 + i)) =
        .ok (lr.base + lx, dr.base + dx) (((s.advance bits.length).countLL (256 + i)).countD j)

/-! ## The BitReader (40_bitreader.md) -/

/-- Stream bit `p` is bit `7 - (p mod 8)` of payload byte `p div 8`, which stands at IN offset `8 + p div 8` (R10, R11). -/
def Obligations.StreamBitIsMostSignificantFirst : Prop :=
  ∀ (s : State) (p : Nat) (b : Byte), 8 + p / 8 < s.inLen.toNat → Assoc.get? s.inp (8 + p / 8) = some b →
    streamBit s p = .ok (b.getLsbD (7 - p % 8))

/-- `read_bits(n)` (R131): TruncatedInput when fewer than `n` bits remain, nothing consumed; else the next `n` bits, the first one read most
significant, `bit_pos` advanced by `n` without wrapping, nothing else written. -/
def Obligations.ReadBitsReturnsNextBits : Prop :=
  ∀ (s : State) (n : Nat) (f : Nat → Bool), 1 ≤ n → n ≤ 32 →
    (8 * s.bnd.toNat < s.bitPos.toNat + n → readBits n s = .raise .truncatedInput s) ∧
    (s.bitPos.toNat + n ≤ 8 * s.bnd.toNat → (∀ k, k < n → streamBit s (s.bitPos.toNat + k) = .ok (f k)) →
      ∃ v t, readBits n s = .ok v t ∧ v < 2 ^ n ∧ (∀ k, k < n → v.testBit (n - 1 - k) = f k) ∧
        t.bitPos.toNat = s.bitPos.toNat + n ∧ t = { s with bitPos := t.bitPos })

/-- `peek_bits(n)` (R133): the value `read_bits(n)` would return without writing `bit_pos`, raising exactly when that raises. -/
def Obligations.PeekBitsReadsWithoutAdvancing : Prop :=
  ∀ (s : State) (n : Nat),
    (∀ v t, readBits n s = .ok v t → peekBits n s = .ok v s) ∧
    (∀ v t, peekBits n s = .ok v t → t = s ∧ ∃ t', readBits n s = .ok v t') ∧
    (∀ e t, peekBits n s = .raise e t ↔ readBits n s = .raise e t)

/-- `read_extra(k)` (R134): 0 without reading for `k = 0`, even with nothing left; else `read_bits(k)`, so a value below `2^k`. -/
def Obligations.ReadExtraReadsOnlyWhenAsked : Prop :=
  ∀ (s : State) (k : Nat),
    readExtra 0 s = .ok 0 s ∧ (1 ≤ k → readExtra k s = readBits k s) ∧
    (∀ v t, readExtra k s = .ok v t → v < 2 ^ k ∧ t = s.advance k)

/-- The reader never reads past the boundary (R136, R243; 93_implementation_defined.md U7): a step of DecodingSymbols does the same whatever
the bytes of IN at offsets `8 + bnd` and above are. -/
def Obligations.TrailingInputIsNeverRead : Prop :=
  ∀ (s : State) (m : Memory), s.fsm = .decodingSymbols → s.host = [] →
    (∀ a, a < 8 + s.bnd.toNat → Assoc.get? m a = Assoc.get? s.inp a) →
    (∀ t, step s = .next t → step { s with inp := m } = .next { t with inp := m }) ∧
    (∀ f, step s = .fault f → step { s with inp := m } = .fault f) ∧
    (∀ r, step s = .refused r → step { s with inp := m } = .refused r)

/-! ## The code trees (41_codetree.md) -/

/-- `validate` (R151): every length at most the depth and the Kraft sum over the present symbols at most 1; a table is installed when it is
valid, else CorruptCodeTree is raised and it is not. The empty table is valid. -/
def Obligations.ValidTablesAreInstalled : Prop :=
  ∀ (n depth : Nat) (t : Lengths) (s : State), Sparse.Formed 0 n t →
    (validTable depth t = true ↔
      (∀ k, k < n → Sparse.get 0 t k ≤ depth) ∧
      ((List.range n).map fun k => if 0 < Sparse.get 0 t k then 2 ^ (depth - Sparse.get 0 t k) else 0).sum ≤
        2 ^ depth) ∧
    validTable depth [] = true ∧
    installLL t s =
      (if validTable s.cfg.maxDepthLL t then .ok () { s with lenLL := t } else .raise .corruptCodeTree s) ∧
    installD t s =
      (if validTable s.cfg.maxDepthD t then .ok () { s with lenD := t } else .raise .corruptCodeTree s)

/-- The degenerate trees (R152): an Empty tree raises CorruptCodeTree with no bit read, a Single tree answers its symbol with no bit
read, whatever its length is. -/
def Obligations.DegenerateTreesReadNothing : Prop :=
  ∀ (depth symbol l : Nat) (s : State),
    decodeOne depth [] s = .raise .corruptCodeTree s ∧ decodeOne depth [(symbol, l)] s = .ok symbol s

/-- `decode_one` answers a symbol of the table, which is in the alphabet (R154, R108). In a Full tree it advances `bit_pos` by exactly the
symbol's length, at most the depth, and in a Single tree by nothing (R152); it writes nothing else. -/
def Obligations.DecodedSymbolLengthIsConsumed : Prop :=
  ∀ (n depth : Nat) (t : Lengths) (s s' : State) (symbol : Nat), Sparse.Formed 0 n t →
    decodeOne depth t s = .ok symbol s' →
    symbol < n ∧ 0 < Sparse.get 0 t symbol ∧
      (2 ≤ t.length → Sparse.get 0 t symbol ≤ depth ∧
        s.bitPos.toNat + Sparse.get 0 t symbol ≤ 8 * s.bnd.toNat ∧ s' = s.advance (Sparse.get 0 t symbol)) ∧
      (t.length = 1 → s' = s)

/-- When a descent raises (R154, R268): CorruptCodeTree after exactly `MAXDEPTH` bits with no codeword, TruncatedInput when the payload ends
before that. -/
def Obligations.DescentErrorsByDepth : Prop :=
  ∀ (depth : Nat) (t : Lengths) (s s' : State) (e : ErrorKind), 2 ≤ t.length → decodeOne depth t s = .raise e s' →
    (e = .corruptCodeTree ∧ depth ≤ s.remaining ∧ s' = s.advance depth) ∨
    (e = .truncatedInput ∧ s.remaining < depth ∧ s' = s.advance s.remaining)

/-- A complete code never raises CorruptCodeTree from the descent (R154). -/
def Obligations.CompleteCodeNeverCorrupt : Prop :=
  ∀ (n depth : Nat) (t : Lengths) (s s' : State), Sparse.Formed 0 n t → 2 ≤ t.length → validTable depth t = true →
    kraftSum depth t = 2 ^ depth → decodeOne depth t s ≠ .raise .corruptCodeTree s'

/-- A decoder by lookahead that never looks past the payload gives the same symbol, bits consumed and error as the bit-by-bit
descent (R157, R133, R299); the decoder is one the model chose among those R157 allows (log 18). -/
def Obligations.LookaheadDecodesAlike : Prop :=
  ∀ (n depth : Nat) (t : Lengths) (s : State), Sparse.Formed 0 n t → validTable depth t = true →
    (∀ p, p < 8 * s.bnd.toNat → ∃ b, streamBit s p = .ok b) →
    SameResult (lookaheadOne depth t s) (decodeOne depth t s)

/-- The rebuild cadence (R210, R156): when an instruction that does not complete the frame has been counted, both trees are rebuilt, each from
its own counters, the LL tree first, exactly when the count is a multiple of a non-zero period; an invalid table raises CorruptCodeTree;
the counters stay. -/
def Obligations.RebuildFollowsCadence : Prop :=
  ∀ (s : State), s.wp ≠ s.os →
    completeOrRebuild s =
      if 0 < s.cfg.rebuildPeriod ∧ s.symCount.toNat % s.cfg.rebuildPeriod = 0 then
        if validTable s.cfg.maxDepthLL (rebuiltLL s.cfg s.cntLL) then
          if validTable s.cfg.maxDepthD (rebuiltD s.cfg s.cntD) then
            .ok () { s with lenLL := rebuiltLL s.cfg s.cntLL, lenD := rebuiltD s.cfg s.cntD }
          else .raise .corruptCodeTree { s with lenLL := rebuiltLL s.cfg s.cntLL }
        else .raise .corruptCodeTree s
      else .ok () s

/-- The two trees share no state (R158): an LL decode does the same whatever the D tree's table and counters are, and leaves them, whether it answers a
symbol, raises or faults; and the other way round. -/
def Obligations.TreesShareNoState : Prop :=
  ∀ (s : State) (l : Lengths) (c : Counts),
    (∀ symbol t, decodeLL s = .ok symbol t → t.lenD = s.lenD ∧ t.cntD = s.cntD ∧
      decodeLL { s with lenD := l, cntD := c } = .ok symbol { t with lenD := l, cntD := c }) ∧
    (∀ e t, decodeLL s = .raise e t → t.lenD = s.lenD ∧ t.cntD = s.cntD ∧
      decodeLL { s with lenD := l, cntD := c } = .raise e { t with lenD := l, cntD := c }) ∧
    (∀ f, decodeLL s = .fault f → decodeLL { s with lenD := l, cntD := c } = .fault f) ∧
    (∀ symbol t, decodeD s = .ok symbol t → t.lenLL = s.lenLL ∧ t.cntLL = s.cntLL ∧
      decodeD { s with lenLL := l, cntLL := c } = .ok symbol { t with lenLL := l, cntLL := c }) ∧
    (∀ e t, decodeD s = .raise e t → t.lenLL = s.lenLL ∧ t.cntLL = s.cntLL ∧
      decodeD { s with lenLL := l, cntLL := c } = .raise e { t with lenLL := l, cntLL := c }) ∧
    (∀ f, decodeD s = .fault f → decodeD { s with lenLL := l, cntLL := c } = .fault f)

/-! ## The dictionary and the copy unit (42_dictionary.md) -/

/-- `emit_literal(b)` (R181): one byte at `wp`, `wp` one higher without wrapping, nothing else written. -/
def Obligations.EmitLiteralAppends : Prop :=
  ∀ (b : Byte) (s : State), s.wp.toNat < s.os.toNat →
    ∃ t, emitLiteral b s = .ok () t ∧ (∀ a, Assoc.get? t.out a = if a = s.wp.toNat then some b else Assoc.get? s.out a) ∧
      t.wp.toNat = s.wp.toNat + 1 ∧ t = { s with out := t.out, wp := t.wp }

/-- `copy_back` makes both checks before any byte is copied (R182, R264): a distance of 0 or beyond what is emitted, or a length beyond what
is left, raises InvalidBackReference with nothing written; and it raises nothing else. -/
def Obligations.CopyBackChecksFirst : Prop :=
  ∀ (distance length : Nat) (s s' : State) (e : ErrorKind),
    copyBack distance length s = .raise e s' ↔
      (distance = 0 ∨ s.wp.toNat < distance ∨ s.os.toNat - s.wp.toNat < length) ∧
        e = .invalidBackReference ∧ s' = s

/-- A copy that passes its checks goes through, with the closed form of R183: byte `k` of the copy is byte `k mod distance` of the history
it starts in, overlapping or not; `wp` moves by the length; no other byte and nothing else is written (R182). -/
def Obligations.CopyBackRepeatsHistory : Prop :=
  ∀ (distance length : Nat) (s : State), 1 ≤ distance → distance ≤ s.wp.toNat → s.wp.toNat + length ≤ s.os.toNat →
    (∀ a, a < s.wp.toNat → (Assoc.get? s.out a).isSome = true) →
    ∃ t, copyBack distance length s = .ok () t ∧ t.wp.toNat = s.wp.toNat + length ∧
      (∀ k, k < length →
        Assoc.get? t.out (s.wp.toNat + k) = Assoc.get? s.out (s.wp.toNat - distance + k % distance)) ∧
      (∀ a, a < s.wp.toNat ∨ s.wp.toNat + length ≤ a → Assoc.get? t.out a = Assoc.get? s.out a) ∧
      t = { s with out := t.out, wp := t.wp }

/-- A copy unit over a circular window is indistinguishable from the one that reads OUT back, while the window mirrors OUT's tail and the
distance is at most its size; and the window goes on mirroring it (R184); the window stands beside the machine,
the model's choice of one (log 18). -/
def Obligations.WindowCopyMatchesOutput : Prop :=
  ∀ (size distance length : Nat) (win : Memory) (s : State), WindowMirrors size win s → distance ≤ size →
    s.wp.toNat ≤ s.os.toNat → (∀ a, a < s.wp.toNat → (Assoc.get? s.out a).isSome = true) →
    (∀ win' t, windowCopyBack size distance length win s = .ok win' t →
      copyBack distance length s = .ok () t ∧ WindowMirrors size win' t) ∧
    (∀ t, copyBack distance length s = .ok () t → ∃ win', windowCopyBack size distance length win s = .ok win' t) ∧
    (∀ e t, windowCopyBack size distance length win s = .raise e t ↔ copyBack distance length s = .raise e t)

/-! ## START (43_decoder.md R201) -/

/-- START while not BUSY begins a frame (R201): ReadingHeader, BUSY, no error code. IN_LEN stays, being one storage with `in_len` (log 20), and so do
IN, the configuration and the host's later moves (the model's host: log 7). What becomes unspecified is not stated. -/
def Obligations.StartBeginsAFrame : Prop :=
  ∀ (s : State), s.busy = false →
    ∃ t, exec (.start true) s = .next t ∧ t.fsm = .readingHeader ∧ t.busy = true ∧ t.isDone = false ∧
      t.isFailed = false ∧ t.statusWord = 1 ∧ t.inLen = s.inLen ∧ t.inp = s.inp ∧ t.cfg = s.cfg ∧ t.host = s.host

/-- A CTRL write with the START bit 0 has no effect, and START while BUSY, which is no move of the host, is refused (R39; logs 14, 7). -/
def Obligations.StartOtherwiseDoesNothing : Prop :=
  ∀ (s : State), exec (.start false) s = .next s ∧
    (s.busy = true → exec (.start true) s = .refused .startWhileBusy)

/-! ## FRAME_HEADER (44_frame_header.md) -/

/-- A header that passes every check (R240, R243, R244, R246): the fields, the boundary `min(cs, in_len - 8)`, positions and counters cleared, both
initial trees installed, then DecodingSymbols, or Done for an empty frame; nothing else changes. -/
def Obligations.HeaderStepCompletes : Prop :=
  ∀ (cs os : U32) (s : State), s.fsm = .readingHeader → 8 ≤ s.inLen.toNat → os.toNat ≤ s.cfg.outCapacity →
    validTable s.cfg.maxDepthLL s.cfg.initLL = true → validTable s.cfg.maxDepthD s.cfg.initD = true →
    (os = 0 → ¬ (s.cfg.tailCheck = .wholeByte ∧ 1 ≤ min cs.toNat (s.inLen.toNat - 8))) →
    ∃ t, exec (.frameHeader cs os) s = .next t ∧ t.bnd.toNat = min cs.toNat (s.inLen.toNat - 8) ∧
      t = { s with
        cs := cs, os := os, bnd := t.bnd, bitPos := 0, wp := 0, symCount := 0, cntLL := [], cntD := []
        lenLL := s.cfg.initLL, lenD := s.cfg.initD
        fsm := if os = 0 then .done else .decodingSymbols }

/-- The header step's checks in their order (R240, R241, R242, R245, R268): TruncatedHeader, OutOfMemory, the LL table, the D table, and for an
empty frame under WholeByte the tail check; where none applies it ends in DecodingSymbols or Done. -/
def Obligations.HeaderChecksInOrder : Prop :=
  ∀ (cs os : U32) (s : State), s.fsm = .readingHeader →
    ∃ t, exec (.frameHeader cs os) s = .next t ∧ t.fsm =
      if s.inLen.toNat < 8 then .failed .truncatedHeader
      else if s.cfg.outCapacity < os.toNat then .failed .outOfMemory
      else if validTable s.cfg.maxDepthLL s.cfg.initLL = false then .failed .corruptCodeTree
      else if validTable s.cfg.maxDepthD s.cfg.initD = false then .failed .corruptCodeTree
      else if os ≠ 0 then .decodingSymbols
      else if s.cfg.tailCheck = .wholeByte ∧ 8 ≤ 8 * min cs.toNat (s.inLen.toNat - 8) then .failed .lengthMismatch
      else .done

/-- The frame of FRAME_HEADER (R240, R241, R242, R72, R266): whatever next state it ends in, the configuration, IN, IN_LEN, every byte of OUT and the host's
moves are unchanged; when it fails before any tree is installed, TruncatedHeader or OutOfMemory, so are the tables and the counters, and at the first of the
two the boundary; after both checks every counter is 0, each table is the initial one if it was installed and unchanged if it was not, the LL table first. -/
def Obligations.HeaderFrame : Prop :=
  ∀ (cs os : U32) (s t : State), exec (.frameHeader cs os) s = .next t →
    t.cfg = s.cfg ∧ t.inp = s.inp ∧ t.inLen = s.inLen ∧ t.out = s.out ∧ t.host = s.host ∧
    (s.inLen.toNat < 8 → t.bnd = s.bnd) ∧
    (8 ≤ s.inLen.toNat → t.bnd.toNat = min cs.toNat (s.inLen.toNat - 8)) ∧
    (s.inLen.toNat < 8 ∨ s.cfg.outCapacity < os.toNat →
      t.lenLL = s.lenLL ∧ t.lenD = s.lenD ∧ t.cntLL = s.cntLL ∧ t.cntD = s.cntD ∧ t.symCount = s.symCount) ∧
    (8 ≤ s.inLen.toNat → os.toNat ≤ s.cfg.outCapacity →
      t.cntLL = [] ∧ t.cntD = [] ∧ t.symCount = 0 ∧
      t.lenLL = (if validTable s.cfg.maxDepthLL s.cfg.initLL then s.cfg.initLL else s.lenLL) ∧
      t.lenD = (if validTable s.cfg.maxDepthLL s.cfg.initLL ∧ validTable s.cfg.maxDepthD s.cfg.initD then s.cfg.initD
        else s.lenD)) ∧
    (t.isFailed = false → t.fresh = s.fresh)

/-- TruncatedHeader is raised by a step exactly in ReadingHeader with fewer than eight bytes of input (R245, R261). -/
def Obligations.TruncatedHeaderExactly : Prop :=
  ∀ (s t : State), s.host = [] → s.fsm ≠ .failed .truncatedHeader → step s = .next t →
    (t.fsm = .failed .truncatedHeader ↔ s.fsm = .readingHeader ∧ s.inLen.toNat < 8)

/-- The header's bytes are read little-endian from IN 0..7 (R246, R75): the step of ReadingHeader runs FRAME_HEADER on these values. -/
def Obligations.HeaderFieldsAreLittleEndian : Prop :=
  ∀ (s : State) (b0 b1 b2 b3 b4 b5 b6 b7 : Byte), CfgOk s.cfg → s.fsm = .readingHeader → s.host = [] →
    8 ≤ s.inLen.toNat →
    (∀ k b, [b0, b1, b2, b3, b4, b5, b6, b7][k]? = some b → Assoc.get? s.inp k = some b) →
    ∃ cs os : U32, step s = exec (.frameHeader cs os) s ∧
      cs.toNat = b0.toNat + 256 * b1.toNat + 65536 * b2.toNat + 16777216 * b3.toNat ∧
      os.toNat = b4.toNat + 256 * b5.toNat + 65536 * b6.toNat + 16777216 * b7.toNat

/-- No value survives from one frame to the next (R32, R292): from ReadingHeader, two states with the same configuration, input and OUT take
the same step, whatever the earlier frame left in every other element. -/
def Obligations.HeaderStepForgetsThePast : Prop :=
  ∀ (s1 s2 t1 t2 : State), s1.fsm = .readingHeader → s2.fsm = .readingHeader → s1.cfg = s2.cfg → s1.inp = s2.inp →
    s1.inLen = s2.inLen → s1.out = s2.out → s1.host = [] → s2.host = [] →
    step s1 = .next t1 → step s2 = .next t2 →
    t1.fsm = t2.fsm ∧ (t1.isFailed = false → t1 = { t2 with fresh := t1.fresh })

/-! ## LIT (43_decoder.md R204) -/

/-- LIT (R204, R203, R208, R209, R210): its byte is emitted at `wp`, its symbol and the instruction are counted; the frame is Done when `os` bytes are
emitted, else the trees are rebuilt when due; nothing else changes. -/
def Obligations.LitEmitsItsByte : Prop :=
  ∀ (b : Byte) (s : State), s.fsm = .decodingSymbols → s.wp.toNat < s.os.toNat → Assoc.Sorted s.cntLL →
    (s.wp.toNat + 1 = s.os.toNat → s.TailOk) →
    (s.wp.toNat + 1 ≠ s.os.toNat → s.RebuildNext → s.RebuildsValid (bump s.cntLL b.toNat) s.cntD) →
    ∃ t, exec (.lit b) s = .next t ∧
      (∀ a, Assoc.get? t.out a = if a = s.wp.toNat then some b else Assoc.get? s.out a) ∧
      t.wp.toNat = s.wp.toNat + 1 ∧
      (∀ k, Sparse.get 0 t.cntLL k = if k = b.toNat then Sparse.get 0 s.cntLL k + 1 else Sparse.get 0 s.cntLL k) ∧
      t.symCount = s.symCount + 1 ∧
      t.fsm = (if s.wp.toNat + 1 = s.os.toNat then .done else .decodingSymbols) ∧
      (s.wp.toNat + 1 = s.os.toNat ∨ ¬ s.RebuildNext → t.lenLL = s.lenLL ∧ t.lenD = s.lenD) ∧
      (s.wp.toNat + 1 ≠ s.os.toNat → s.RebuildNext →
        t.lenLL = rebuiltLL s.cfg t.cntLL ∧ t.lenD = rebuiltD s.cfg s.cntD) ∧
      t = { s with
        out := t.out, wp := t.wp, cntLL := t.cntLL, symCount := t.symCount, fsm := t.fsm
        lenLL := t.lenLL, lenD := t.lenD }

/-- The frame of LIT (R204, R208, R209, R210, R72, R266): in DecodingSymbols with `wp < os` it always has a next state. In every next state it is Done,
DecodingSymbols, Failed(LengthMismatch) by the tail check or Failed(CorruptCodeTree) by an invalid rebuild; every byte of OUT but the one at `wp` reads as
before, and so do the configuration, IN, IN_LEN, the boundary, the D counters and the host's moves; of the LL counters its own alone is one higher, and so is
`sym_count`; unless it fails, the size fields and `bit_pos` are unchanged too; the trees are unchanged unless a rebuild is due before the frame is
complete, and then are what that rebuild leaves, an invalid table not installed. -/
def Obligations.LitFrame : Prop :=
  ∀ (b : Byte) (s : State), Assoc.Sorted s.cntLL →
    (s.fsm = .decodingSymbols → s.wp.toNat < s.os.toNat → ∃ t, exec (.lit b) s = .next t) ∧
    ∀ t, exec (.lit b) s = .next t →
      s.EndsIn s t 1 ∧
      (∀ a, a ≠ s.wp.toNat → Assoc.get? t.out a = Assoc.get? s.out a) ∧
      t.cfg = s.cfg ∧ t.inp = s.inp ∧ t.inLen = s.inLen ∧ t.bnd = s.bnd ∧ t.cntD = s.cntD ∧ t.host = s.host ∧
      (∀ k, Sparse.get 0 t.cntLL k = if k = b.toNat then Sparse.get 0 s.cntLL k + 1 else Sparse.get 0 s.cntLL k) ∧
      t.symCount = s.symCount + 1 ∧
      (t.isFailed = false → t.cs = s.cs ∧ t.os = s.os ∧ t.bitPos = s.bitPos ∧ t.fresh = s.fresh) ∧
      (s.wp.toNat + 1 = s.os.toNat ∨ ¬ s.RebuildNext → t.lenLL = s.lenLL ∧ t.lenD = s.lenD) ∧
      (s.wp.toNat + 1 ≠ s.os.toNat → s.RebuildNext → s.RebuildsInto t)

/-! ## MATCH (43_decoder.md R205) -/

/-- MATCH (R205, R203, R206, R207, R208, R209, R210): where its operands can be read and pass the copy's checks, the history is repeated at `wp` with the closed form of
R183, its symbols and the instruction are counted; the frame is Done when `os` bytes are emitted, else the trees are rebuilt when due;
nothing else changes. -/
def Obligations.MatchCopiesHistory : Prop :=
  ∀ (i length distance : Nat) (row : ExtraRow) (s s1 : State), s.fsm = .decodingSymbols → Assoc.Sorted s.cntLL →
    s.cfg.lens[i]? = some row → readMatchOperands row (s.countLL (256 + i)) = .ok (length, distance) s1 →
    1 ≤ distance → distance ≤ s.wp.toNat → 1 ≤ length → s.wp.toNat + length ≤ s.os.toNat →
    (∀ a, a < s.wp.toNat → (Assoc.get? s.out a).isSome = true) →
    (s.wp.toNat + length = s.os.toNat → s1.TailOk) →
    (s.wp.toNat + length ≠ s.os.toNat → s.RebuildNext → s.RebuildsValid s1.cntLL s1.cntD) →
    ∃ t, exec (.matchRef i) s = .next t ∧
      (∀ k, k < length →
        Assoc.get? t.out (s.wp.toNat + k) = Assoc.get? s.out (s.wp.toNat - distance + k % distance)) ∧
      (∀ a, a < s.wp.toNat ∨ s.wp.toNat + length ≤ a → Assoc.get? t.out a = Assoc.get? s.out a) ∧
      t.wp.toNat = s.wp.toNat + length ∧ t.bitPos = s1.bitPos ∧ t.cntD = s1.cntD ∧
      (∀ k, Sparse.get 0 t.cntLL k = if k = 256 + i then Sparse.get 0 s.cntLL k + 1 else Sparse.get 0 s.cntLL k) ∧
      t.symCount = s.symCount + 1 ∧
      t.fsm = (if s.wp.toNat + length = s.os.toNat then .done else .decodingSymbols) ∧
      (s.wp.toNat + length = s.os.toNat ∨ ¬ s.RebuildNext → t.lenLL = s.lenLL ∧ t.lenD = s.lenD) ∧
      (s.wp.toNat + length ≠ s.os.toNat → s.RebuildNext →
        t.lenLL = rebuiltLL s.cfg t.cntLL ∧ t.lenD = rebuiltD s.cfg t.cntD) ∧
      t = { s with
        out := t.out, wp := t.wp, bitPos := t.bitPos, cntLL := t.cntLL, cntD := t.cntD, symCount := t.symCount
        fsm := t.fsm, lenLL := t.lenLL, lenD := t.lenD }

/-- MATCH fails in its order (R205, R264, R268): an error while its operands are read is that error; operands that were read but break a check of
the copy are InvalidBackReference, the distance beyond the history also for a first instruction; in both cases nothing is written to OUT. -/
def Obligations.MatchFailsBeforeWriting : Prop :=
  ∀ (i : Nat) (row : ExtraRow) (s : State), s.fsm = .decodingSymbols → s.cfg.lens[i]? = some row →
    (∀ e s1, readMatchOperands row (s.countLL (256 + i)) = .raise e s1 →
      ∃ t, exec (.matchRef i) s = .next t ∧ t.fsm = .failed e ∧ t.out = s.out) ∧
    (∀ length distance s1, readMatchOperands row (s.countLL (256 + i)) = .ok (length, distance) s1 →
      distance = 0 ∨ s.wp.toNat < distance ∨ s.os.toNat - s.wp.toNat < length →
      ∃ t, exec (.matchRef i) s = .next t ∧ t.fsm = .failed .invalidBackReference ∧ t.out = s.out)

/-- Every length and distance a MATCH computes lies in the range of its row (R8, R206, R207), from the row's base to `BASE + 2^EXTRA - 1`: the length in that of
its length row, the distance in that of the decoded distance symbol's; so both lie between the least and the greatest of the configuration, are at least 1, and
fit 32 bits. -/
def Obligations.MatchOperandsAreInRange : Prop :=
  ∀ (i length distance : Nat) (row : ExtraRow) (s s1 : State), CfgOk s.cfg → s.cfg.lens[i]? = some row →
    readMatchOperands row s = .ok (length, distance) s1 →
    row.base ≤ length ∧ length ≤ row.base + 2 ^ row.extra - 1 ∧ minLen s.cfg ≤ length ∧ length ≤ maxLen s.cfg ∧
      1 ≤ length ∧ length ≤ 2 ^ 32 - 1 ∧
      (∃ s2 j s3 drow, readValue row s = .ok length s2 ∧ decodeD s2 = .ok j s3 ∧ s.cfg.dists[j]? = some drow ∧
        drow.base ≤ distance ∧ distance ≤ drow.base + 2 ^ drow.extra - 1) ∧
      minDist s.cfg ≤ distance ∧ distance ≤ maxDist s.cfg ∧ 1 ≤ distance ∧ distance ≤ 2 ^ 32 - 1

/-- The frame of MATCH (R205, R208, R209, R210, R72, R266), in every next state, completed, continued or failed.
The bytes of OUT outside the copied ones, `wp .. wp + length - 1` with the length its own operands give, read as before, all of them when the operands cannot
be read or fail a check; the configuration, IN, IN_LEN, the boundary and the host's moves are unchanged; of the LL counters its own alone is one higher, of the
D counters the decoded symbol's alone, none where no distance symbol is decoded; unless it fails, the size fields are unchanged too.
When the operands cannot be read or fail a check, `sym_count` and the trees are unchanged; else `sym_count` is one higher and the trees are unchanged unless a
rebuild is due before the frame is complete, and then are what that rebuild leaves, an invalid table not installed. A copy that passes its checks always has a
next state: Done, DecodingSymbols, Failed(LengthMismatch) by the tail check or Failed(CorruptCodeTree) by an invalid rebuild. -/
def Obligations.MatchFrame : Prop :=
  ∀ (i : Nat) (row : ExtraRow) (s : State), Assoc.Sorted s.cntLL → Assoc.Sorted s.cntD → s.wp.toNat ≤ s.os.toNat →
    s.cfg.lens[i]? = some row →
    (∀ length distance s1, s.fsm = .decodingSymbols →
      readMatchOperands row (s.countLL (256 + i)) = .ok (length, distance) s1 →
      1 ≤ distance → distance ≤ s.wp.toNat → s.wp.toNat + length ≤ s.os.toNat →
      (∀ a, a < s.wp.toNat → (Assoc.get? s.out a).isSome = true) → ∃ t, exec (.matchRef i) s = .next t) ∧
    ∀ t, exec (.matchRef i) s = .next t →
      t.cfg = s.cfg ∧ t.inp = s.inp ∧ t.inLen = s.inLen ∧ t.bnd = s.bnd ∧ t.host = s.host ∧
      (t.isFailed = false → t.cs = s.cs ∧ t.os = s.os ∧ t.fresh = s.fresh) ∧
      (∀ k, Sparse.get 0 t.cntLL k = if k = 256 + i then Sparse.get 0 s.cntLL k + 1 else Sparse.get 0 s.cntLL k) ∧
      (∀ e s1, readValue row (s.countLL (256 + i)) = .raise e s1 → t.cntD = s.cntD) ∧
      (∀ length s1, readValue row (s.countLL (256 + i)) = .ok length s1 →
        (∀ e s2, decodeD s1 = .raise e s2 → t.cntD = s.cntD) ∧
        (∀ j s2, decodeD s1 = .ok j s2 → ∀ k,
          Sparse.get 0 t.cntD k = if k = j then Sparse.get 0 s.cntD k + 1 else Sparse.get 0 s.cntD k)) ∧
      (∀ e s1, readMatchOperands row (s.countLL (256 + i)) = .raise e s1 →
        t.out = s.out ∧ t.symCount = s.symCount ∧ t.lenLL = s.lenLL ∧ t.lenD = s.lenD) ∧
      (∀ length distance s1, readMatchOperands row (s.countLL (256 + i)) = .ok (length, distance) s1 →
        (∀ a, a < s.wp.toNat ∨ s.wp.toNat + length ≤ a → Assoc.get? t.out a = Assoc.get? s.out a) ∧
        (distance = 0 ∨ s.wp.toNat < distance ∨ s.os.toNat - s.wp.toNat < length →
          t.out = s.out ∧ t.symCount = s.symCount ∧ t.lenLL = s.lenLL ∧ t.lenD = s.lenD) ∧
        (1 ≤ distance → distance ≤ s.wp.toNat → s.wp.toNat + length ≤ s.os.toNat →
          s.EndsIn s1 t length ∧ t.symCount = s.symCount + 1 ∧
          (s.wp.toNat + length = s.os.toNat ∨ ¬ s.RebuildNext → t.lenLL = s.lenLL ∧ t.lenD = s.lenD) ∧
          (s.wp.toNat + length ≠ s.os.toNat → s.RebuildNext → s.RebuildsInto t)))

/-! ## Completion, failure, status (43_decoder.md R209; 60_exceptions.md; 10_state.md R38) -/

/-- Completion (R209): at `wp = os` the frame is Done, unless WholeByte finds 8 or more payload bits unread, which is LengthMismatch; before
that the rebuild cadence is applied. -/
def Obligations.CompletionAtDeclaredSize : Prop :=
  ∀ (s : State),
    completeOrRebuild s =
      if s.wp = s.os then
        if s.cfg.tailCheck = .wholeByte ∧ 8 ≤ 8 * s.bnd.toNat - s.bitPos.toNat then .raise .lengthMismatch s
        else .ok () { s with fsm := .done }
      else rebuildIfDue s

/-- Failure entry (R266): a raise is a next state, in Failed with its kind; the writes made before it remain, CSIZE, OSIZE, EMITTED and BITPOS
excepted, of which nothing is said. -/
def Obligations.RaiseEntersFailed : Prop :=
  ∀ (e : ErrorKind) (s : State),
    ∃ t, (Res.raise e s : Res Unit).finish = .next t ∧ t.fsm = .failed e ∧ stateField t.fsm = 4 ∧
      errField t.fsm = errorCode e ∧
      t = { s with fsm := t.fsm, cs := t.cs, os := t.os, wp := t.wp, bitPos := t.bitPos, fresh := t.fresh }

/-- STATUS (R38, R260): bits 2:0 are STATE, bits 6:4 are ERR, every other bit reads 0; STATE is 0 Idle, 1 ReadingHeader, 2 DecodingSymbols, 3 Done, 4 Failed;
ERR is 0 exactly when STATE is not Failed, else the code of the error kind, 1 to 6 in the order of R260; BUSY, DONE and FAILED are what `fsm` says (R35). -/
def Obligations.StatusReportsState : Prop :=
  (stateField .idle = 0 ∧ stateField .readingHeader = 1 ∧ stateField .decodingSymbols = 2 ∧ stateField .done = 3 ∧
    ∀ e, stateField (.failed e) = 4) ∧
  (errorCode .truncatedHeader = 1 ∧ errorCode .truncatedInput = 2 ∧ errorCode .corruptCodeTree = 3 ∧
    errorCode .invalidBackReference = 4 ∧ errorCode .lengthMismatch = 5 ∧ errorCode .outOfMemory = 6) ∧
  ∀ (s : State),
    s.statusWord.toNat % 8 = stateField s.fsm ∧ s.statusWord.toNat / 16 = errField s.fsm ∧
    s.statusWord.getLsbD 3 = false ∧ s.statusWord.toNat < 128 ∧
    (∀ e, s.fsm = .failed e → errField s.fsm = errorCode e) ∧ (errField s.fsm = 0 ↔ stateField s.fsm ≠ 4) ∧
    (s.busy = true ↔ s.fsm = .readingHeader ∨ s.fsm = .decodingSymbols) ∧ (s.isDone = true ↔ s.fsm = .done) ∧
    (s.isFailed = true ↔ ∃ e, s.fsm = .failed e)

/-- The other registers (R38, R39): CTRL reads 0 and each of the others what it views, zero-extended (log 23); IN_LEN is written while not BUSY, and a write
is ignored while BUSY; a read-only register ignores writes. While not BUSY a step takes the host's pending write of such a register, with that effect and no
other (log 7). A write of CTRL is the START instruction and no register write (log 23; StepRunsDecodedInstruction). -/
def Obligations.RegisterViewReadsAndWrites : Prop :=
  ∀ (s : State) (v : U32),
    readReg s .ctrl = 0 ∧ (readReg s .status).toNat = s.statusWord.toNat ∧ (readReg s .inLen).toNat = s.inLen.toNat ∧
    (readReg s .csize).toNat = s.cs.toNat ∧ (readReg s .osize).toNat = s.os.toNat ∧
    (readReg s .emitted).toNat = s.wp.toNat ∧ (readReg s .bitpos).toNat = s.bitPos.toNat ∧
    (s.busy = false → writeReg .inLen v s = { s with inLen := v }) ∧ (s.busy = true → writeReg .inLen v s = s) ∧
    (∀ r, r ≠ .inLen → r ≠ .ctrl → writeReg r v s = s) ∧
    (∀ rest, CfgOk s.cfg → s.busy = false → s.host = .write .inLen v :: rest →
      step s = .next { s with inLen := v, host := rest }) ∧
    (∀ r rest, r ≠ .inLen → r ≠ .ctrl → CfgOk s.cfg → s.busy = false → s.host = .write r v :: rest →
      step s = .next { s with host := rest })

/-- Which step raises which error (R260, R265, R267): only the header step and the symbol step fail; TruncatedHeader and OutOfMemory come from the header step
alone, TruncatedInput and InvalidBackReference from the symbol step alone, LengthMismatch only under WholeByte. -/
def Obligations.ErrorKindsByStep : Prop :=
  ∀ (s t : State) (e : ErrorKind), step s = .next t → t.fsm = .failed e → s.fsm ≠ .failed e →
    (s.fsm = .readingHeader ∧
      (e = .truncatedHeader ∨ e = .outOfMemory ∨ e = .corruptCodeTree ∨ e = .lengthMismatch) ∨
     s.fsm = .decodingSymbols ∧
      (e = .truncatedInput ∨ e = .corruptCodeTree ∨ e = .invalidBackReference ∨ e = .lengthMismatch)) ∧
    (e = .lengthMismatch → s.cfg.tailCheck = .wholeByte)

/-- An instruction in a state of `fsm` that has no such step is refused, and so is every step of an ill-formed configuration (R7, R200, R293; log 10). -/
def Obligations.NoStepIsRefused : Prop :=
  ∀ (s : State) (cs os : U32) (b : Byte) (i : Nat),
    (s.fsm ≠ .readingHeader → exec (.frameHeader cs os) s = .refused .noStepInThisState) ∧
    (s.fsm ≠ .decodingSymbols → exec (.lit b) s = .refused .noStepInThisState ∧
      exec (.matchRef i) s = .refused .noStepInThisState) ∧
    (∀ r, violated s.cfg = some r → step s = .refused (.illFormedConfiguration r))

/-! ## The whole machine -/

/-- A step runs the decoded instruction (R200, R203, R240, R201). Where it is the block's turn (log 7): in ReadingHeader it runs what the first eight bytes of IN
decode to, in the state as it is, and with fewer than eight bytes fails with TruncatedHeader (R245); in DecodingSymbols what the decoded LL symbol decodes to, in
the state with `bit_pos` moved past the codeword (log 10), and where that decode raises it fails with the error raised, OUT and everything else R266 keeps as it
was (R203, R268). For a CTRL write of the host while not BUSY it runs the START instruction, in the state without that move (log 7). -/
def Obligations.StepRunsDecodedInstruction : Prop :=
  ∀ (s : State), CfgOk s.cfg →
    (∀ u, s.BlockTurn u → s.fsm = .readingHeader →
      (∀ bytes i, 8 ≤ s.inLen.toNat → readInBytes s 0 8 = .ok bytes → decode s.cfg.nll (.header bytes) = .ok i →
        step s = exec i u) ∧
      (s.inLen.toNat < 8 → ∃ t, step s = .next t ∧ t.fsm = .failed .truncatedHeader ∧
        t = { u with fsm := t.fsm, cs := t.cs, os := t.os, wp := t.wp, bitPos := t.bitPos, fresh := t.fresh })) ∧
    (∀ u, s.BlockTurn u → s.fsm = .decodingSymbols →
      (∀ symbol s' i, decodeLL u = .ok symbol s' → decode s.cfg.nll (.symbol symbol) = .ok i → step s = exec i s') ∧
      (∀ e s', decodeLL u = .raise e s' → ∃ t, step s = .next t ∧ t.fsm = .failed e ∧
        t = { u with fsm := t.fsm, cs := t.cs, os := t.os, wp := t.wp, bitPos := t.bitPos, fresh := t.fresh })) ∧
    (∀ v rest, s.host = .write .ctrl v :: rest → s.busy = false →
      step s = exec (.start (v.getLsbD 0)) { s with host := rest })

/-- Idle, Done and Failed have no step (R211, R212): with no move of the host pending, or after a pass, they stay as they are, the model's step answering the
same state (log 8). -/
def Obligations.TerminalStatesWait : Prop :=
  ∀ (s u : State), CfgOk s.cfg → s.busy = false → s.BlockTurn u → step s = .next u

/-- Idle, Done and Failed are left only by START or a reset (R211, R212, R270). -/
def Obligations.TerminalStatesLeftByStartOrReset : Prop :=
  ∀ (s t : State), s.busy = false → step s = .next t → t.fsm ≠ s.fsm →
    ∃ rest, s.host = .reset :: rest ∨ ∃ v : U32, s.host = .write .ctrl v :: rest ∧ v.getLsbD 0 = true

/-- The configuration never changes, and IN changes only where the host places a frame while the block is not BUSY (R31, R72): then the step puts exactly the
bytes of the frame in IN, from offset 0, and changes nothing else (R294 duty 1). Both are in State, and the host's moves are data of it, by the model's choice
(logs 2 and 7). -/
def Obligations.StepKeepsConfigurationAndInput : Prop :=
  ∀ (s : State),
    (∀ t, step s = .next t → t.cfg = s.cfg ∧
      (t.inp = s.inp ∨ s.busy = false ∧ ∃ bytes rest, s.host = .place bytes :: rest ∧ t.inp = Memory.ofBytes 0 bytes)) ∧
    (∀ bytes rest, CfgOk s.cfg → s.busy = false → s.host = .place bytes :: rest →
      ∃ t, step s = .next t ∧ (∀ a, Assoc.get? t.inp a = bytes[a]?) ∧ t = { s with inp := t.inp, host := rest })

/-- While the block is BUSY the host's moves other than a reset or a pass wait (R294 duties 3 and 4; log 7). -/
def Obligations.HostMovesWaitWhileBusy : Prop :=
  ∀ (s t : State), s.busy = true → step s = .next t → (∀ rest, s.host ≠ .reset :: rest ∧ s.host ≠ .pass :: rest) →
    t.host = s.host ∧ t.inp = s.inp ∧ t.inLen = s.inLen

/-- A reset gives Idle, STATUS 0 and CTRL 0, from any state and in the middle of a frame; right after reset the block is in that state, and
does nothing (R290, R291). That a reset keeps IN, the configuration and the host's later moves is the model's choice (log 22). -/
def Obligations.ResetGivesIdle : Prop :=
  (∀ (s : State) (rest : List HostMove), CfgOk s.cfg → s.host = .reset :: rest →
    ∃ t, step s = .next t ∧ t.fsm = .idle ∧ readReg t .status = 0 ∧ readReg t .ctrl = 0 ∧ t.busy = false ∧
      t.isDone = false ∧ t.isFailed = false ∧ t.cfg = s.cfg ∧ t.inp = s.inp ∧ t.host = rest) ∧
  State.reset.fsm = .idle ∧ readReg State.reset .status = 0 ∧ readReg State.reset .ctrl = 0 ∧
  (CfgOk State.reset.cfg → step State.reset = .next State.reset)

/-- A symbol step never lets `bit_pos` go back or pass the payload (R34, R132). -/
def Obligations.StreamPositionOnlyGrows : Prop :=
  ∀ (s t : State), s.fsm = .decodingSymbols → s.host = [] → s.bitPos.toNat ≤ 8 * s.bnd.toNat → step s = .next t →
    t.isFailed = false → s.bitPos.toNat ≤ t.bitPos.toNat ∧ t.bitPos.toNat ≤ 8 * t.bnd.toNat ∧ t.bnd = s.bnd

/-- OUT is append-only (R73, R185): a symbol step changes no byte below `wp`, and writes none at or above `os`, whatever it ends in. -/
def Obligations.OutputIsAppendOnly : Prop :=
  ∀ (s t : State), s.fsm = .decodingSymbols → s.host = [] → s.wp.toNat ≤ s.os.toNat → step s = .next t →
    ∀ a, a < s.wp.toNat ∨ s.os.toNat ≤ a → Assoc.get? t.out a = Assoc.get? s.out a

/-- Every symbol step fails or emits at least one byte, and never more than `os` in all (R215, R204, R205). -/
def Obligations.SymbolStepEmits : Prop :=
  ∀ (s t : State), s.Inv → s.fsm = .decodingSymbols → s.host = [] → step s = .next t →
    t.isFailed = true ∨ s.wp.toNat < t.wp.toNat ∧ t.wp.toNat ≤ t.os.toNat ∧ t.os = s.os ∧
      (t.fsm = .done ↔ t.wp = t.os)

/-- The invariant holds right after reset (R290), with the values the model names for what the spec leaves unspecified (log 1). -/
def Obligations.ResetMeetsInvariant : Prop := State.reset.Inv

/-- Every step keeps the invariant (R30, R34, R36, R73, R151, R203, R208, R209). -/
def Obligations.StepKeepsInvariant : Prop :=
  ∀ (s t : State), s.Inv → step s = .next t → t.Inv

/-- The block never stops (R271, R185, R136): under the invariant, with IN placed and a well-formed configuration, every step has a next state; no model fault and
no refusal is reached. -/
def Obligations.StepNeverStops : Prop :=
  ∀ (s : State), s.Inv → s.Placed → CfgOk s.cfg → Proceeds (step s)

/-- Every frame ends (R215), in Done or Failed: from DecodingSymbols within `os - wp` steps; from ReadingHeader within `os + 1` steps, `os` being what its
header declares, so within 2^32. -/
def Obligations.EveryFrameEnds : Prop :=
  ∀ (s : State), s.Inv → s.Placed → CfgOk s.cfg → s.host = [] →
    (s.fsm = .decodingSymbols → ∃ n t, n ≤ s.os.toNat - s.wp.toNat ∧ runSteps n s = .next t ∧ t.Terminal) ∧
    (s.fsm = .readingHeader → ∃ n t, n ≤ 2 ^ 32 ∧ runSteps n s = .next t ∧ t.Terminal ∧
      ∀ bytes cs os, readInBytes s 0 8 = .ok bytes → decodeHeader bytes = .ok (.frameHeader cs os) → n ≤ os.toNat + 1)

/-- The result of a frame (R216, R82): at Done exactly the `os` bytes of OUT in order, each as the host may read it; at Failed the error kind; none before.
That a read of OUT by the host gives no byte before the end is the model's choice, where any value may be read (log 23; 93_implementation_defined.md U5). -/
def Obligations.ResultAtTerminalState : Prop :=
  ∀ (s : State), s.Inv →
    (s.fsm = .done → ∃ bytes, frameResult s = some (.bytes bytes) ∧ bytes.length = s.os.toNat ∧
      ∀ a, a < s.os.toNat → bytes[a]? = hostReadOut s a ∧ bytes[a]? = Assoc.get? s.out a) ∧
    (∀ e, s.fsm = .failed e → frameResult s = some (.err e)) ∧
    (¬ s.Terminal → frameResult s = none ∧ ∀ a, hostReadOut s a = none)

/-- The result of a frame depends on the configuration, IN and IN_LEN alone (R214, R32, R292): from any two states that are not BUSY and agree in these, a START and
any number of steps after it reach the same state of `fsm` and the same result, whatever earlier frames left behind. -/
def Obligations.ResultDependsOnFrameAlone : Prop :=
  ∀ (s1 s2 t1 : State) (n : Nat), s1.busy = false → s2.busy = false → s1.cfg = s2.cfg → s1.inp = s2.inp →
    s1.inLen = s2.inLen → runSteps (n + 1) { s1 with host := [.write .ctrl 1] } = .next t1 →
    ∃ t2, runSteps (n + 1) { s2 with host := [.write .ctrl 1] } = .next t2 ∧ t2.fsm = t1.fsm ∧
      frameResult t2 = frameResult t1
end

