-- ==== Sys2Proof/Laws/Assoc.lean ====
section
/-! SUPPORT. The laws of lists of key and value: a read after a write, that a write leaves every other key, that the canonical form is
kept; then the same for sparse vectors. -/

namespace Sys2Proof.Machine

variable {α : Type}

@[simp] theorem Assoc.get?_nil (a : Nat) : Assoc.get? ([] : List (Nat × α)) a = none := rfl

theorem Assoc.get?_cons (e : Nat × α) (r : List (Nat × α)) (a : Nat) :
    Assoc.get? (e :: r) a = if e.1 = a then some e.2 else Assoc.get? r a := rfl

@[simp] theorem Assoc.get?_put_self (m : List (Nat × α)) (a : Nat) (v : α) :
    Assoc.get? (Assoc.put m a v) a = some v := by
  induction m with
  | nil => simp [Assoc.put, Assoc.get?]
  | cons e r ih =>
    simp only [Assoc.put]
    split
    · simp [Assoc.get?]
    · split
      · simp [Assoc.get?]
      · rw [Assoc.get?_cons, if_neg (by omega), ih]

theorem Assoc.get?_put_other (m : List (Nat × α)) {a b : Nat} (v : α) (h : b ≠ a) :
    Assoc.get? (Assoc.put m a v) b = Assoc.get? m b := by
  induction m with
  | nil => simp [Assoc.put, Assoc.get?, Ne.symm h]
  | cons e r ih =>
    simp only [Assoc.put]
    split
    · simp [Assoc.get?, Ne.symm h]
    · split
      · rename_i h1; subst h1; simp [Assoc.get?, Ne.symm h]
      · simp [Assoc.get?, ih]

theorem Assoc.get?_put (m : List (Nat × α)) (a b : Nat) (v : α) :
    Assoc.get? (Assoc.put m a v) b = if b = a then some v else Assoc.get? m b := by
  split
  · rename_i h; subst h; simp
  · exact Assoc.get?_put_other m v ‹_›

theorem Assoc.mem_put {m : List (Nat × α)} {a : Nat} {v : α} {e : Nat × α} (h : e ∈ Assoc.put m a v) :
    e = (a, v) ∨ e ∈ m := by
  induction m with
  | nil => simpa [Assoc.put] using h
  | cons x r ih =>
    simp only [Assoc.put] at h
    split at h
    · simpa using h
    · split at h
      · simp only [List.mem_cons] at h ⊢; tauto
      · simp only [List.mem_cons] at h ⊢; tauto

theorem Assoc.mem_erase {m : List (Nat × α)} {a : Nat} {e : Nat × α} (h : e ∈ Assoc.erase m a) : e ∈ m := by
  induction m with
  | nil => simp [Assoc.erase] at h
  | cons x r ih =>
    simp only [Assoc.erase] at h
    split at h
    · exact List.mem_cons_of_mem _ h
    · simp only [List.mem_cons] at h ⊢; tauto

theorem Assoc.sorted_cons {e : Nat × α} {r : List (Nat × α)} :
    Assoc.Sorted (e :: r) ↔ (∀ f ∈ r, e.1 < f.1) ∧ Assoc.Sorted r := by
  simp [Assoc.Sorted, List.pairwise_cons]

/-- A write keeps the canonical form. -/
theorem Assoc.sorted_put {m : List (Nat × α)} (h : Assoc.Sorted m) (a : Nat) (v : α) :
    Assoc.Sorted (Assoc.put m a v) := by
  induction m with
  | nil => simp [Assoc.put, Assoc.Sorted]
  | cons e r ih =>
    rw [Assoc.sorted_cons] at h
    simp only [Assoc.put]
    split
    · refine Assoc.sorted_cons.2 ⟨fun f hf => ?_, Assoc.sorted_cons.2 h⟩
      rcases List.mem_cons.1 hf with rfl | hf
      · assumption
      · have := h.1 f hf; simp_all; omega
    · split
      · rename_i h1
        exact Assoc.sorted_cons.2 ⟨fun f hf => by have := h.1 f hf; simp_all, h.2⟩
      · refine Assoc.sorted_cons.2 ⟨fun f hf => ?_, ih h.2⟩
        rcases Assoc.mem_put hf with rfl | hf
        · simp only; omega
        · exact h.1 f hf

/-- Taking a key out keeps the canonical form. -/
theorem Assoc.sorted_erase {m : List (Nat × α)} (h : Assoc.Sorted m) (a : Nat) :
    Assoc.Sorted (Assoc.erase m a) := by
  induction m with
  | nil => simpa [Assoc.erase] using h
  | cons e r ih =>
    rw [Assoc.sorted_cons] at h
    simp only [Assoc.erase]
    split
    · exact h.2
    · exact Assoc.sorted_cons.2 ⟨fun f hf => h.1 f (Assoc.mem_erase hf), ih h.2⟩

theorem Assoc.get?_eq_none {m : List (Nat × α)} {a : Nat} (h : ∀ e ∈ m, e.1 ≠ a) : Assoc.get? m a = none := by
  induction m with
  | nil => rfl
  | cons e r ih =>
    rw [Assoc.get?_cons, if_neg (h e (by simp)), ih fun f hf => h f (by simp [hf])]

theorem Assoc.mem_of_get? {m : List (Nat × α)} {a : Nat} {v : α} (h : Assoc.get? m a = some v) : (a, v) ∈ m := by
  induction m with
  | nil => simp at h
  | cons e r ih =>
    rw [Assoc.get?_cons] at h
    split at h
    · rename_i h1; obtain rfl := Option.some.inj h; subst h1; simp
    · exact List.mem_cons_of_mem _ (ih h)

/-- In the canonical form, what is listed is what is read. -/
theorem Assoc.get?_of_mem {m : List (Nat × α)} (hm : Assoc.Sorted m) {e : Nat × α} (h : e ∈ m) :
    Assoc.get? m e.1 = some e.2 := by
  induction m with
  | nil => simp at h
  | cons x r ih =>
    rw [Assoc.sorted_cons] at hm
    rcases List.mem_cons.1 h with rfl | h
    · simp [Assoc.get?_cons]
    · rw [Assoc.get?_cons, if_neg (by have := hm.1 e h; omega), ih hm.2 h]

theorem Assoc.get?_erase {m : List (Nat × α)} (hm : Assoc.Sorted m) (a b : Nat) :
    Assoc.get? (Assoc.erase m a) b = if b = a then none else Assoc.get? m b := by
  induction m with
  | nil => simp [Assoc.erase]
  | cons x r ih =>
    rw [Assoc.sorted_cons] at hm
    simp only [Assoc.erase]
    by_cases hx : x.1 = a
    · rw [if_pos hx]
      by_cases hb : b = a
      · subst hb; rw [if_pos rfl]; exact Assoc.get?_eq_none fun f hf => by have := hm.1 f hf; omega
      · rw [if_neg hb, Assoc.get?_cons, if_neg (by omega)]
    · rw [if_neg hx, Assoc.get?_cons, ih hm.2, Assoc.get?_cons]
      by_cases hb : b = a
      · subst hb; simp [hx]
      · simp [hb]

section Sparse

variable [DecidableEq α] {d : α} {n : Nat} {m : List (Nat × α)}

/-- Writing an element keeps the canonical form. -/
theorem Sparse.formed_set (h : Sparse.Formed d n m) {k : Nat} (hk : k < n) (v : α) :
    Sparse.Formed d n (Sparse.set d m k v) := by
  unfold Sparse.set
  split
  · exact ⟨Assoc.sorted_erase h.1 k, fun e he => h.2 e (Assoc.mem_erase he)⟩
  · refine ⟨Assoc.sorted_put h.1 k v, fun e he => ?_⟩
    rcases Assoc.mem_put he with rfl | he
    · exact ⟨hk, ‹_›⟩
    · exact h.2 e he

/-- What an element reads as after a write. -/
theorem Sparse.get_set (h : Assoc.Sorted m) (k j : Nat) (v : α) :
    Sparse.get d (Sparse.set d m k v) j = if j = k then v else Sparse.get d m j := by
  unfold Sparse.get Sparse.set
  split
  · rename_i hv; rw [Assoc.get?_erase h]; split <;> simp_all
  · rw [Assoc.get?_put]; split <;> simp

/-- `fit` gives the canonical form. -/
theorem Sparse.formed_fit (d : α) (n : Nat) (m : List (Nat × α)) : Sparse.Formed d n (Sparse.fit d n m) := by
  induction m with
  | nil => simp [Sparse.fit, Sparse.Formed, Assoc.Sorted]
  | cons e r ih =>
    have hs : Sparse.fit d n (e :: r) =
      if e.1 < n then Sparse.set d (Sparse.fit d n r) e.1 e.2 else Sparse.fit d n r := rfl
    rw [hs]
    split
    · exact Sparse.formed_set ih ‹_› _
    · exact ih

/-- `fit` keeps the elements below `n`. -/
theorem Sparse.get_fit (d : α) (n : Nat) (m : List (Nat × α)) (k : Nat) :
    Sparse.get d (Sparse.fit d n m) k = if k < n then Sparse.get d m k else d := by
  induction m with
  | nil => simp [Sparse.fit, Sparse.get]
  | cons e r ih =>
    have hs : Sparse.fit d n (e :: r) =
      if e.1 < n then Sparse.set d (Sparse.fit d n r) e.1 e.2 else Sparse.fit d n r := rfl
    have hg : Sparse.get d (e :: r) k = if e.1 = k then e.2 else Sparse.get d r k := by
      simp only [Sparse.get, Assoc.get?_cons]; split <;> rfl
    rw [hs, hg]
    split
    · rw [Sparse.get_set (Sparse.formed_fit d n r).1, ih]
      by_cases h1 : k = e.1
      · subst h1; simp [*]
      · simp [h1, Ne.symm h1]
    · rw [ih]
      by_cases h1 : k < n
      · rw [if_pos h1, if_pos h1, if_neg (by omega)]
      · simp [h1]

theorem Sparse.formed_nil (d : α) (n : Nat) : Sparse.Formed d n ([] : List (Nat × α)) := by
  simp [Sparse.Formed, Assoc.Sorted]

/-- What is listed is what is read. -/
theorem Sparse.get_of_mem (h : Sparse.Formed d n m) {e : Nat × α} (he : e ∈ m) : Sparse.get d m e.1 = e.2 := by
  simp [Sparse.get, Assoc.get?_of_mem h.1 he]

end Sparse

/-! ## Memory -/

theorem Memory.get?_ofBytes (bs : List Byte) (a b : Nat) :
    Assoc.get? (Memory.ofBytes a bs) b = if a ≤ b then bs[b - a]? else none := by
  induction bs generalizing a with
  | nil => simp [Memory.ofBytes]
  | cons x r ih =>
    rw [Memory.ofBytes, Assoc.get?_cons, ih]
    by_cases h : a = b
    · subst h; simp
    · rw [if_neg h]
      by_cases h1 : a + 1 ≤ b
      · rw [if_pos h1, if_pos (by omega), List.getElem?_cons, if_neg (by omega)]
        congr 1
      · rw [if_neg h1, if_neg (by omega)]

/-- A placed buffer is in canonical form. -/
theorem Memory.wf_ofBytes (bs : List Byte) (a : Nat) :
    Memory.wf (Memory.ofBytes a bs) ∧ ∀ e ∈ Memory.ofBytes a bs, a ≤ e.1 := by
  induction bs generalizing a with
  | nil => simp [Memory.ofBytes, Memory.wf, Assoc.Sorted]
  | cons x r ih =>
    refine ⟨Assoc.sorted_cons.2 ⟨fun f hf => (ih (a + 1)).2 f hf, (ih (a + 1)).1⟩, fun e he => ?_⟩
    rcases List.mem_cons.1 he with rfl | he
    · exact le_refl _
    · have := (ih (a + 1)).2 e he; omega

/-- A byte written to OUT keeps the canonical form. -/
theorem State.wf_emit {s : State} (h : Memory.wf s.out) (b : Byte) : Memory.wf (s.emit b).out :=
  Assoc.sorted_put h _ _

/-- The memories of the state after reset are in canonical form. -/
theorem State.wf_reset : Memory.wf State.reset.inp ∧ Memory.wf State.reset.out := by
  simp [State.reset, Memory.wf, Assoc.Sorted]

end Sys2Proof.Machine
end

