-- ==== Sys2Proof/Laws/CodeTree.lean ====
section
/-! SUPPORT. The arithmetic of canonical codes (41_codetree.md R151, R153): the first codes of the lengths, a symbol's rank among those of its
length, and the partial Kraft sums. -/

namespace Sys2Proof.Machine

/-- The recurrence of R153 for `next`. -/
theorem firstCode_step (t : Lengths) (l : Nat) (h : 1 ≤ l) : firstCode t (l+1) = (firstCode t l + blCount t l) * 2 := by
  obtain ⟨k, rfl⟩ : ∃ k, l = k+1 := ⟨l-1, by omega⟩
  rfl

/-- The codes of a length, followed to a greater length, end before the first code there. -/
theorem firstCode_mono (t : Lengths) (l d : Nat) (h : 1 ≤ l) : (firstCode t l + blCount t l) * 2^(d+1) ≤ firstCode t (l+d+1) := by
  induction d with
  | zero => rw [firstCode_step t l h]; simp
  | succ d ih =>
    rw [show l + (d+1) + 1 = (l+d+1)+1 by omega, firstCode_step t (l+d+1) (by omega), pow_succ]
    calc _ = (firstCode t l + blCount t l) * 2^(d+1) * 2 := by ring
      _ ≤ firstCode t (l+d+1) * 2 := by omega
      _ ≤ _ := by omega

/-- A codeword assigned is one of a symbol still to be assigned. -/
theorem assignCodes_mem (t done todo : Lengths) {c : Codeword} (h : c ∈ assignCodes t done todo) :
    (c.symbol, c.len) ∈ todo := by
  induction todo generalizing done with
  | nil => simp [assignCodes] at h
  | cons e r ih =>
    rcases List.mem_cons.1 h with rfl | h
    · simp
    · exact List.mem_cons_of_mem _ (ih _ h)

/-- A codeword of a table stands for a symbol the table lists, with its length. -/
theorem mem_of_codeword {t : Lengths} {c : Codeword} (h : c ∈ codewords t) : (c.symbol, c.len) ∈ t :=
  assignCodes_mem t [] t h

/-- A listed symbol's rank is below the number of symbols of its length. -/
theorem rank_lt {t : Lengths} (hs : Assoc.Sorted t) {x : Nat × Nat} (hx : x ∈ t) : t.countP (fun e => e.2 = x.2 ∧ e.1 < x.1) < blCount t x.2 := by
  unfold blCount
  induction t with
  | nil => simp at hx
  | cons e r ih =>
    rw [Assoc.sorted_cons] at hs
    rw [List.countP_cons, List.countP_cons]
    rcases List.mem_cons.1 hx with rfl | hx
    · have : r.countP (fun e => decide (e.2 = x.2 ∧ e.1 < x.1)) = 0 := by
        rw [List.countP_eq_zero]; intro y hy; have := hs.1 y hy; simp; omega
      rw [this]; simp
    · have := ih hs.2 hx
      have h1 := hs.1 x hx
      by_cases h : e.2 = x.2 <;> simp [h, h1] <;> simpa using this

/-- Of two symbols of one length the lower has the lower rank. -/
theorem rank_less {t : Lengths} {x y : Nat × Nat} (hs : Assoc.Sorted t) (hx : x ∈ t) (hl : x.2 = y.2) (hxy : x.1 < y.1) :
  t.countP (fun e => e.2 = x.2 ∧ e.1 < x.1) < t.countP (fun e => e.2 = y.2 ∧ e.1 < y.1) := by
  induction t with
  | nil => simp at hx
  | cons e r ih =>
    rw [Assoc.sorted_cons] at hs
    rw [List.countP_cons, List.countP_cons]
    rcases List.mem_cons.1 hx with rfl | hx
    · have : r.countP (fun e => decide (e.2 = x.2 ∧ e.1 < x.1)) = 0 := by
        rw [List.countP_eq_zero]; intro y hy; have := hs.1 y hy; simp; omega
      rw [this]; simp [hl, hxy]
    · have := ih hs.2 hx
      have h1 := hs.1 x hx
      have h2 : e.1 < y.1 := by omega
      by_cases h : e.2 = y.2 <;> simp [hl, h, h1, h2] <;> simpa [hl] using this

/-- The codes up to a length, written at the depth, are the Kraft sum of the symbols up to that length. -/
theorem kraft_partial (t : Lengths) (depth l : Nat) (hl : 1 ≤ l) (hld : l ≤ depth) (hpos : ∀ e ∈ t, e.2 ≠ 0) :
   (firstCode t l + blCount t l) * 2^(depth - l) = ((t.filter fun e => e.2 ≤ l).map fun e => 2^(depth - e.2)).sum := by
  have split : ∀ (t : Lengths) (l : Nat), ((t.filter fun e => e.2 ≤ l + 1).map fun e => 2^(depth - e.2)).sum = ((t.filter fun e => e.2 ≤ l).map fun e => 2^(depth - e.2)).sum + blCount t (l+1) * 2^(depth-(l+1)) := by
    intro t l
    induction t with
    | nil => simp [blCount]
    | cons e r ih =>
      simp only [blCount] at ih ⊢
      rw [List.filter_cons, List.filter_cons, List.countP_cons]
      by_cases h1 : e.2 ≤ l
      · have : e.2 ≤ l + 1 := by omega
        have h2 : ¬ e.2 = l+1 := by omega
        rw [if_pos (by simpa using this), if_pos (by simpa using h1), if_neg (by simpa using h2)]
        simp only [List.map_cons, List.sum_cons, Nat.add_zero]; omega
      · by_cases h2 : e.2 = l + 1
        · have : e.2 ≤ l + 1 := by omega
          rw [if_pos (by simpa using this), if_neg (by simpa using h1), if_pos (by simpa using h2)]
          simp only [List.map_cons, List.sum_cons]; rw [ih, h2, Nat.add_mul]; omega
        · have : ¬ e.2 ≤ l + 1 := by omega
          rw [if_neg (by simpa using this), if_neg (by simpa using h1), if_neg (by simpa using h2)]
          simpa using ih
  induction l with
  | zero => omega
  | succ l ih =>
    rw [split]
    rcases Nat.eq_zero_or_pos l with rfl | hl0
    · have : t.filter (fun e => decide (e.2 ≤ 0)) = [] := by
        rw [List.filter_eq_nil_iff]; intro e he; have := hpos e he; simp; omega
      rw [this]; simp [firstCode]
    · rw [← ih hl0 (by omega), firstCode_step t l hl0]
      rw [show depth - l = (depth - (l+1)) + 1 by omega, pow_succ]
      ring

/-- A partial Kraft sum is at most the whole. -/
theorem kraft_filter_le (t : Lengths) (depth l : Nat) : ((t.filter fun e => e.2 ≤ l).map fun e => 2^(depth - e.2)).sum ≤ kraftSum depth t := by
  unfold kraftSum
  induction t with
  | nil => simp
  | cons e r ih =>
    rw [List.filter_cons]
    split <;> simp only [List.map_cons, List.sum_cons]
    · omega
    · exact le_trans ih (Nat.le_add_left _ _)

/-- `validate` in the terms of R151. -/
theorem validTable_iff (depth : Nat) (t : Lengths) :
    validTable depth t = true ↔ (∀ e ∈ t, e.2 ≤ depth) ∧ kraftSum depth t ≤ 2 ^ depth := by
  simp [validTable]

end Sys2Proof.Machine
end

