-- ==== Sys2Proof/Laws/Config.lean ====
section
/-! SUPPORT. What a well-formed configuration gives (00_scope.md R7, R8). -/

namespace Sys2Proof.Machine

/-- The conditions of R7, all of them. -/
structure CfgFacts (c : Cfg) : Prop where
  nll        : 257 ≤ c.nll
  nd         : 1 ≤ c.nd
  depthLL    : 1 ≤ c.maxDepthLL ∧ c.maxDepthLL ≤ 32
  depthD     : 1 ≤ c.maxDepthD ∧ c.maxDepthD ≤ 32
  extra      : ∀ r ∈ c.lens ++ c.dists, r.extra ≤ 32
  fits       : ∀ r ∈ c.lens ++ c.dists, 1 ≤ r.base ∧ rowMax r ≤ 2 ^ 32 - 1
  window     : maxDist c ≤ c.windowSize
  capacity   : c.outCapacity ≤ 2 ^ 32 - 1
  nllMax     : c.nll ≤ 65536
  ndMax      : c.nd ≤ 65536
  lens       : c.lens.length = c.nll - 256
  dists      : c.dists.length = c.nd
  initLL     : Sparse.Formed 0 c.nll c.initLL
  initD      : Sparse.Formed 0 c.nd c.initD

theorem CfgOk.facts {c : Cfg} (h : CfgOk c) : CfgFacts c := by
  unfold CfgOk violated at h
  split at h; · simp at h
  split at h; · simp at h
  split at h; · simp at h
  split at h; · simp at h
  split at h; · simp at h
  split at h; · simp at h
  split at h; · simp at h
  split at h; · simp at h
  rename_i h1 h2 h3 h4 h5 h6 h7 h8
  simp only [not_not] at h1 h2 h3 h4 h5 h6 h7 h8
  refine ⟨h1.1, h1.2, ⟨h2.1, h2.2.1⟩, ⟨h2.2.2.1, h2.2.2.2⟩, h3, fun r hr => ?_, h5, h6, h7.1, h7.2, h8.1, h8.2.1,
    h8.2.2.1, h8.2.2.2⟩
  have := h4 r hr
  simpa [rowFits] using this

theorem le_foldr_max {l : List Nat} {x : Nat} (h : x ∈ l) : x ≤ l.foldr max 0 := by
  induction l with
  | nil => simp at h
  | cons y r ih =>
    rcases List.mem_cons.1 h with rfl | h
    · simp
    · exact le_trans (ih h) (by simp)

theorem rowMax_le_maxDist {c : Cfg} {r : ExtraRow} (h : r ∈ c.dists) : rowMax r ≤ maxDist c :=
  le_foldr_max (List.mem_map_of_mem h)

theorem rowMax_le_maxLen {c : Cfg} {r : ExtraRow} (h : r ∈ c.lens) : rowMax r ≤ maxLen c :=
  le_foldr_max (List.mem_map_of_mem h)

end Sys2Proof.Machine
end

