-- ==== Sys2Proof/Laws/State.lean ====
section
/-! SUPPORT. One lemma per field per named update of State: what the update writes, and that it leaves the field. -/

namespace Sys2Proof.Machine

variable (s : State)

@[simp] theorem State.enter_cfg (f : Fsm) : (s.enter f).cfg = s.cfg := rfl
@[simp] theorem State.enter_inp (f : Fsm) : (s.enter f).inp = s.inp := rfl
@[simp] theorem State.enter_fsm (f : Fsm) : (s.enter f).fsm = f := rfl
@[simp] theorem State.enter_inLen (f : Fsm) : (s.enter f).inLen = s.inLen := rfl
@[simp] theorem State.enter_cs (f : Fsm) : (s.enter f).cs = s.cs := rfl
@[simp] theorem State.enter_os (f : Fsm) : (s.enter f).os = s.os := rfl
@[simp] theorem State.enter_bnd (f : Fsm) : (s.enter f).bnd = s.bnd := rfl
@[simp] theorem State.enter_bitPos (f : Fsm) : (s.enter f).bitPos = s.bitPos := rfl
@[simp] theorem State.enter_wp (f : Fsm) : (s.enter f).wp = s.wp := rfl
@[simp] theorem State.enter_lenLL (f : Fsm) : (s.enter f).lenLL = s.lenLL := rfl
@[simp] theorem State.enter_lenD (f : Fsm) : (s.enter f).lenD = s.lenD := rfl
@[simp] theorem State.enter_cntLL (f : Fsm) : (s.enter f).cntLL = s.cntLL := rfl
@[simp] theorem State.enter_cntD (f : Fsm) : (s.enter f).cntD = s.cntD := rfl
@[simp] theorem State.enter_symCount (f : Fsm) : (s.enter f).symCount = s.symCount := rfl
@[simp] theorem State.enter_out (f : Fsm) : (s.enter f).out = s.out := rfl
@[simp] theorem State.enter_host (f : Fsm) : (s.enter f).host = s.host := rfl
@[simp] theorem State.enter_fresh (f : Fsm) : (s.enter f).fresh = s.fresh := rfl

@[simp] theorem State.advance_cfg (n : Nat) : (s.advance n).cfg = s.cfg := rfl
@[simp] theorem State.advance_inp (n : Nat) : (s.advance n).inp = s.inp := rfl
@[simp] theorem State.advance_fsm (n : Nat) : (s.advance n).fsm = s.fsm := rfl
@[simp] theorem State.advance_inLen (n : Nat) : (s.advance n).inLen = s.inLen := rfl
@[simp] theorem State.advance_cs (n : Nat) : (s.advance n).cs = s.cs := rfl
@[simp] theorem State.advance_os (n : Nat) : (s.advance n).os = s.os := rfl
@[simp] theorem State.advance_bnd (n : Nat) : (s.advance n).bnd = s.bnd := rfl
@[simp] theorem State.advance_bitPos (n : Nat) : (s.advance n).bitPos = s.bitPos + BitVec.ofNat 35 n := rfl
@[simp] theorem State.advance_wp (n : Nat) : (s.advance n).wp = s.wp := rfl
@[simp] theorem State.advance_lenLL (n : Nat) : (s.advance n).lenLL = s.lenLL := rfl
@[simp] theorem State.advance_lenD (n : Nat) : (s.advance n).lenD = s.lenD := rfl
@[simp] theorem State.advance_cntLL (n : Nat) : (s.advance n).cntLL = s.cntLL := rfl
@[simp] theorem State.advance_cntD (n : Nat) : (s.advance n).cntD = s.cntD := rfl
@[simp] theorem State.advance_symCount (n : Nat) : (s.advance n).symCount = s.symCount := rfl
@[simp] theorem State.advance_out (n : Nat) : (s.advance n).out = s.out := rfl
@[simp] theorem State.advance_host (n : Nat) : (s.advance n).host = s.host := rfl
@[simp] theorem State.advance_fresh (n : Nat) : (s.advance n).fresh = s.fresh := rfl

@[simp] theorem State.emit_cfg (b : Byte) : (s.emit b).cfg = s.cfg := rfl
@[simp] theorem State.emit_inp (b : Byte) : (s.emit b).inp = s.inp := rfl
@[simp] theorem State.emit_fsm (b : Byte) : (s.emit b).fsm = s.fsm := rfl
@[simp] theorem State.emit_inLen (b : Byte) : (s.emit b).inLen = s.inLen := rfl
@[simp] theorem State.emit_cs (b : Byte) : (s.emit b).cs = s.cs := rfl
@[simp] theorem State.emit_os (b : Byte) : (s.emit b).os = s.os := rfl
@[simp] theorem State.emit_bnd (b : Byte) : (s.emit b).bnd = s.bnd := rfl
@[simp] theorem State.emit_bitPos (b : Byte) : (s.emit b).bitPos = s.bitPos := rfl
@[simp] theorem State.emit_wp (b : Byte) : (s.emit b).wp = s.wp + 1 := rfl
@[simp] theorem State.emit_lenLL (b : Byte) : (s.emit b).lenLL = s.lenLL := rfl
@[simp] theorem State.emit_lenD (b : Byte) : (s.emit b).lenD = s.lenD := rfl
@[simp] theorem State.emit_cntLL (b : Byte) : (s.emit b).cntLL = s.cntLL := rfl
@[simp] theorem State.emit_cntD (b : Byte) : (s.emit b).cntD = s.cntD := rfl
@[simp] theorem State.emit_symCount (b : Byte) : (s.emit b).symCount = s.symCount := rfl
@[simp] theorem State.emit_out (b : Byte) : (s.emit b).out = Assoc.put s.out s.wp.toNat b := rfl
@[simp] theorem State.emit_host (b : Byte) : (s.emit b).host = s.host := rfl
@[simp] theorem State.emit_fresh (b : Byte) : (s.emit b).fresh = s.fresh := rfl

@[simp] theorem State.countLL_cfg (k : Nat) : (s.countLL k).cfg = s.cfg := rfl
@[simp] theorem State.countLL_inp (k : Nat) : (s.countLL k).inp = s.inp := rfl
@[simp] theorem State.countLL_fsm (k : Nat) : (s.countLL k).fsm = s.fsm := rfl
@[simp] theorem State.countLL_inLen (k : Nat) : (s.countLL k).inLen = s.inLen := rfl
@[simp] theorem State.countLL_cs (k : Nat) : (s.countLL k).cs = s.cs := rfl
@[simp] theorem State.countLL_os (k : Nat) : (s.countLL k).os = s.os := rfl
@[simp] theorem State.countLL_bnd (k : Nat) : (s.countLL k).bnd = s.bnd := rfl
@[simp] theorem State.countLL_bitPos (k : Nat) : (s.countLL k).bitPos = s.bitPos := rfl
@[simp] theorem State.countLL_wp (k : Nat) : (s.countLL k).wp = s.wp := rfl
@[simp] theorem State.countLL_lenLL (k : Nat) : (s.countLL k).lenLL = s.lenLL := rfl
@[simp] theorem State.countLL_lenD (k : Nat) : (s.countLL k).lenD = s.lenD := rfl
@[simp] theorem State.countLL_cntLL (k : Nat) : (s.countLL k).cntLL = bump s.cntLL k := rfl
@[simp] theorem State.countLL_cntD (k : Nat) : (s.countLL k).cntD = s.cntD := rfl
@[simp] theorem State.countLL_symCount (k : Nat) : (s.countLL k).symCount = s.symCount := rfl
@[simp] theorem State.countLL_out (k : Nat) : (s.countLL k).out = s.out := rfl
@[simp] theorem State.countLL_host (k : Nat) : (s.countLL k).host = s.host := rfl
@[simp] theorem State.countLL_fresh (k : Nat) : (s.countLL k).fresh = s.fresh := rfl

@[simp] theorem State.countD_cfg (k : Nat) : (s.countD k).cfg = s.cfg := rfl
@[simp] theorem State.countD_inp (k : Nat) : (s.countD k).inp = s.inp := rfl
@[simp] theorem State.countD_fsm (k : Nat) : (s.countD k).fsm = s.fsm := rfl
@[simp] theorem State.countD_inLen (k : Nat) : (s.countD k).inLen = s.inLen := rfl
@[simp] theorem State.countD_cs (k : Nat) : (s.countD k).cs = s.cs := rfl
@[simp] theorem State.countD_os (k : Nat) : (s.countD k).os = s.os := rfl
@[simp] theorem State.countD_bnd (k : Nat) : (s.countD k).bnd = s.bnd := rfl
@[simp] theorem State.countD_bitPos (k : Nat) : (s.countD k).bitPos = s.bitPos := rfl
@[simp] theorem State.countD_wp (k : Nat) : (s.countD k).wp = s.wp := rfl
@[simp] theorem State.countD_lenLL (k : Nat) : (s.countD k).lenLL = s.lenLL := rfl
@[simp] theorem State.countD_lenD (k : Nat) : (s.countD k).lenD = s.lenD := rfl
@[simp] theorem State.countD_cntLL (k : Nat) : (s.countD k).cntLL = s.cntLL := rfl
@[simp] theorem State.countD_cntD (k : Nat) : (s.countD k).cntD = bump s.cntD k := rfl
@[simp] theorem State.countD_symCount (k : Nat) : (s.countD k).symCount = s.symCount := rfl
@[simp] theorem State.countD_out (k : Nat) : (s.countD k).out = s.out := rfl
@[simp] theorem State.countD_host (k : Nat) : (s.countD k).host = s.host := rfl
@[simp] theorem State.countD_fresh (k : Nat) : (s.countD k).fresh = s.fresh := rfl

@[simp] theorem State.countInstr_cfg : (s.countInstr).cfg = s.cfg := rfl
@[simp] theorem State.countInstr_inp : (s.countInstr).inp = s.inp := rfl
@[simp] theorem State.countInstr_fsm : (s.countInstr).fsm = s.fsm := rfl
@[simp] theorem State.countInstr_inLen : (s.countInstr).inLen = s.inLen := rfl
@[simp] theorem State.countInstr_cs : (s.countInstr).cs = s.cs := rfl
@[simp] theorem State.countInstr_os : (s.countInstr).os = s.os := rfl
@[simp] theorem State.countInstr_bnd : (s.countInstr).bnd = s.bnd := rfl
@[simp] theorem State.countInstr_bitPos : (s.countInstr).bitPos = s.bitPos := rfl
@[simp] theorem State.countInstr_wp : (s.countInstr).wp = s.wp := rfl
@[simp] theorem State.countInstr_lenLL : (s.countInstr).lenLL = s.lenLL := rfl
@[simp] theorem State.countInstr_lenD : (s.countInstr).lenD = s.lenD := rfl
@[simp] theorem State.countInstr_cntLL : (s.countInstr).cntLL = s.cntLL := rfl
@[simp] theorem State.countInstr_cntD : (s.countInstr).cntD = s.cntD := rfl
@[simp] theorem State.countInstr_symCount : (s.countInstr).symCount = s.symCount + 1 := rfl
@[simp] theorem State.countInstr_out : (s.countInstr).out = s.out := rfl
@[simp] theorem State.countInstr_host : (s.countInstr).host = s.host := rfl
@[simp] theorem State.countInstr_fresh : (s.countInstr).fresh = s.fresh := rfl

@[simp] theorem State.setLenLL_cfg (t : Lengths) : (s.setLenLL t).cfg = s.cfg := rfl
@[simp] theorem State.setLenLL_inp (t : Lengths) : (s.setLenLL t).inp = s.inp := rfl
@[simp] theorem State.setLenLL_fsm (t : Lengths) : (s.setLenLL t).fsm = s.fsm := rfl
@[simp] theorem State.setLenLL_inLen (t : Lengths) : (s.setLenLL t).inLen = s.inLen := rfl
@[simp] theorem State.setLenLL_cs (t : Lengths) : (s.setLenLL t).cs = s.cs := rfl
@[simp] theorem State.setLenLL_os (t : Lengths) : (s.setLenLL t).os = s.os := rfl
@[simp] theorem State.setLenLL_bnd (t : Lengths) : (s.setLenLL t).bnd = s.bnd := rfl
@[simp] theorem State.setLenLL_bitPos (t : Lengths) : (s.setLenLL t).bitPos = s.bitPos := rfl
@[simp] theorem State.setLenLL_wp (t : Lengths) : (s.setLenLL t).wp = s.wp := rfl
@[simp] theorem State.setLenLL_lenLL (t : Lengths) : (s.setLenLL t).lenLL = t := rfl
@[simp] theorem State.setLenLL_lenD (t : Lengths) : (s.setLenLL t).lenD = s.lenD := rfl
@[simp] theorem State.setLenLL_cntLL (t : Lengths) : (s.setLenLL t).cntLL = s.cntLL := rfl
@[simp] theorem State.setLenLL_cntD (t : Lengths) : (s.setLenLL t).cntD = s.cntD := rfl
@[simp] theorem State.setLenLL_symCount (t : Lengths) : (s.setLenLL t).symCount = s.symCount := rfl
@[simp] theorem State.setLenLL_out (t : Lengths) : (s.setLenLL t).out = s.out := rfl
@[simp] theorem State.setLenLL_host (t : Lengths) : (s.setLenLL t).host = s.host := rfl
@[simp] theorem State.setLenLL_fresh (t : Lengths) : (s.setLenLL t).fresh = s.fresh := rfl

@[simp] theorem State.setLenD_cfg (t : Lengths) : (s.setLenD t).cfg = s.cfg := rfl
@[simp] theorem State.setLenD_inp (t : Lengths) : (s.setLenD t).inp = s.inp := rfl
@[simp] theorem State.setLenD_fsm (t : Lengths) : (s.setLenD t).fsm = s.fsm := rfl
@[simp] theorem State.setLenD_inLen (t : Lengths) : (s.setLenD t).inLen = s.inLen := rfl
@[simp] theorem State.setLenD_cs (t : Lengths) : (s.setLenD t).cs = s.cs := rfl
@[simp] theorem State.setLenD_os (t : Lengths) : (s.setLenD t).os = s.os := rfl
@[simp] theorem State.setLenD_bnd (t : Lengths) : (s.setLenD t).bnd = s.bnd := rfl
@[simp] theorem State.setLenD_bitPos (t : Lengths) : (s.setLenD t).bitPos = s.bitPos := rfl
@[simp] theorem State.setLenD_wp (t : Lengths) : (s.setLenD t).wp = s.wp := rfl
@[simp] theorem State.setLenD_lenLL (t : Lengths) : (s.setLenD t).lenLL = s.lenLL := rfl
@[simp] theorem State.setLenD_lenD (t : Lengths) : (s.setLenD t).lenD = t := rfl
@[simp] theorem State.setLenD_cntLL (t : Lengths) : (s.setLenD t).cntLL = s.cntLL := rfl
@[simp] theorem State.setLenD_cntD (t : Lengths) : (s.setLenD t).cntD = s.cntD := rfl
@[simp] theorem State.setLenD_symCount (t : Lengths) : (s.setLenD t).symCount = s.symCount := rfl
@[simp] theorem State.setLenD_out (t : Lengths) : (s.setLenD t).out = s.out := rfl
@[simp] theorem State.setLenD_host (t : Lengths) : (s.setLenD t).host = s.host := rfl
@[simp] theorem State.setLenD_fresh (t : Lengths) : (s.setLenD t).fresh = s.fresh := rfl

@[simp] theorem State.setSizes_cfg (c o : U32) : (s.setSizes c o).cfg = s.cfg := rfl
@[simp] theorem State.setSizes_inp (c o : U32) : (s.setSizes c o).inp = s.inp := rfl
@[simp] theorem State.setSizes_fsm (c o : U32) : (s.setSizes c o).fsm = s.fsm := rfl
@[simp] theorem State.setSizes_inLen (c o : U32) : (s.setSizes c o).inLen = s.inLen := rfl
@[simp] theorem State.setSizes_cs (c o : U32) : (s.setSizes c o).cs = c := rfl
@[simp] theorem State.setSizes_os (c o : U32) : (s.setSizes c o).os = o := rfl
@[simp] theorem State.setSizes_bnd (c o : U32) : (s.setSizes c o).bnd = BitVec.ofNat 32 (min c.toNat (s.inLen.toNat - 8)) := rfl
@[simp] theorem State.setSizes_bitPos (c o : U32) : (s.setSizes c o).bitPos = s.bitPos := rfl
@[simp] theorem State.setSizes_wp (c o : U32) : (s.setSizes c o).wp = s.wp := rfl
@[simp] theorem State.setSizes_lenLL (c o : U32) : (s.setSizes c o).lenLL = s.lenLL := rfl
@[simp] theorem State.setSizes_lenD (c o : U32) : (s.setSizes c o).lenD = s.lenD := rfl
@[simp] theorem State.setSizes_cntLL (c o : U32) : (s.setSizes c o).cntLL = s.cntLL := rfl
@[simp] theorem State.setSizes_cntD (c o : U32) : (s.setSizes c o).cntD = s.cntD := rfl
@[simp] theorem State.setSizes_symCount (c o : U32) : (s.setSizes c o).symCount = s.symCount := rfl
@[simp] theorem State.setSizes_out (c o : U32) : (s.setSizes c o).out = s.out := rfl
@[simp] theorem State.setSizes_host (c o : U32) : (s.setSizes c o).host = s.host := rfl
@[simp] theorem State.setSizes_fresh (c o : U32) : (s.setSizes c o).fresh = s.fresh := rfl

@[simp] theorem State.clearFrame_cfg : (s.clearFrame).cfg = s.cfg := rfl
@[simp] theorem State.clearFrame_inp : (s.clearFrame).inp = s.inp := rfl
@[simp] theorem State.clearFrame_fsm : (s.clearFrame).fsm = s.fsm := rfl
@[simp] theorem State.clearFrame_inLen : (s.clearFrame).inLen = s.inLen := rfl
@[simp] theorem State.clearFrame_cs : (s.clearFrame).cs = s.cs := rfl
@[simp] theorem State.clearFrame_os : (s.clearFrame).os = s.os := rfl
@[simp] theorem State.clearFrame_bnd : (s.clearFrame).bnd = s.bnd := rfl
@[simp] theorem State.clearFrame_bitPos : (s.clearFrame).bitPos = 0 := rfl
@[simp] theorem State.clearFrame_wp : (s.clearFrame).wp = 0 := rfl
@[simp] theorem State.clearFrame_lenLL : (s.clearFrame).lenLL = s.lenLL := rfl
@[simp] theorem State.clearFrame_lenD : (s.clearFrame).lenD = s.lenD := rfl
@[simp] theorem State.clearFrame_cntLL : (s.clearFrame).cntLL = [] := rfl
@[simp] theorem State.clearFrame_cntD : (s.clearFrame).cntD = [] := rfl
@[simp] theorem State.clearFrame_symCount : (s.clearFrame).symCount = 0 := rfl
@[simp] theorem State.clearFrame_out : (s.clearFrame).out = s.out := rfl
@[simp] theorem State.clearFrame_host : (s.clearFrame).host = s.host := rfl
@[simp] theorem State.clearFrame_fresh : (s.clearFrame).fresh = s.fresh := rfl

@[simp] theorem State.setHost_cfg (h : List HostMove) : (s.setHost h).cfg = s.cfg := rfl
@[simp] theorem State.setHost_inp (h : List HostMove) : (s.setHost h).inp = s.inp := rfl
@[simp] theorem State.setHost_fsm (h : List HostMove) : (s.setHost h).fsm = s.fsm := rfl
@[simp] theorem State.setHost_inLen (h : List HostMove) : (s.setHost h).inLen = s.inLen := rfl
@[simp] theorem State.setHost_cs (h : List HostMove) : (s.setHost h).cs = s.cs := rfl
@[simp] theorem State.setHost_os (h : List HostMove) : (s.setHost h).os = s.os := rfl
@[simp] theorem State.setHost_bnd (h : List HostMove) : (s.setHost h).bnd = s.bnd := rfl
@[simp] theorem State.setHost_bitPos (h : List HostMove) : (s.setHost h).bitPos = s.bitPos := rfl
@[simp] theorem State.setHost_wp (h : List HostMove) : (s.setHost h).wp = s.wp := rfl
@[simp] theorem State.setHost_lenLL (h : List HostMove) : (s.setHost h).lenLL = s.lenLL := rfl
@[simp] theorem State.setHost_lenD (h : List HostMove) : (s.setHost h).lenD = s.lenD := rfl
@[simp] theorem State.setHost_cntLL (h : List HostMove) : (s.setHost h).cntLL = s.cntLL := rfl
@[simp] theorem State.setHost_cntD (h : List HostMove) : (s.setHost h).cntD = s.cntD := rfl
@[simp] theorem State.setHost_symCount (h : List HostMove) : (s.setHost h).symCount = s.symCount := rfl
@[simp] theorem State.setHost_out (h : List HostMove) : (s.setHost h).out = s.out := rfl
@[simp] theorem State.setHost_host (h : List HostMove) : (s.setHost h).host = h := rfl
@[simp] theorem State.setHost_fresh (h : List HostMove) : (s.setHost h).fresh = s.fresh := rfl

@[simp] theorem State.place_cfg (bs : List Byte) : (s.place bs).cfg = s.cfg := rfl
@[simp] theorem State.place_inp (bs : List Byte) : (s.place bs).inp = Memory.ofBytes 0 bs := rfl
@[simp] theorem State.place_fsm (bs : List Byte) : (s.place bs).fsm = s.fsm := rfl
@[simp] theorem State.place_inLen (bs : List Byte) : (s.place bs).inLen = s.inLen := rfl
@[simp] theorem State.place_cs (bs : List Byte) : (s.place bs).cs = s.cs := rfl
@[simp] theorem State.place_os (bs : List Byte) : (s.place bs).os = s.os := rfl
@[simp] theorem State.place_bnd (bs : List Byte) : (s.place bs).bnd = s.bnd := rfl
@[simp] theorem State.place_bitPos (bs : List Byte) : (s.place bs).bitPos = s.bitPos := rfl
@[simp] theorem State.place_wp (bs : List Byte) : (s.place bs).wp = s.wp := rfl
@[simp] theorem State.place_lenLL (bs : List Byte) : (s.place bs).lenLL = s.lenLL := rfl
@[simp] theorem State.place_lenD (bs : List Byte) : (s.place bs).lenD = s.lenD := rfl
@[simp] theorem State.place_cntLL (bs : List Byte) : (s.place bs).cntLL = s.cntLL := rfl
@[simp] theorem State.place_cntD (bs : List Byte) : (s.place bs).cntD = s.cntD := rfl
@[simp] theorem State.place_symCount (bs : List Byte) : (s.place bs).symCount = s.symCount := rfl
@[simp] theorem State.place_out (bs : List Byte) : (s.place bs).out = s.out := rfl
@[simp] theorem State.place_host (bs : List Byte) : (s.place bs).host = s.host := rfl
@[simp] theorem State.place_fresh (bs : List Byte) : (s.place bs).fresh = s.fresh := rfl

@[simp] theorem State.fail_cfg (e : ErrorKind) : (s.fail e).cfg = s.cfg := rfl
@[simp] theorem State.fail_inp (e : ErrorKind) : (s.fail e).inp = s.inp := rfl
@[simp] theorem State.fail_fsm (e : ErrorKind) : (s.fail e).fsm = .failed e := rfl
@[simp] theorem State.fail_inLen (e : ErrorKind) : (s.fail e).inLen = s.inLen := rfl
@[simp] theorem State.fail_cs (e : ErrorKind) : (s.fail e).cs = Config.freeCs s.fresh := rfl
@[simp] theorem State.fail_os (e : ErrorKind) : (s.fail e).os = Config.freeOs s.fresh := rfl
@[simp] theorem State.fail_bnd (e : ErrorKind) : (s.fail e).bnd = s.bnd := rfl
@[simp] theorem State.fail_bitPos (e : ErrorKind) : (s.fail e).bitPos = Config.freeBitPos s.fresh := rfl
@[simp] theorem State.fail_wp (e : ErrorKind) : (s.fail e).wp = Config.freeWp s.fresh := rfl
@[simp] theorem State.fail_lenLL (e : ErrorKind) : (s.fail e).lenLL = s.lenLL := rfl
@[simp] theorem State.fail_lenD (e : ErrorKind) : (s.fail e).lenD = s.lenD := rfl
@[simp] theorem State.fail_cntLL (e : ErrorKind) : (s.fail e).cntLL = s.cntLL := rfl
@[simp] theorem State.fail_cntD (e : ErrorKind) : (s.fail e).cntD = s.cntD := rfl
@[simp] theorem State.fail_symCount (e : ErrorKind) : (s.fail e).symCount = s.symCount := rfl
@[simp] theorem State.fail_out (e : ErrorKind) : (s.fail e).out = s.out := rfl
@[simp] theorem State.fail_host (e : ErrorKind) : (s.fail e).host = s.host := rfl
@[simp] theorem State.fail_fresh (e : ErrorKind) : (s.fail e).fresh = s.fresh + 1 := rfl

@[simp] theorem State.forget_cfg : (s.forget).cfg = s.cfg := rfl
@[simp] theorem State.forget_inp : (s.forget).inp = s.inp := rfl
@[simp] theorem State.forget_fsm : (s.forget).fsm = s.fsm := rfl
@[simp] theorem State.forget_inLen : (s.forget).inLen = s.inLen := rfl
@[simp] theorem State.forget_cs : (s.forget).cs = Config.freeCs s.fresh := rfl
@[simp] theorem State.forget_os : (s.forget).os = Config.freeOs s.fresh := rfl
@[simp] theorem State.forget_bnd : (s.forget).bnd = Config.freeBnd s.fresh := rfl
@[simp] theorem State.forget_bitPos : (s.forget).bitPos = Config.freeBitPos s.fresh := rfl
@[simp] theorem State.forget_wp : (s.forget).wp = Config.freeWp s.fresh := rfl
@[simp] theorem State.forget_lenLL : (s.forget).lenLL = Sparse.fit 0 s.cfg.nll (Config.freeLenLL s.fresh) := rfl
@[simp] theorem State.forget_lenD : (s.forget).lenD = Sparse.fit 0 s.cfg.nd (Config.freeLenD s.fresh) := rfl
@[simp] theorem State.forget_cntLL : (s.forget).cntLL = Sparse.fit 0 s.cfg.nll (Config.freeCntLL s.fresh) := rfl
@[simp] theorem State.forget_cntD : (s.forget).cntD = Sparse.fit 0 s.cfg.nd (Config.freeCntD s.fresh) := rfl
@[simp] theorem State.forget_symCount : (s.forget).symCount = Config.freeSymCount s.fresh := rfl
@[simp] theorem State.forget_out : (s.forget).out = [] := rfl
@[simp] theorem State.forget_host : (s.forget).host = s.host := rfl
@[simp] theorem State.forget_fresh : (s.forget).fresh = s.fresh + 1 := rfl

@[simp] theorem State.hostReset_cfg : (s.hostReset).cfg = s.cfg := rfl
@[simp] theorem State.hostReset_inp : (s.hostReset).inp = s.inp := rfl
@[simp] theorem State.hostReset_fsm : (s.hostReset).fsm = .idle := rfl
@[simp] theorem State.hostReset_inLen : (s.hostReset).inLen = Config.freeInLen s.fresh := rfl
@[simp] theorem State.hostReset_cs : (s.hostReset).cs = Config.freeCs s.fresh := rfl
@[simp] theorem State.hostReset_os : (s.hostReset).os = Config.freeOs s.fresh := rfl
@[simp] theorem State.hostReset_bnd : (s.hostReset).bnd = Config.freeBnd s.fresh := rfl
@[simp] theorem State.hostReset_bitPos : (s.hostReset).bitPos = Config.freeBitPos s.fresh := rfl
@[simp] theorem State.hostReset_wp : (s.hostReset).wp = Config.freeWp s.fresh := rfl
@[simp] theorem State.hostReset_lenLL : (s.hostReset).lenLL = Sparse.fit 0 s.cfg.nll (Config.freeLenLL s.fresh) := rfl
@[simp] theorem State.hostReset_lenD : (s.hostReset).lenD = Sparse.fit 0 s.cfg.nd (Config.freeLenD s.fresh) := rfl
@[simp] theorem State.hostReset_cntLL : (s.hostReset).cntLL = Sparse.fit 0 s.cfg.nll (Config.freeCntLL s.fresh) := rfl
@[simp] theorem State.hostReset_cntD : (s.hostReset).cntD = Sparse.fit 0 s.cfg.nd (Config.freeCntD s.fresh) := rfl
@[simp] theorem State.hostReset_symCount : (s.hostReset).symCount = Config.freeSymCount s.fresh := rfl
@[simp] theorem State.hostReset_out : (s.hostReset).out = [] := rfl
@[simp] theorem State.hostReset_host : (s.hostReset).host = s.host := rfl
@[simp] theorem State.hostReset_fresh : (s.hostReset).fresh = s.fresh + 1 := rfl

end Sys2Proof.Machine
end

