-- ==== Sys2Proof/Laws/Res.lean ====
section
/-! SUPPORT. Sequencing primitives, and what each primitive of the spec's pseudocode can do: one lemma per shared operation, which a
proof cites instead of unfolding it. -/

namespace Sys2Proof.Machine

/-! ## Sequencing -/

section Bind

variable {α β γ : Type}

@[simp] theorem Res.bind_ok (a : α) (s : State) (k : α → State → Res β) : (Res.ok a s).bind k = k a s := rfl
@[simp] theorem Res.bind_raise (e : ErrorKind) (s : State) (k : α → State → Res β) :
    (Res.raise e s : Res α).bind k = .raise e s := rfl
@[simp] theorem Res.bind_fault (f : Fault) (k : α → State → Res β) :
    (Res.fault f : Res α).bind k = .fault f := rfl

theorem Res.bind_assoc (r : Res α) (k : α → State → Res β) (l : β → State → Res γ) :
    (r.bind k).bind l = r.bind fun a s => (k a s).bind l := by
  cases r <;> rfl

/-- A sequence that answers a value: both parts do. -/
theorem Res.bind_eq_ok {r : Res α} {k : α → State → Res β} {b : β} {t : State} :
    r.bind k = .ok b t ↔ ∃ a s, r = .ok a s ∧ k a s = .ok b t := by
  cases r <;> simp

/-- A sequence that raises: the first part does, or the second after it. -/
theorem Res.bind_eq_raise {r : Res α} {k : α → State → Res β} {e : ErrorKind} {t : State} :
    r.bind k = .raise e t ↔ r = .raise e t ∨ ∃ a s, r = .ok a s ∧ k a s = .raise e t := by
  cases r <;> simp

/-- A sequence that faults: the first part does, or the second after it. -/
theorem Res.bind_eq_fault {r : Res α} {k : α → State → Res β} {f : Fault} :
    r.bind k = .fault f ↔ r = .fault f ∨ ∃ a s, r = .ok a s ∧ k a s = .fault f := by
  cases r <;> simp

end Bind

@[simp] theorem Res.finish_ok (u : Unit) (s : State) : (Res.ok u s).finish = .next s := rfl
@[simp] theorem Res.finish_raise (e : ErrorKind) (s : State) :
    (Res.raise e s : Res Unit).finish = .next (s.fail e) := rfl
@[simp] theorem Res.finish_fault (f : Fault) : (Res.fault f : Res Unit).finish = .fault f := rfl

/-- A step whose pseudocode ran to a next state: it completed, or it raised and entered Failed. -/
theorem Res.finish_eq_next {r : Res Unit} {t : State} :
    r.finish = .next t ↔ r = .ok () t ∨ ∃ e s, r = .raise e s ∧ t = s.fail e := by
  cases r <;> simp [Res.finish, eq_comm]

/-! ## Memory -/

theorem readIn_eq_ok {s : State} {a : Nat} {b : Byte} :
    readIn s a = .ok b ↔ a < s.inLen.toNat ∧ Assoc.get? s.inp a = some b := by
  unfold readIn
  split <;> rename_i h
  · cases hg : Assoc.get? s.inp a <;> simp [h]
  · simp [h]

theorem readOut_eq_ok {s : State} {a : Nat} {b : Byte} :
    readOut s a = .ok b ↔ a < s.os.toNat ∧ Assoc.get? s.out a = some b := by
  unfold readOut
  split <;> rename_i h
  · cases hg : Assoc.get? s.out a <;> simp [h]
  · simp [h]

/-! ## The dictionary -/

/-- A 32-bit count one higher, short of its range. -/
theorem toNat_succ {x : U32} (h : x.toNat + 1 < 2 ^ 32) : (x + 1).toNat = x.toNat + 1 := by
  rw [BitVec.toNat_add, show (1 : U32).toNat = 1 from rfl, Nat.mod_eq_of_lt h]

/-- What emitting a byte can do. -/
theorem emitByte_eq_ok {b : Byte} {s t : State} {u : Unit} :
    emitByte b s = .ok u t ↔ s.wp.toNat < s.os.toNat ∧ t = s.emit b := by
  unfold emitByte
  split <;> rename_i h <;> simp [h, eq_comm]

theorem emitByte_ne_raise {b : Byte} {s t : State} {e : ErrorKind} : emitByte b s ≠ .raise e t := by
  unfold emitByte
  split <;> simp

/-- `wp + 1` does not wrap while bytes are left to emit. -/
theorem State.wp_succ {s : State} (h : s.wp.toNat < s.os.toNat) : (s.wp + 1).toNat = s.wp.toNat + 1 := by
  have := s.os.isLt
  exact toNat_succ (by omega)

theorem copyLoop_succ (distance k : Nat) (s : State) :
    copyLoop distance (k + 1) s =
      match readOut s (s.wp.toNat - distance) with
      | .error f => .fault f
      | .ok b => (emitByte b s).bind fun _ s => copyLoop distance k s := rfl

/-- What a copy that goes through has done: `wp` moved by the length, OUT written at the copied bytes alone, nothing else touched. -/
theorem copyLoop_eq_ok {distance length : Nat} {s t : State} {u : Unit}
    (h : copyLoop distance length s = .ok u t) (hw : s.wp.toNat ≤ s.os.toNat) :
    t.wp.toNat = s.wp.toNat + length ∧ t.wp.toNat ≤ t.os.toNat ∧
      (∀ a, a < s.wp.toNat ∨ s.wp.toNat + length ≤ a → Assoc.get? t.out a = Assoc.get? s.out a) ∧
      (∀ a, s.wp.toNat ≤ a → a < s.wp.toNat + length → (Assoc.get? t.out a).isSome = true) ∧
      (Memory.wf s.out → Memory.wf t.out) ∧
      t = { s with out := t.out, wp := t.wp } := by
  induction length generalizing s with
  | zero =>
    simp only [copyLoop, Res.ok.injEq, true_and] at h
    subst h
    simp [hw]; omega
  | succ k ih =>
    rw [copyLoop_succ] at h
    cases hr : readOut s (s.wp.toNat - distance) with
    | error f => simp [hr] at h
    | ok b =>
      simp only [hr] at h
      obtain ⟨_, s1, h1, h2⟩ := Res.bind_eq_ok.1 h
      obtain ⟨hlt, rfl⟩ := emitByte_eq_ok.1 h1
      have hwp := State.wp_succ hlt
      obtain ⟨hw', hle, hout, hsome, hwf, heq⟩ := ih h2 (by simp only [State.emit_wp, State.emit_os]; omega)
      simp only [State.emit_wp, State.emit_out, hwp] at hw' hout hsome
      refine ⟨by omega, hle, fun a ha => ?_, fun a ha hb => ?_, fun hm => hwf (State.wf_emit hm b), ?_⟩
      · rw [hout a (by omega), Assoc.get?_put_other _ _ (by omega)]
      · by_cases h0 : a = s.wp.toNat
        · subst h0
          rw [hout _ (by omega)]; simp
        · exact hsome a (by omega) (by omega)
      · rw [heq]; simp [State.emit]

theorem copyLoop_ne_raise {distance length : Nat} {s t : State} {e : ErrorKind} :
    copyLoop distance length s ≠ .raise e t := by
  induction length generalizing s with
  | zero => simp [copyLoop]
  | succ k ih =>
    rw [copyLoop_succ]
    cases readOut s (s.wp.toNat - distance) with
    | error f => simp
    | ok b =>
      intro h
      rcases Res.bind_eq_raise.1 h with h | ⟨_, _, _, h⟩
      · exact emitByte_ne_raise h
      · exact ih h

/-- A copy goes through when the history it reads is written and the buffer has room. -/
theorem copyLoop_completes {distance length : Nat} {s : State} (hd : 1 ≤ distance) (hdw : distance ≤ s.wp.toNat)
    (hl : s.wp.toNat + length ≤ s.os.toNat)
    (hh : ∀ a, a < s.wp.toNat → (Assoc.get? s.out a).isSome = true) :
    ∃ t, copyLoop distance length s = .ok () t := by
  induction length generalizing s with
  | zero => exact ⟨s, rfl⟩
  | succ k ih =>
    rw [copyLoop_succ]
    obtain ⟨b, hb⟩ := Option.isSome_iff_exists.1 (hh (s.wp.toNat - distance) (by omega))
    rw [readOut_eq_ok.2 ⟨by omega, hb⟩]
    have hlt : s.wp.toNat < s.os.toNat := by omega
    have hwp := State.wp_succ hlt
    simp only [emitByte, if_pos hlt, Res.bind_ok]
    refine ih ?_ ?_ ?_
    · simp only [State.emit_wp, hwp]; omega
    · simp only [State.emit_wp, State.emit_os, hwp]; omega
    · intro a ha
      simp only [State.emit_wp, hwp] at ha
      rw [State.emit_out, Assoc.get?_put]
      split
      · rfl
      · exact hh a (by omega)

/-- What `copy_back` can do: its checks raise before anything is written, else it is the copy loop. -/
theorem copyBack_cases (distance length : Nat) (s : State) :
    ((distance = 0 ∨ s.wp.toNat < distance ∨ s.os.toNat - s.wp.toNat < length) ∧
      copyBack distance length s = .raise .invalidBackReference s) ∨
    (1 ≤ distance ∧ distance ≤ s.wp.toNat ∧ length ≤ s.os.toNat - s.wp.toNat ∧
      copyBack distance length s = copyLoop distance length s) := by
  unfold copyBack
  split
  · rename_i h; left; refine ⟨by omega, rfl⟩
  · split
    · left; refine ⟨by omega, rfl⟩
    · right; refine ⟨by omega, by omega, by omega, rfl⟩

/-! ## Counters -/

/-- Counting a symbol raises its counter by one and no other. -/
theorem get_bump {cnt : Counts} (h : Assoc.Sorted cnt) (k j : Nat) :
    Sparse.get 0 (bump cnt k) j = if j = k then Sparse.get 0 cnt k + 1 else Sparse.get 0 cnt j := by
  unfold bump; rw [Sparse.get_set h]

theorem formed_bump {n : Nat} {cnt : Counts} (h : Sparse.Formed 0 n cnt) {k : Nat} (hk : k < n) :
    Sparse.Formed 0 n (bump cnt k) := Sparse.formed_set h hk _

theorem totalCount_cons (e : Nat × U32) (r : Counts) : totalCount (e :: r) = e.2.toNat + totalCount r := by
  simp [totalCount]

theorem get_le_totalCount (cnt : Counts) (k : Nat) : (Sparse.get 0 cnt k).toNat ≤ totalCount cnt := by
  induction cnt with
  | nil => simp [Sparse.get]
  | cons e r ih =>
    rw [totalCount_cons]
    simp only [Sparse.get, Assoc.get?_cons] at ih ⊢
    split
    · simp
    · omega

theorem totalCount_put_none {cnt : Counts} {k : Nat} {v : U32} (h : Assoc.get? cnt k = none) :
    totalCount (Assoc.put cnt k v) = v.toNat + totalCount cnt := by
  induction cnt with
  | nil => simp [Assoc.put, totalCount]
  | cons e r ih =>
    rw [Assoc.get?_cons] at h
    split at h
    · cases h
    · simp only [Assoc.put]
      split
      · simp [totalCount_cons]
      · rw [if_neg (by omega), totalCount_cons, totalCount_cons, ih h]; simp only; omega

theorem totalCount_put_some {cnt : Counts} {k : Nat} {v w : U32} (hs : Assoc.Sorted cnt)
    (h : Assoc.get? cnt k = some w) : totalCount (Assoc.put cnt k v) + w.toNat = v.toNat + totalCount cnt := by
  induction cnt with
  | nil => simp at h
  | cons e r ih =>
    rw [Assoc.sorted_cons] at hs
    rw [Assoc.get?_cons] at h
    simp only [Assoc.put]
    split at h
    · rename_i hk
      obtain rfl := Option.some.inj h
      rw [if_neg (by omega), if_pos hk.symm, totalCount_cons, totalCount_cons]; simp only; omega
    · have hlt : e.1 < k := hs.1 _ (Assoc.mem_of_get? h)
      rw [if_neg (by omega), if_neg (by omega), totalCount_cons, totalCount_cons]
      have := ih hs.2 h; simp only; omega

/-- Counting a symbol adds one to the file's sum, while the sum is below the counters' range. -/
theorem totalCount_bump {cnt : Counts} (hs : Assoc.Sorted cnt) (k : Nat) (h : totalCount cnt < 2 ^ 32 - 1) :
    totalCount (bump cnt k) = totalCount cnt + 1 := by
  have hle := get_le_totalCount cnt k
  have hv : (Sparse.get 0 cnt k + 1).toNat = (Sparse.get 0 cnt k).toNat + 1 := toNat_succ (by omega)
  have hne : Sparse.get 0 cnt k + 1 ≠ 0 := by
    intro h0; rw [h0] at hv; simp at hv
  unfold bump Sparse.set
  rw [if_neg hne]
  cases hg : Assoc.get? cnt k with
  | none => rw [totalCount_put_none hg, hv]; simp [Sparse.get, hg]; omega
  | some w =>
    have := totalCount_put_some (v := Sparse.get 0 cnt k + 1) hs hg
    rw [hv] at this
    have hw : Sparse.get 0 cnt k = w := by simp [Sparse.get, hg]
    rw [hw] at this ⊢; omega

end Sys2Proof.Machine
end

