-- ==== Sys2Proof/Laws/Reader.lean ====
section
/-! SUPPORT. What reading the stream can do: the BitReader's operations, the tree descent and the operands of MATCH. Each answers its value
with `bit_pos` moved on and nothing else touched. -/

namespace Sys2Proof.Machine

/-! ## Moving `bit_pos` -/

@[simp] theorem State.advance_zero (s : State) : s.advance 0 = s := by
  simp [State.advance]

theorem State.advance_advance (s : State) (m n : Nat) : (s.advance m).advance n = s.advance (m + n) := by
  simp [State.advance, BitVec.add_assoc, BitVec.ofNat_add]

theorem State.bitPos_advance {s : State} {n : Nat} (h : n ≤ s.remaining) :
    (s.advance n).bitPos.toNat = s.bitPos.toNat + n := by
  have hb := s.bnd.isLt
  have hp := s.bitPos.isLt
  unfold State.remaining at h
  rcases Nat.eq_zero_or_pos n with rfl | hn
  · simp
  · rw [State.advance_bitPos, BitVec.toNat_add, BitVec.toNat_ofNat]
    omega

theorem State.remaining_advance {s : State} {n : Nat} (h : n ≤ s.remaining) :
    (s.advance n).remaining = s.remaining - n := by
  have h1 := State.bitPos_advance h
  unfold State.remaining at h ⊢
  rw [h1, State.advance_bnd]; omega

/-- Reading moves `bit_pos` inside the payload: it stays there. -/
theorem State.bitPos_le_advance {s : State} {n : Nat} (h : n ≤ s.remaining)
    (hp : s.bitPos.toNat ≤ 8 * s.bnd.toNat) : (s.advance n).bitPos.toNat ≤ 8 * s.bnd.toNat := by
  rw [State.bitPos_advance h]; unfold State.remaining at h; omega

@[simp] theorem streamBit_advance (s : State) (n p : Nat) : streamBit (s.advance n) p = streamBit s p := rfl

@[simp] theorem streamBits_advance (s : State) (m p n v : Nat) :
    streamBits (s.advance m) p n v = streamBits s p n v := by
  induction n generalizing p v with
  | zero => rfl
  | succ n ih => simp only [streamBits, streamBit_advance, ih]

/-! ## read_bits, peek_bits, read_extra -/

theorem streamBits_succ (s : State) (p n v : Nat) :
    streamBits s p (n + 1) v =
      match streamBit s p with
      | .error f => .error f
      | .ok b => streamBits s (p + 1) n (2 * v + b.toNat) := rfl

/-- The bits a read assembles stand most significant first above nothing: the value is `v` shifted left by `n`, plus the `n` bits. -/
theorem streamBits_bound {s : State} {p n v w : Nat} (h : streamBits s p n v = .ok w) :
    v * 2 ^ n ≤ w ∧ w < (v + 1) * 2 ^ n := by
  induction n generalizing p v with
  | zero => simp only [streamBits, Except.ok.injEq] at h; subst h; simp
  | succ n ih =>
    rw [streamBits_succ] at h
    cases hb : streamBit s p with
    | error f => simp [hb] at h
    | ok b =>
      simp only [hb] at h
      have := ih h
      have hb2 : b.toNat ≤ 1 := Bool.toNat_le b
      rw [pow_succ]
      have h2 : 0 < 2 ^ n := by positivity
      constructor <;> nlinarith

/-- What `read_bits(n)` can do (40_bitreader.md R131). -/
theorem readBits_cases (n : Nat) (s : State) :
    (s.remaining < n ∧ readBits n s = .raise .truncatedInput s) ∨
    (n ≤ s.remaining ∧ ∃ f, streamBits s s.bitPos.toNat n 0 = .error f ∧ readBits n s = .fault f) ∨
    (n ≤ s.remaining ∧ ∃ v, streamBits s s.bitPos.toNat n 0 = .ok v ∧ readBits n s = .ok v (s.advance n)) := by
  unfold readBits
  split
  · exact .inl ⟨‹_›, rfl⟩
  · cases h : streamBits s s.bitPos.toNat n 0 with
    | error f => exact .inr (.inl ⟨by omega, f, rfl, rfl⟩)
    | ok v => exact .inr (.inr ⟨by omega, v, rfl, rfl⟩)

theorem readBits_eq_ok {n v : Nat} {s t : State} :
    readBits n s = .ok v t ↔ n ≤ s.remaining ∧ streamBits s s.bitPos.toNat n 0 = .ok v ∧ t = s.advance n := by
  rcases readBits_cases n s with ⟨h, hr⟩ | ⟨h, f, hf, hr⟩ | ⟨h, w, hw, hr⟩ <;> rw [hr]
  · simp; omega
  · simp [hf]
  · simp [hw, h, eq_comm]

theorem readBits_eq_raise {n : Nat} {s t : State} {e : ErrorKind} :
    readBits n s = .raise e t ↔ s.remaining < n ∧ e = .truncatedInput ∧ t = s := by
  rcases readBits_cases n s with ⟨h, hr⟩ | ⟨h, f, hf, hr⟩ | ⟨h, w, hw, hr⟩ <;> rw [hr]
  · simp [h, eq_comm]
  · simp; omega
  · simp; omega

/-- What `read_bit()` can do (R135). -/
theorem readBit_cases (s : State) :
    (s.remaining = 0 ∧ readBit s = .raise .truncatedInput s) ∨
    (1 ≤ s.remaining ∧ ∃ f, streamBit s s.bitPos.toNat = .error f ∧ readBit s = .fault f) ∨
    (1 ≤ s.remaining ∧ ∃ b : Bool, streamBit s s.bitPos.toNat = .ok b ∧
      readBit s = .ok b.toNat (s.advance 1)) := by
  have hone : streamBits s s.bitPos.toNat 1 0 = (streamBit s s.bitPos.toNat).map Bool.toNat := by
    rw [streamBits_succ]
    cases streamBit s s.bitPos.toNat <;> simp [streamBits, Except.map]
  unfold readBit
  rcases readBits_cases 1 s with ⟨h, hr⟩ | ⟨h, f, hf, hr⟩ | ⟨h, w, hw, hr⟩
  · exact .inl ⟨by omega, hr⟩
  · rw [hone] at hf
    cases hb : streamBit s s.bitPos.toNat with
    | error g => simp [hb, Except.map] at hf; exact .inr (.inl ⟨h, g, rfl, by rw [hr, hf]⟩)
    | ok b => simp [hb, Except.map] at hf
  · rw [hone] at hw
    cases hb : streamBit s s.bitPos.toNat with
    | error g => simp [hb, Except.map] at hw
    | ok b => simp [hb, Except.map] at hw; exact .inr (.inr ⟨h, b, rfl, by rw [hr, hw]⟩)

/-- What `read_extra(k)` can do (R134): it answers a value below `2^k` and moves on by `k`, or raises TruncatedInput having read nothing. -/
theorem readExtra_eq_ok {k v : Nat} {s t : State} (h : readExtra k s = .ok v t) :
    k ≤ s.remaining ∧ v < 2 ^ k ∧ t = s.advance k := by
  unfold readExtra at h
  split at h
  · subst_vars; simp only [Res.ok.injEq] at h; obtain ⟨rfl, rfl⟩ := h; simp
  · obtain ⟨h1, h2, rfl⟩ := readBits_eq_ok.1 h
    have := (streamBits_bound h2).2
    exact ⟨h1, by simpa using this, rfl⟩

theorem readExtra_eq_raise {k : Nat} {s t : State} {e : ErrorKind} (h : readExtra k s = .raise e t) :
    s.remaining < k ∧ e = .truncatedInput ∧ t = s := by
  unfold readExtra at h
  split at h
  · simp at h
  · exact readBits_eq_raise.1 h

/-! ## decode_one -/

theorem descend_succ (cs : List Codeword) (fuel l v : Nat) (s : State) :
    descend cs (fuel + 1) l v s =
      (readBit s).bind fun b s =>
        match matchCode cs (l + 1) (2 * v + b) with
        | some symbol => .ok symbol s
        | none => descend cs fuel (l + 1) (2 * v + b) s := rfl

/-- A descent that answers a symbol has read the bits of a codeword of it. -/
theorem descend_eq_ok {cs : List Codeword} {fuel l v : Nat} {s t : State} {symbol : Nat}
    (h : descend cs fuel l v s = .ok symbol t) :
    ∃ k w, 1 ≤ k ∧ k ≤ fuel ∧ k ≤ s.remaining ∧ matchCode cs (l + k) w = some symbol ∧ t = s.advance k := by
  induction fuel generalizing l v s with
  | zero => simp [descend] at h
  | succ fuel ih =>
    rw [descend_succ] at h
    rcases readBit_cases s with ⟨h0, hr⟩ | ⟨h1, f, hf, hr⟩ | ⟨h1, b, hb, hr⟩ <;> rw [hr] at h
    · simp at h
    · simp at h
    · simp only [Res.bind_ok] at h
      cases hm : matchCode cs (l + 1) (2 * v + b.toNat) with
      | some x =>
        simp only [hm, Res.ok.injEq] at h
        obtain ⟨rfl, rfl⟩ := h
        exact ⟨1, _, le_refl _, by omega, h1, hm, rfl⟩
      | none =>
        simp only [hm] at h
        obtain ⟨k, w, hk, hkf, hkr, hkm, rfl⟩ := ih h
        rw [State.remaining_advance h1] at hkr
        exact ⟨k + 1, w, by omega, by omega, by omega, by rw [← hkm]; congr 1; omega,
          by rw [State.advance_advance, Nat.add_comm]⟩

/-- A descent that raises: it read every bit the depth allows, or ran out of payload before. -/
theorem descend_eq_raise {cs : List Codeword} {fuel l v : Nat} {s t : State} {e : ErrorKind}
    (h : descend cs fuel l v s = .raise e t) :
    (e = .corruptCodeTree ∧ fuel ≤ s.remaining ∧ t = s.advance fuel) ∨
    (e = .truncatedInput ∧ s.remaining < fuel ∧ t = s.advance s.remaining) := by
  induction fuel generalizing l v s with
  | zero => simp only [descend, Res.raise.injEq] at h; left; simp [← h.1, ← h.2]
  | succ fuel ih =>
    rw [descend_succ] at h
    rcases readBit_cases s with ⟨h0, hr⟩ | ⟨h1, f, hf, hr⟩ | ⟨h1, b, hb, hr⟩ <;> rw [hr] at h
    · simp only [Res.bind_raise, Res.raise.injEq] at h
      right; simp [h0, ← h.1, ← h.2]
    · simp at h
    · simp only [Res.bind_ok] at h
      cases hm : matchCode cs (l + 1) (2 * v + b.toNat) with
      | some x => simp [hm] at h
      | none =>
        simp only [hm] at h
        rcases ih h with ⟨he, hf, ht⟩ | ⟨he, hf, ht⟩ <;> rw [State.remaining_advance h1] at hf
        · left; refine ⟨he, by omega, ?_⟩; rw [ht, State.advance_advance, Nat.add_comm]
        · right; refine ⟨he, by omega, ?_⟩
          rw [ht, State.remaining_advance h1, State.advance_advance]; congr 1; omega

/-- What `decode_one` can do when it answers a symbol: it moved on by bits the payload has. -/
theorem decodeOne_eq_ok {depth : Nat} {t : Lengths} {s s' : State} {symbol : Nat}
    (h : decodeOne depth t s = .ok symbol s') : ∃ k, k ≤ s.remaining ∧ k ≤ depth ∧ s' = s.advance k := by
  unfold decodeOne at h
  split at h
  · simp at h
  · simp only [Res.ok.injEq] at h; exact ⟨0, by omega, by omega, by simp [h.2]⟩
  · obtain ⟨k, w, _, hkf, hkr, _, rfl⟩ := descend_eq_ok h; exact ⟨k, hkr, hkf, rfl⟩

/-- The symbol `decode_one` answers is one the table lists. -/
theorem decodeOne_mem {depth : Nat} {t : Lengths} {s s' : State} {symbol : Nat}
    (h : decodeOne depth t s = .ok symbol s') : ∃ l, (symbol, l) ∈ t := by
  have hmem : ∀ (done todo : Lengths) (c : Codeword), c ∈ assignCodes t done todo → (c.symbol, c.len) ∈ todo := by
    intro done todo
    induction todo generalizing done with
    | nil => simp [assignCodes]
    | cons e r ih =>
      intro c hc
      rcases List.mem_cons.1 hc with rfl | hc
      · simp
      · exact List.mem_cons_of_mem _ (ih _ c hc)
  unfold decodeOne at h
  split at h
  · simp at h
  · rename_i hc
    simp only [Res.ok.injEq] at h
    match t, hc with
    | [e], hc => simp only [classify, TreeClass.single.injEq] at hc; exact ⟨e.2, by simp [← h.1, ← hc]⟩
  · obtain ⟨k, w, _, _, _, hm, _⟩ := descend_eq_ok h
    simp only [matchCode, Option.map_eq_some_iff] at hm
    obtain ⟨c, hc, rfl⟩ := hm
    exact ⟨c.len, hmem [] t c (List.mem_of_find?_eq_some hc)⟩

/-- What `decode_one` can do when it raises (R154): TruncatedInput or CorruptCodeTree, `bit_pos` moved on by bits the payload has. -/
theorem decodeOne_eq_raise {depth : Nat} {t : Lengths} {s s' : State} {e : ErrorKind}
    (h : decodeOne depth t s = .raise e s') :
    (e = .corruptCodeTree ∨ e = .truncatedInput) ∧ ∃ k, k ≤ s.remaining ∧ s' = s.advance k := by
  unfold decodeOne at h
  split at h
  · simp only [Res.raise.injEq] at h; exact ⟨.inl h.1.symm, 0, by omega, by simp [h.2]⟩
  · simp at h
  · rcases descend_eq_raise h with ⟨he, hf, ht⟩ | ⟨he, hf, ht⟩
    · exact ⟨.inl he, _, hf, ht⟩
    · exact ⟨.inr he, _, le_refl _, ht⟩

/-! ## The operands of MATCH -/

/-- A value read: the base and extra bits below `2^extra`. -/
theorem readValue_eq_ok {row : ExtraRow} {s t : State} {v : Nat} (h : readValue row s = .ok v t) :
    row.extra ≤ s.remaining ∧ row.base ≤ v ∧ v < row.base + 2 ^ row.extra ∧ t = s.advance row.extra := by
  obtain ⟨x, s1, h1, h2⟩ := Res.bind_eq_ok.1 h
  obtain ⟨hr, hx, rfl⟩ := readExtra_eq_ok h1
  simp only [Res.ok.injEq] at h2
  obtain ⟨rfl, rfl⟩ := h2
  exact ⟨hr, by omega, by omega, rfl⟩

theorem readValue_eq_raise {row : ExtraRow} {s t : State} {e : ErrorKind} (h : readValue row s = .raise e t) :
    e = .truncatedInput ∧ t = s := by
  rcases Res.bind_eq_raise.1 h with h | ⟨_, _, _, h⟩
  · exact (readExtra_eq_raise h).2
  · simp at h

/-- A distance read: a symbol of the D tree, counted, and its row's value. -/
theorem readDistance_eq_ok {s t : State} {d : Nat} (h : readDistance s = .ok d t) :
    ∃ j l row k, (j, l) ∈ s.lenD ∧ s.cfg.dists[j]? = some row ∧ row.base ≤ d ∧ d < row.base + 2 ^ row.extra ∧
      k ≤ s.remaining ∧ t = (s.advance k).countD j := by
  obtain ⟨j, s1, h1, h2⟩ := Res.bind_eq_ok.1 h
  obtain ⟨k, hk, _, rfl⟩ := decodeOne_eq_ok h1
  obtain ⟨l, hl⟩ := decodeOne_mem h1
  simp only [State.advance_cfg] at h2
  cases hrow : s.cfg.dists[j]? with
  | none => simp [hrow] at h2
  | some row =>
    simp only [hrow] at h2
    obtain ⟨hr, hb, hu, rfl⟩ := readValue_eq_ok h2
    have hr' : row.extra ≤ (s.advance k).remaining := hr
    rw [State.remaining_advance hk] at hr'
    refine ⟨j, l, row, k + row.extra, hl, hrow, hb, hu, by omega, ?_⟩
    rw [← State.advance_advance]; rfl

/-- Reading a distance raises TruncatedInput or CorruptCodeTree; only `bit_pos` and one D counter may have changed. -/
theorem readDistance_eq_raise {s t : State} {e : ErrorKind} (h : readDistance s = .raise e t) :
    (e = .corruptCodeTree ∨ e = .truncatedInput) ∧
      ∃ k, k ≤ s.remaining ∧ (t = s.advance k ∨ ∃ j, t = (s.advance k).countD j) := by
  rcases Res.bind_eq_raise.1 h with h | ⟨j, s1, h1, h2⟩
  · obtain ⟨he, k, hk, rfl⟩ := decodeOne_eq_raise h; exact ⟨he, k, hk, .inl rfl⟩
  · obtain ⟨k, hk, _, rfl⟩ := decodeOne_eq_ok h1
    split at h2
    · simp at h2
    · obtain ⟨rfl, rfl⟩ := readValue_eq_raise h2; exact ⟨.inr rfl, k, hk, .inr ⟨j, rfl⟩⟩

/-- The operands of a MATCH: what they are, and that reading them moves `bit_pos` and counts one D symbol, nothing else. -/
theorem readMatchOperands_eq_ok {row : ExtraRow} {s t : State} {p : Nat × Nat}
    (h : readMatchOperands row s = .ok p t) :
    row.base ≤ p.1 ∧ p.1 < row.base + 2 ^ row.extra ∧
      ∃ j l drow k, (j, l) ∈ s.lenD ∧ s.cfg.dists[j]? = some drow ∧ drow.base ≤ p.2 ∧
        p.2 < drow.base + 2 ^ drow.extra ∧ k ≤ s.remaining ∧ t = (s.advance k).countD j := by
  obtain ⟨len, s1, h1, h2⟩ := Res.bind_eq_ok.1 h
  obtain ⟨hr, hb, hu, rfl⟩ := readValue_eq_ok h1
  obtain ⟨d, s2, h3, h4⟩ := Res.bind_eq_ok.1 h2
  obtain ⟨j, l, drow, k, hmem, hrow, hdb, hdu, hk, rfl⟩ := readDistance_eq_ok h3
  simp only [Res.ok.injEq] at h4
  obtain ⟨rfl, rfl⟩ := h4
  rw [State.remaining_advance hr] at hk
  refine ⟨hb, hu, j, l, drow, row.extra + k, hmem, hrow, hdb, hdu, by omega, ?_⟩
  rw [State.advance_advance]

/-- Reading the operands of a MATCH raises TruncatedInput or CorruptCodeTree; only `bit_pos` and one D counter may have changed. -/
theorem readMatchOperands_eq_raise {row : ExtraRow} {s t : State} {e : ErrorKind}
    (h : readMatchOperands row s = .raise e t) :
    (e = .corruptCodeTree ∨ e = .truncatedInput) ∧
      ∃ k, k ≤ s.remaining ∧ (t = s.advance k ∨ ∃ j, t = (s.advance k).countD j) := by
  rcases Res.bind_eq_raise.1 h with h | ⟨len, s1, h1, h2⟩
  · obtain ⟨rfl, rfl⟩ := readValue_eq_raise h; exact ⟨.inr rfl, 0, by omega, .inl (by simp)⟩
  · obtain ⟨hr, _, _, rfl⟩ := readValue_eq_ok h1
    rcases Res.bind_eq_raise.1 h2 with h3 | ⟨_, _, _, h3⟩
    · obtain ⟨he, k, hk, ht⟩ := readDistance_eq_raise h3
      rw [State.remaining_advance hr] at hk
      refine ⟨he, row.extra + k, by omega, ?_⟩
      rw [State.advance_advance] at ht
      exact ht
    · simp at h3

end Sys2Proof.Machine
end

