-- ==== Sys2Proof/Laws/Symbols.lean ====
section
/-! SUPPORT. What the shared parts of the header step and the symbol step can do: installing a table, the rebuild, the end of a
frame, the accounting around an instruction; and what each instruction's next state is made of. -/

namespace Sys2Proof.Machine

/-! ## Trees -/

theorem formed_rebuiltLL (c : Cfg) (cnt : Counts) : Sparse.Formed 0 c.nll (rebuiltLL c cnt) :=
  Sparse.formed_fit _ _ _

theorem formed_rebuiltD (c : Cfg) (cnt : Counts) : Sparse.Formed 0 c.nd (rebuiltD c cnt) :=
  Sparse.formed_fit _ _ _

theorem installLL_cases (t : Lengths) (s : State) :
    (validTable s.cfg.maxDepthLL t = true ∧ installLL t s = .ok () (s.setLenLL t)) ∨
    (validTable s.cfg.maxDepthLL t = false ∧ installLL t s = .raise .corruptCodeTree s) := by
  unfold installLL
  cases validTable s.cfg.maxDepthLL t <;> simp

theorem installD_cases (t : Lengths) (s : State) :
    (validTable s.cfg.maxDepthD t = true ∧ installD t s = .ok () (s.setLenD t)) ∨
    (validTable s.cfg.maxDepthD t = false ∧ installD t s = .raise .corruptCodeTree s) := by
  unfold installD
  cases validTable s.cfg.maxDepthD t <;> simp

/-- Both tables installed, in order, or the first invalid one raises CorruptCodeTree. -/
theorem install_both (tLL tD : Lengths) (s : State) :
    (validTable s.cfg.maxDepthLL tLL = true ∧ validTable s.cfg.maxDepthD tD = true ∧
      ((installLL tLL s).bind fun _ s => installD tD s) = .ok () ((s.setLenLL tLL).setLenD tD)) ∨
    (validTable s.cfg.maxDepthLL tLL = false ∧
      ((installLL tLL s).bind fun _ s => installD tD s) = .raise .corruptCodeTree s) ∨
    (validTable s.cfg.maxDepthLL tLL = true ∧ validTable s.cfg.maxDepthD tD = false ∧
      ((installLL tLL s).bind fun _ s => installD tD s) = .raise .corruptCodeTree (s.setLenLL tLL)) := by
  rcases installLL_cases tLL s with ⟨h, hr⟩ | ⟨h, hr⟩ <;> rw [hr]
  · rcases installD_cases tD (s.setLenLL tLL) with ⟨h2, hr2⟩ | ⟨h2, hr2⟩
    · exact .inl ⟨h, h2, hr2⟩
    · exact .inr (.inr ⟨h, h2, hr2⟩)
  · exact .inr (.inl ⟨h, rfl⟩)

theorem rebuildTrees_eq (s : State) :
    rebuildTrees s =
      (installLL (rebuiltLL s.cfg s.cntLL) s).bind fun _ s1 => installD (rebuiltD s.cfg s.cntD) s1 := by
  unfold rebuildTrees
  rcases installLL_cases (rebuiltLL s.cfg s.cntLL) s with ⟨_, h⟩ | ⟨_, h⟩ <;> rw [h] <;> rfl

theorem installInitial_eq (s : State) :
    installInitial s = (installLL s.cfg.initLL s).bind fun _ s1 => installD s.cfg.initD s1 := by
  unfold installInitial
  rcases installLL_cases s.cfg.initLL s with ⟨_, h⟩ | ⟨_, h⟩ <;> rw [h] <;> rfl

/-! ## The end of a frame and the rebuild -/

/-- The trees after a rebuild of both. -/
def State.rebuilt (s : State) : State :=
  (s.setLenLL (rebuiltLL s.cfg s.cntLL)).setLenD (rebuiltD s.cfg s.cntD)

/-- Everything `complete_or_rebuild()` can do (43_decoder.md R209, R210). -/
theorem completeOrRebuild_cases (s : State) :
    (s.wp = s.os ∧ tailLeft s = false ∧ completeOrRebuild s = .ok () (s.enter .done)) ∨
    (s.wp = s.os ∧ tailLeft s = true ∧ completeOrRebuild s = .raise .lengthMismatch s) ∨
    (s.wp ≠ s.os ∧ rebuildDue s = false ∧ completeOrRebuild s = .ok () s) ∨
    (s.wp ≠ s.os ∧ rebuildDue s = true ∧ validTable s.cfg.maxDepthLL (rebuiltLL s.cfg s.cntLL) = true ∧
      validTable s.cfg.maxDepthD (rebuiltD s.cfg s.cntD) = true ∧ completeOrRebuild s = .ok () s.rebuilt) ∨
    (s.wp ≠ s.os ∧ rebuildDue s = true ∧
      (validTable s.cfg.maxDepthLL (rebuiltLL s.cfg s.cntLL) = false ∧
        completeOrRebuild s = .raise .corruptCodeTree s)) ∨
    (s.wp ≠ s.os ∧ rebuildDue s = true ∧
      (validTable s.cfg.maxDepthLL (rebuiltLL s.cfg s.cntLL) = true ∧
        validTable s.cfg.maxDepthD (rebuiltD s.cfg s.cntD) = false ∧
        completeOrRebuild s = .raise .corruptCodeTree (s.setLenLL (rebuiltLL s.cfg s.cntLL)))) := by
  unfold completeOrRebuild complete rebuildIfDue
  by_cases hw : s.wp = s.os
  · cases ht : tailLeft s <;> simp [hw]
  · cases hd : rebuildDue s
    · simp [hw]
    · simp only [hw, if_false, if_true, false_and, true_and, ne_eq, not_false_eq_true, false_or, Bool.true_eq_false,
        rebuildTrees_eq]
      rcases install_both (rebuiltLL s.cfg s.cntLL) (rebuiltD s.cfg s.cntD) s with
        ⟨h1, h2, h⟩ | ⟨h1, h⟩ | ⟨h1, h2, h⟩
      · exact .inl ⟨h1, h2, h⟩
      · exact .inr (.inl ⟨h1, h⟩)
      · exact .inr (.inr ⟨h1, h2, h⟩)

theorem completeOrRebuild_ne_fault (s : State) (f : Fault) : completeOrRebuild s ≠ .fault f := by
  rcases completeOrRebuild_cases s with h | h | h | h | h | h <;> simp [h]

/-- When `complete_or_rebuild()` answers, only `fsm` and the two tables can have changed. -/
theorem completeOrRebuild_eq_ok {s t : State} {u : Unit} (h : completeOrRebuild s = .ok u t) :
    t = { s with fsm := t.fsm, lenLL := t.lenLL, lenD := t.lenD } := by
  rcases completeOrRebuild_cases s with ⟨_, _, h1⟩ | ⟨_, _, h1⟩ | ⟨_, _, h1⟩ | ⟨_, _, _, _, h1⟩ | ⟨_, _, _, h1⟩ |
      ⟨_, _, _, _, h1⟩ <;> rw [h1] at h <;> simp only [Res.ok.injEq, reduceCtorEq] at h
  all_goals obtain ⟨_, rfl⟩ := h; rfl

/-- When `complete_or_rebuild()` raises, only the LL table can have changed. -/
theorem completeOrRebuild_eq_raise {s t : State} {e : ErrorKind} (h : completeOrRebuild s = .raise e t) :
    (e = .lengthMismatch ∧ s.wp = s.os ∧ tailLeft s = true ∧ t = s) ∨
    (e = .corruptCodeTree ∧ s.wp ≠ s.os ∧ rebuildDue s = true ∧ t = { s with lenLL := t.lenLL }) := by
  rcases completeOrRebuild_cases s with ⟨_, _, h1⟩ | ⟨hw, hd, h1⟩ | ⟨_, _, h1⟩ | ⟨_, _, _, _, h1⟩ | ⟨hw, hd, _, h1⟩ |
      ⟨hw, hd, _, _, h1⟩ <;> rw [h1] at h <;> simp only [Res.raise.injEq, reduceCtorEq] at h
  · obtain ⟨rfl, rfl⟩ := h; exact .inl ⟨rfl, hw, hd, rfl⟩
  · obtain ⟨rfl, rfl⟩ := h; exact .inr ⟨rfl, hw, hd, rfl⟩
  · obtain ⟨rfl, rfl⟩ := h; exact .inr ⟨rfl, hw, hd, rfl⟩

/-! ## A symbol instruction -/

/-- The next state of LIT or MATCH: the effect went through, then the frame was completed or continued; or the effect raised; or the
completion did. -/
theorem symbolInstr_cases (symbol : Nat) (effect : State → Res Unit) (s : State) :
    (∃ s1 t, effect (s.countLL symbol) = .ok () s1 ∧ completeOrRebuild s1.countInstr = .ok () t ∧
      symbolInstr symbol effect s = .ok () t) ∨
    (∃ e t, effect (s.countLL symbol) = .raise e t ∧ symbolInstr symbol effect s = .raise e t) ∨
    (∃ s1 e t, effect (s.countLL symbol) = .ok () s1 ∧ completeOrRebuild s1.countInstr = .raise e t ∧
      symbolInstr symbol effect s = .raise e t) ∨
    (∃ f, effect (s.countLL symbol) = .fault f ∧ symbolInstr symbol effect s = .fault f) := by
  unfold symbolInstr
  cases h : effect (s.countLL symbol) with
  | ok u s1 =>
    cases h2 : completeOrRebuild s1.countInstr with
    | ok v t => exact .inl ⟨s1, t, rfl, h2, h2⟩
    | raise e t => exact .inr (.inr (.inl ⟨s1, e, t, rfl, h2, h2⟩))
    | fault f => exact absurd h2 (completeOrRebuild_ne_fault _ _)
  | raise e t => exact .inr (.inl ⟨e, t, rfl, rfl⟩)
  | fault f => exact .inr (.inr (.inr ⟨f, rfl, rfl⟩))

/-- The effect of LIT: the byte is emitted. -/
theorem emitLiteral_eq_ok {b : Byte} {s t : State} {u : Unit} :
    emitLiteral b s = .ok u t ↔ s.wp.toNat < s.os.toNat ∧ t = s.emit b := emitByte_eq_ok

theorem emitLiteral_ne_raise {b : Byte} {s t : State} {e : ErrorKind} : emitLiteral b s ≠ .raise e t :=
  emitByte_ne_raise

/-- The effect of MATCH when it goes through: its operands were read, then the copy loop ran. -/
theorem matchEffect_eq_ok {row : ExtraRow} {s t : State} {u : Unit} (h : matchEffect row s = .ok u t) :
    ∃ p s1, readMatchOperands row s = .ok p s1 ∧ 1 ≤ p.2 ∧ p.2 ≤ s1.wp.toNat ∧
      p.1 ≤ s1.os.toNat - s1.wp.toNat ∧ copyLoop p.2 p.1 s1 = .ok u t := by
  obtain ⟨p, s1, h1, h2⟩ := Res.bind_eq_ok.1 h
  rcases copyBack_cases p.2 p.1 s1 with ⟨_, hc⟩ | ⟨hd, hw, hl, hc⟩ <;> rw [hc] at h2
  · simp at h2
  · exact ⟨p, s1, h1, hd, hw, hl, h2⟩

/-- The effect of MATCH when it raises: reading its operands raised, or a check of the copy failed; nothing is written to OUT. -/
theorem matchEffect_eq_raise {row : ExtraRow} {s t : State} {e : ErrorKind} (h : matchEffect row s = .raise e t) :
    (readMatchOperands row s = .raise e t ∧ (e = .corruptCodeTree ∨ e = .truncatedInput)) ∨
    (e = .invalidBackReference ∧ ∃ p, readMatchOperands row s = .ok p t ∧
      (p.2 = 0 ∨ t.wp.toNat < p.2 ∨ t.os.toNat - t.wp.toNat < p.1)) := by
  rcases Res.bind_eq_raise.1 h with h | ⟨p, s1, h1, h2⟩
  · exact .inl ⟨h, (readMatchOperands_eq_raise h).1⟩
  · rcases copyBack_cases p.2 p.1 s1 with ⟨hx, hc⟩ | ⟨_, _, _, hc⟩ <;> rw [hc] at h2
    · simp only [Res.raise.injEq] at h2
      obtain ⟨rfl, rfl⟩ := h2
      exact .inr ⟨rfl, p, h1, hx⟩
    · exact absurd h2 copyLoop_ne_raise

/-! ## The header step -/

/-- Everything the header step can do (44_frame_header.md R240), check by check. -/
theorem headerStep_cases (cs os : U32) (s : State) :
    (s.inLen.toNat < 8 ∧ headerStep cs os s = .raise .truncatedHeader s) ∨
    (8 ≤ s.inLen.toNat ∧ s.cfg.outCapacity < os.toNat ∧
      headerStep cs os s = .raise .outOfMemory (s.setSizes cs os)) ∨
    (8 ≤ s.inLen.toNat ∧ os.toNat ≤ s.cfg.outCapacity ∧
      ((validTable s.cfg.maxDepthLL s.cfg.initLL = false ∧
          headerStep cs os s = .raise .corruptCodeTree (s.setSizes cs os).clearFrame) ∨
        (validTable s.cfg.maxDepthLL s.cfg.initLL = true ∧ validTable s.cfg.maxDepthD s.cfg.initD = false ∧
          headerStep cs os s =
            .raise .corruptCodeTree ((s.setSizes cs os).clearFrame.setLenLL s.cfg.initLL)) ∨
        (validTable s.cfg.maxDepthLL s.cfg.initLL = true ∧ validTable s.cfg.maxDepthD s.cfg.initD = true ∧
          headerStep cs os s =
            beginSymbols (((s.setSizes cs os).clearFrame.setLenLL s.cfg.initLL).setLenD s.cfg.initD)))) := by
  unfold headerStep
  split
  · exact .inl ⟨‹_›, rfl⟩
  · split
    · exact .inr (.inl ⟨by omega, ‹_›, rfl⟩)
    · refine .inr (.inr ⟨by omega, by omega, ?_⟩)
      rcases install_both s.cfg.initLL s.cfg.initD (s.setSizes cs os).clearFrame with
        ⟨h1, h2, h⟩ | ⟨h1, h⟩ | ⟨h1, h2, h⟩
      · exact .inr (.inr ⟨h1, h2, by rw [installInitial_eq]; exact congrArg (Res.bind · _) h⟩)
      · exact .inl ⟨h1, by rw [installInitial_eq]; exact congrArg (Res.bind · _) h⟩
      · exact .inr (.inl ⟨h1, h2, by rw [installInitial_eq]; exact congrArg (Res.bind · _) h⟩)

/-- Where a header that passed its checks leads (R240, R244). -/
theorem beginSymbols_cases (s : State) :
    (s.os = 0 ∧ tailLeft s = true ∧ beginSymbols s = .raise .lengthMismatch s) ∨
    (s.os = 0 ∧ tailLeft s = false ∧ beginSymbols s = .ok () (s.enter .done)) ∨
    (s.os ≠ 0 ∧ beginSymbols s = .ok () (s.enter .decodingSymbols)) := by
  unfold beginSymbols complete
  by_cases h : s.os = 0
  · cases ht : tailLeft s <;> simp [h]
  · exact .inr (.inr ⟨h, if_neg h⟩)

end Sys2Proof.Machine
end

