-- ==== Sys2Proof/Laws/Step.lean ====
section
/-! SUPPORT. What a step can do: which move or fetch comes next, and what the block's own step ends in. Proofs about `step` cite these
instead of unfolding it. -/

namespace Sys2Proof.Machine

/-- What the next action is: a reset; the block's own step, after a pass or with the host's moves waiting or none pending; a frame placed; START;
or a write of another register. -/
theorem nextAction_cases (s : State) :
    (∃ rest, s.host = .reset :: rest ∧ nextAction s = .settle (.next (s.setHost rest).hostReset)) ∨
    (∃ s0, ((s0 = s ∧ (s.host = [] ∨ s.busy = true)) ∨ ∃ rest, s.host = .pass :: rest ∧ s0 = s.setHost rest) ∧
      nextAction s = blockAction s0) ∨
    (s.busy = false ∧ ∃ bytes rest, s.host = .place bytes :: rest ∧
      nextAction s = .settle (.next ((s.setHost rest).place bytes))) ∨
    (s.busy = false ∧ ∃ v rest, s.host = .write .ctrl v :: rest ∧
      nextAction s = .run (.start (v.getLsbD 0)) (s.setHost rest)) ∨
    (s.busy = false ∧ ∃ r v rest, r ≠ .ctrl ∧ s.host = .write r v :: rest ∧
      nextAction s = .settle (.next (writeReg r v (s.setHost rest)))) := by
  unfold nextAction
  rcases hh : s.host with _ | ⟨m, rest⟩
  · exact .inr (.inl ⟨s, .inl ⟨rfl, .inl rfl⟩, rfl⟩)
  · cases m with
    | reset => exact .inl ⟨rest, rfl, rfl⟩
    | pass => exact .inr (.inl ⟨_, .inr ⟨rest, rfl, rfl⟩, rfl⟩)
    | place bytes =>
      cases hb : s.busy
      · exact .inr (.inr (.inl ⟨rfl, bytes, rest, rfl, rfl⟩))
      · exact .inr (.inl ⟨s, .inl ⟨rfl, .inr rfl⟩, rfl⟩)
    | write r v =>
      cases hb : s.busy
      · cases r
        case ctrl => exact .inr (.inr (.inr (.inl ⟨rfl, v, rest, rfl, rfl⟩)))
        all_goals exact .inr (.inr (.inr (.inr ⟨rfl, _, v, rest, by simp, rfl, rfl⟩)))
      · exact .inr (.inl ⟨s, .inl ⟨rfl, .inr rfl⟩, rfl⟩)

/-- The outcome of an action. -/
def Action.outcome : Action → Host.Outcome State Fault Refusal
  | .settle o => o
  | .run i s => exec i s

theorem step_eq_outcome {s : State} (h : CfgOk s.cfg) : step s = (nextAction s).outcome := by
  unfold step
  rw [h]
  cases nextAction s <;> rfl

theorem step_eq_next_cfgOk {s t : State} (h : step s = .next t) : CfgOk s.cfg := by
  unfold step at h
  cases hv : violated s.cfg with
  | none => exact hv
  | some r => simp [hv] at h

/-- Everything the block's own step can end in, short of a fault or a refusal. -/
theorem blockAction_eq_next {s t : State} (h : (blockAction s).outcome = .next t) :
    (s.busy = false ∧ t = s) ∨
    (s.fsm = .readingHeader ∧ s.inLen.toNat < 8 ∧ t = s.fail .truncatedHeader) ∨
    (s.fsm = .readingHeader ∧ 8 ≤ s.inLen.toNat ∧ ∃ bytes cs os, readInBytes s 0 8 = .ok bytes ∧
      decodeHeader bytes = .ok (.frameHeader cs os) ∧ exec (.frameHeader cs os) s = .next t) ∨
    (s.fsm = .decodingSymbols ∧ ∃ e s1, decodeLL s = .raise e s1 ∧ t = s1.fail e) ∨
    (s.fsm = .decodingSymbols ∧ ∃ symbol s1, decodeLL s = .ok symbol s1 ∧ symbol < 256 ∧
      exec (.lit (BitVec.ofNat 8 symbol)) s1 = .next t) ∨
    (s.fsm = .decodingSymbols ∧ ∃ i s1, decodeLL s = .ok (256 + i) s1 ∧ 256 + i < s.cfg.nll ∧
      exec (.matchRef i) s1 = .next t) := by
  unfold blockAction at h
  cases hf : s.fsm with
  | readingHeader =>
    simp only [hf, fetchHeader] at h
    split at h
    · simp only [Action.outcome, Host.Outcome.next.injEq] at h
      exact .inr (.inl ⟨rfl, ‹_›, h.symm⟩)
    · cases hb : readInBytes s 0 8 with
      | error f => simp [hb, Action.outcome] at h
      | ok bytes =>
        simp only [hb, decode] at h
        cases hd : decodeHeader bytes with
        | error r => simp [hd, runDecoded, Action.outcome] at h
        | ok i =>
          simp only [hd, runDecoded, Action.outcome] at h
          have hi : ∃ cs os, i = .frameHeader cs os := by
            unfold decodeHeader at hd
            split at hd
            · simp only [Except.ok.injEq] at hd; exact ⟨_, _, hd.symm⟩
            · simp at hd
          obtain ⟨cs, os, rfl⟩ := hi
          exact .inr (.inr (.inl ⟨rfl, by omega, bytes, cs, os, rfl, hd, h⟩))
  | decodingSymbols =>
    simp only [hf, fetchSymbol] at h
    cases hd : decodeLL s with
    | raise e s1 =>
      simp only [hd, Action.outcome, Host.Outcome.next.injEq] at h
      exact .inr (.inr (.inr (.inl ⟨rfl, e, s1, rfl, h.symm⟩)))
    | fault f => simp [hd, Action.outcome] at h
    | ok symbol s1 =>
      simp only [hd, decode, decodeSymbol] at h
      split at h
      · exact .inr (.inr (.inr (.inr (.inl ⟨rfl, symbol, s1, rfl, ‹_›, h⟩))))
      · split at h
        · exact .inr (.inr (.inr (.inr (.inr ⟨rfl, symbol - 256, s1,
            by rw [show 256 + (symbol - 256) = symbol by omega],
            by rw [show 256 + (symbol - 256) = symbol by omega]; assumption, h⟩))))
        · simp [runDecoded, Action.outcome] at h
  | idle => simp only [hf, Action.outcome, Host.Outcome.next.injEq] at h; exact .inl ⟨by simp [State.busy, hf], h.symm⟩
  | done => simp only [hf, Action.outcome, Host.Outcome.next.injEq] at h; exact .inl ⟨by simp [State.busy, hf], h.symm⟩
  | failed e => simp only [hf, Action.outcome, Host.Outcome.next.injEq] at h; exact .inl ⟨by simp [State.busy, hf], h.symm⟩

/-- Everything a step can end in, short of a fault or a refusal: a move of the host, or the block's own step in the state `s0`, which is `s` but for
a pass taken from the host's moves. -/
theorem step_eq_next {s t : State} (h : step s = .next t) :
    CfgOk s.cfg ∧
    ((∃ rest, s.host = .reset :: rest ∧ t = (s.setHost rest).hostReset) ∨
     (∃ s0, ((s0 = s ∧ (s.host = [] ∨ s.busy = true)) ∨ ∃ rest, s.host = .pass :: rest ∧ s0 = s.setHost rest) ∧
      (blockAction s0).outcome = .next t) ∨
     (s.busy = false ∧ ∃ bytes rest, s.host = .place bytes :: rest ∧ t = (s.setHost rest).place bytes) ∨
     (s.busy = false ∧ ∃ v rest, s.host = .write .ctrl v :: rest ∧
      exec (.start (v.getLsbD 0)) (s.setHost rest) = .next t) ∨
     (s.busy = false ∧ ∃ r v rest, r ≠ .ctrl ∧ s.host = .write r v :: rest ∧ t = writeReg r v (s.setHost rest))) := by
  have hc := step_eq_next_cfgOk h
  refine ⟨hc, ?_⟩
  rw [step_eq_outcome hc] at h
  rcases nextAction_cases s with ⟨rest, hh, ha⟩ | ⟨s0, hs, ha⟩ | ⟨hb, bytes, rest, hh, ha⟩ | ⟨hb, v, rest, hh, ha⟩ |
      ⟨hb, r, v, rest, hr, hh, ha⟩ <;> rw [ha] at h
  · simp only [Action.outcome, Host.Outcome.next.injEq] at h; exact .inl ⟨rest, hh, h.symm⟩
  · exact .inr (.inl ⟨s0, hs, h⟩)
  · simp only [Action.outcome, Host.Outcome.next.injEq] at h; exact .inr (.inr (.inl ⟨hb, bytes, rest, hh, h.symm⟩))
  · exact .inr (.inr (.inr (.inl ⟨hb, v, rest, hh, h⟩)))
  · simp only [Action.outcome, Host.Outcome.next.injEq] at h
    exact .inr (.inr (.inr (.inr ⟨hb, r, v, rest, hr, hh, h.symm⟩)))

/-- What START can end in (43_decoder.md R201): nothing done, or a frame begun from a state that is not BUSY. -/
theorem execStart_eq_next {go : Bool} {s t : State} (h : exec (.start go) s = .next t) :
    (go = false ∧ t = s) ∨ (go = true ∧ s.busy = false ∧ t = s.forget.enter .readingHeader) := by
  cases go with
  | false => simp only [exec, execStart, Bool.false_eq_true, if_false, Host.Outcome.next.injEq] at h; exact .inl ⟨rfl, h.symm⟩
  | true =>
    simp only [exec, execStart, if_true] at h
    split at h
    · simp at h
    · rename_i hb
      simp only [Host.Outcome.next.injEq] at h
      exact .inr ⟨rfl, by simpa using hb, h.symm⟩

/-- What FRAME_HEADER can end in (44_frame_header.md R240). -/
theorem execFrameHeader_eq_next {cs os : U32} {s t : State} (h : exec (.frameHeader cs os) s = .next t) :
    s.fsm = .readingHeader ∧ (headerStep cs os s).finish = .next t := by
  simp only [exec, execFrameHeader] at h
  split at h
  · exact ⟨‹_›, h⟩
  · simp at h

/-- What LIT can end in (43_decoder.md R203, R204): the byte emitted and the instruction counted, then the frame completed or continued, or the
completion raising. -/
theorem execLit_eq_next {b : Byte} {s t : State} (h : exec (.lit b) s = .next t) :
    s.fsm = .decodingSymbols ∧ s.wp.toNat < s.os.toNat ∧
    (completeOrRebuild ((s.countLL b.toNat).emit b).countInstr = .ok () t ∨
     ∃ e s1, completeOrRebuild ((s.countLL b.toNat).emit b).countInstr = .raise e s1 ∧ t = s1.fail e) := by
  simp only [exec, execLit] at h
  split at h
  · refine ⟨‹_›, ?_⟩
    rcases symbolInstr_cases b.toNat (emitLiteral b) s with ⟨s1, u, h1, h2, hr⟩ | ⟨e, u, h1, hr⟩ | ⟨s1, e, u, h1, h2, hr⟩ |
        ⟨f, h1, hr⟩ <;> rw [hr] at h
    · obtain ⟨hlt, rfl⟩ := emitLiteral_eq_ok.1 h1
      simp only [Res.finish_ok, Host.Outcome.next.injEq] at h; subst h
      exact ⟨hlt, .inl h2⟩
    · exact absurd h1 emitLiteral_ne_raise
    · obtain ⟨hlt, rfl⟩ := emitLiteral_eq_ok.1 h1
      simp only [Res.finish_raise, Host.Outcome.next.injEq] at h
      exact ⟨hlt, .inr ⟨e, u, h2, h.symm⟩⟩
    · simp at h
  · simp at h

/-- What MATCH can end in (43_decoder.md R203, R205): the copy made and the instruction counted, then the frame completed or continued, or the completion
raising; or the operands or a check of the copy raising. -/
theorem execMatchRef_eq_next {i : Nat} {s t : State} (h : exec (.matchRef i) s = .next t) :
    s.fsm = .decodingSymbols ∧ ∃ row, s.cfg.lens[i]? = some row ∧
    ((∃ s1, matchEffect row (s.countLL (256 + i)) = .ok () s1 ∧
      (completeOrRebuild s1.countInstr = .ok () t ∨
       ∃ e s2, completeOrRebuild s1.countInstr = .raise e s2 ∧ t = s2.fail e)) ∨
     ∃ e s1, matchEffect row (s.countLL (256 + i)) = .raise e s1 ∧ t = s1.fail e) := by
  simp only [exec, execMatchRef] at h
  split at h
  · refine ⟨‹_›, ?_⟩
    cases hrow : s.cfg.lens[i]? with
    | none => simp [hrow] at h
    | some row =>
      simp only [hrow] at h
      refine ⟨row, rfl, ?_⟩
      rcases symbolInstr_cases (256 + i) (matchEffect row) s with ⟨s1, u, h1, h2, hr⟩ | ⟨e, u, h1, hr⟩ |
          ⟨s1, e, u, h1, h2, hr⟩ | ⟨f, h1, hr⟩ <;> rw [hr] at h
      · simp only [Res.finish_ok, Host.Outcome.next.injEq] at h; subst h
        exact .inl ⟨s1, h1, .inl h2⟩
      · simp only [Res.finish_raise, Host.Outcome.next.injEq] at h
        exact .inr ⟨e, u, h1, h.symm⟩
      · simp only [Res.finish_raise, Host.Outcome.next.injEq] at h
        exact .inl ⟨s1, h1, .inr ⟨e, u, h2, h.symm⟩⟩
      · simp at h
  · simp at h

end Sys2Proof.Machine
end

