-- ==== Sys2Proof/Laws/Next.lean ====
section
/-! SUPPORT. What an instruction, and the block's own step, leave of a state: the state a next state is made of, and the environment
(configuration, IN, IN_LEN, the host's moves) it never touches. -/

namespace Sys2Proof.Machine

/-! ## The effect of MATCH -/

/-- Reading the operands of a MATCH writes `bit_pos` and the D counters alone. -/
theorem readMatchOperands_ok_frame {row : ExtraRow} {s t : State} {p : Nat × Nat} (h : readMatchOperands row s = .ok p t) :
    ∃ k, k ≤ s.remaining ∧ t = { s with bitPos := t.bitPos, cntD := t.cntD } ∧ t.bitPos = (s.advance k).bitPos := by
  obtain ⟨_, _, j, _, _, k, _, _, _, _, hk, rfl⟩ := readMatchOperands_eq_ok h
  exact ⟨k, hk, rfl, rfl⟩

theorem readMatchOperands_raise_frame {row : ExtraRow} {s t : State} {e : ErrorKind}
    (h : readMatchOperands row s = .raise e t) : t = { s with bitPos := t.bitPos, cntD := t.cntD } := by
  obtain ⟨_, k, _, rfl | ⟨j, rfl⟩⟩ := readMatchOperands_eq_raise h <;> rfl

/-- The copy loop, where the length fits: it writes OUT and `wp` alone, and of OUT only the copied bytes. -/
theorem copyLoop_ok_frame {distance length : Nat} {s t : State} {u : Unit} (h : copyLoop distance length s = .ok u t)
    (hl : length ≤ s.os.toNat - s.wp.toNat) :
    t = { s with out := t.out, wp := t.wp } ∧
      (∀ a, a < s.wp.toNat ∨ s.wp.toNat + length ≤ a → Assoc.get? t.out a = Assoc.get? s.out a) ∧
      t.wp.toNat = s.wp.toNat + length := by
  by_cases hws : s.wp.toNat ≤ s.os.toNat
  · have := copyLoop_eq_ok h hws
    exact ⟨this.2.2.2.2.2, this.2.2.1, this.1⟩
  · have : length = 0 := by omega
    subst this
    simp only [copyLoop, Res.ok.injEq] at h
    rw [← h.2]; simp

/-- The effect of MATCH when it goes through: the operands it read, the copy it made, all that it wrote. -/
theorem matchEffect_ok_frame {row : ExtraRow} {s t : State} (h : matchEffect row s = .ok () t) :
    ∃ p s1, readMatchOperands row s = .ok p s1 ∧ 1 ≤ p.2 ∧ p.2 ≤ s.wp.toNat ∧ p.1 ≤ s.os.toNat - s.wp.toNat ∧
      copyLoop p.2 p.1 s1 = .ok () t ∧ t = { s1 with out := t.out, wp := t.wp } ∧
      t = { s with bitPos := t.bitPos, cntD := t.cntD, out := t.out, wp := t.wp } ∧
      (∀ a, a < s.wp.toNat ∨ s.wp.toNat + p.1 ≤ a → Assoc.get? t.out a = Assoc.get? s.out a) ∧
      t.wp.toNat = s.wp.toNat + p.1 ∧ ∃ k, k ≤ s.remaining ∧ t.bitPos = (s.advance k).bitPos := by
  obtain ⟨p, s2, h1, hd, hw, hl, h2⟩ := matchEffect_eq_ok h
  obtain ⟨k, hk, e1, e2⟩ := readMatchOperands_ok_frame h1
  have e3 := copyLoop_ok_frame h2 hl
  have hwp : s2.wp = s.wp := by rw [e1]
  have hos : s2.os = s.os := by rw [e1]
  have hout : s2.out = s.out := by rw [e1]
  refine ⟨p, s2, h1, hd, by rwa [hwp] at hw, by rwa [hwp, hos] at hl, h2, e3.1, ?_, ?_, ?_, k, hk, ?_⟩
  · rw [e3.1, e1]
  · rw [← hwp, ← hout]; exact e3.2.1
  · rw [← hwp]; exact e3.2.2
  · rw [e3.1]; exact e2

theorem matchEffect_raise_frame {row : ExtraRow} {s t : State} {e : ErrorKind} (h : matchEffect row s = .raise e t) :
    t = { s with bitPos := t.bitPos, cntD := t.cntD } := by
  rcases matchEffect_eq_raise h with ⟨h2, _⟩ | ⟨_, p, h2, _⟩
  · exact readMatchOperands_raise_frame h2
  · obtain ⟨_, _, h, _⟩ := readMatchOperands_ok_frame h2; exact h

/-! ## LIT and MATCH -/

/-- What ends an instruction that went through: a state `u` that differs from the counted one in `fsm` and the tables at most, taken as it is or
failed. -/
theorem finished_frame {x t : State}
    (h : completeOrRebuild x = .ok () t ∨ ∃ e s1, completeOrRebuild x = .raise e s1 ∧ t = s1.fail e) :
    ∃ u, u = { x with fsm := u.fsm, lenLL := u.lenLL, lenD := u.lenD } ∧ (t = u ∨ ∃ e, t = u.fail e) := by
  rcases h with h | ⟨e, s1, h, rfl⟩
  · exact ⟨t, completeOrRebuild_eq_ok h, .inl rfl⟩
  · refine ⟨s1, ?_, .inr ⟨e, rfl⟩⟩
    rcases completeOrRebuild_eq_raise h with ⟨_, _, _, rfl⟩ | ⟨_, _, _, h3⟩
    · rfl
    · rw [h3]

/-- The trees of that next state: as they were, or what the rebuild that was due leaves. -/
theorem finished_trees {x t : State}
    (h : completeOrRebuild x = .ok () t ∨ ∃ e s1, completeOrRebuild x = .raise e s1 ∧ t = s1.fail e) :
    (x.wp = x.os ∨ rebuildDue x = false → t.lenLL = x.lenLL ∧ t.lenD = x.lenD) ∧
      (x.wp ≠ x.os → rebuildDue x = true → x.RebuildsInto t) := by
  unfold State.RebuildsInto
  rcases completeOrRebuild_cases x with ⟨h0, _, h1⟩ | ⟨h0, _, h1⟩ | ⟨_, h0, h1⟩ | ⟨hw, hd, v1, v2, h1⟩ | ⟨hw, hd, v1, h1⟩ |
      ⟨hw, hd, v1, v2, h1⟩ <;> rw [h1] at h <;>
    simp only [Res.ok.injEq, Res.raise.injEq, reduceCtorEq, false_and, exists_false, or_false, false_or, true_and] at h <;>
    first | subst h | obtain ⟨e, s1, ⟨rfl, rfl⟩, rfl⟩ := h
  · exact ⟨fun _ => ⟨rfl, rfl⟩, fun h => absurd h0 h⟩
  · exact ⟨fun _ => ⟨rfl, rfl⟩, fun h => absurd h0 h⟩
  · exact ⟨fun _ => ⟨rfl, rfl⟩, fun _ h => by simp [h0] at h⟩
  · refine ⟨fun h => by simp [hw, hd] at h, fun _ _ => ?_⟩
    rw [show x.rebuilt.cntLL = x.cntLL from rfl, show x.rebuilt.cntD = x.cntD from rfl, v1, v2]
    exact ⟨rfl, rfl⟩
  · refine ⟨fun h => by simp [hw, hd] at h, fun _ _ => ?_⟩
    rw [show (x.fail .corruptCodeTree).cntLL = x.cntLL from rfl, v1]
    exact ⟨rfl, by simp [State.fail]⟩
  · refine ⟨fun h => by simp [hw, hd] at h, fun _ _ => ?_⟩
    rw [show ((x.setLenLL (rebuiltLL x.cfg x.cntLL)).fail .corruptCodeTree).cntLL = x.cntLL from rfl,
      show ((x.setLenLL (rebuiltLL x.cfg x.cntLL)).fail .corruptCodeTree).cntD = x.cntD from rfl, v1, v2]
    exact ⟨rfl, by simp [State.fail, State.setLenLL]⟩

/-- Where it ends. -/
theorem finished_fsm {x t : State}
    (h : completeOrRebuild x = .ok () t ∨ ∃ e s1, completeOrRebuild x = .raise e s1 ∧ t = s1.fail e) :
    (x.wp = x.os → (tailLeft x = false → t.fsm = .done) ∧ (tailLeft x = true → t.fsm = .failed .lengthMismatch)) ∧
      (x.wp ≠ x.os →
        (rebuildDue x = false ∨ x.RebuildsValid t.cntLL t.cntD → t.fsm = x.fsm) ∧
          (rebuildDue x = true → ¬ x.RebuildsValid t.cntLL t.cntD → t.fsm = .failed .corruptCodeTree)) := by
  obtain ⟨u, hu, ht⟩ := finished_frame h
  have hLL : t.cntLL = x.cntLL := by rcases ht with rfl | ⟨e, rfl⟩ <;> (try show u.cntLL = _) <;> rw [hu]
  have hD : t.cntD = x.cntD := by rcases ht with rfl | ⟨e, rfl⟩ <;> (try show u.cntD = _) <;> rw [hu]
  rw [hLL, hD]
  unfold State.RebuildsValid
  rcases completeOrRebuild_cases x with ⟨h0, h2, h1⟩ | ⟨h0, h2, h1⟩ | ⟨hw, h0, h1⟩ | ⟨hw, hd, v1, v2, h1⟩ | ⟨hw, hd, v1, h1⟩ |
      ⟨hw, hd, v1, v2, h1⟩ <;> rw [h1] at h <;>
    simp only [Res.ok.injEq, Res.raise.injEq, reduceCtorEq, false_and, exists_false, or_false, false_or, true_and] at h <;>
    first | subst h | obtain ⟨e, s1, ⟨rfl, rfl⟩, rfl⟩ := h
  · exact ⟨fun _ => ⟨fun _ => rfl, by simp [h2]⟩, fun h => absurd h0 h⟩
  · exact ⟨fun _ => ⟨by simp [h2], fun _ => rfl⟩, fun h => absurd h0 h⟩
  · exact ⟨fun h => absurd h hw, fun _ => ⟨fun _ => rfl, by simp [h0]⟩⟩
  · exact ⟨fun h => absurd h hw, fun _ => ⟨fun _ => rfl, fun _ h => absurd ⟨v1, v2⟩ h⟩⟩
  · exact ⟨fun h => absurd h hw, fun _ => ⟨by simp [hd, v1], fun _ _ => rfl⟩⟩
  · exact ⟨fun h => absurd h hw, fun _ => ⟨by simp [hd, v2], fun _ _ => rfl⟩⟩

/-- The next state of LIT, but for `fsm` and the tables: the byte emitted, everything counted. -/
theorem execLit_frame {b : Byte} {s t : State} (h : exec (.lit b) s = .next t) :
    s.fsm = .decodingSymbols ∧ s.wp.toNat < s.os.toNat ∧
      ∃ u, u = { ((s.countLL b.toNat).emit b).countInstr with fsm := u.fsm, lenLL := u.lenLL, lenD := u.lenD } ∧
        (t = u ∨ ∃ e, t = u.fail e) := by
  obtain ⟨h0, h1, h2⟩ := execLit_eq_next h
  exact ⟨h0, h1, finished_frame h2⟩

/-- The next state of MATCH, but for `fsm` and the tables: the effect made and everything counted, or the state its raise left. -/
theorem execMatchRef_frame {i : Nat} {s t : State} (h : exec (.matchRef i) s = .next t) :
    s.fsm = .decodingSymbols ∧ ∃ row, s.cfg.lens[i]? = some row ∧
      ((∃ s1 u, matchEffect row (s.countLL (256 + i)) = .ok () s1 ∧
          u = { s1.countInstr with fsm := u.fsm, lenLL := u.lenLL, lenD := u.lenD } ∧ (t = u ∨ ∃ e, t = u.fail e)) ∨
        ∃ e u, matchEffect row (s.countLL (256 + i)) = .raise e u ∧ t = u.fail e) := by
  obtain ⟨h0, row, hrow, ⟨s1, h1, h2⟩ | ⟨e, s1, h1, rfl⟩⟩ := execMatchRef_eq_next h
  · obtain ⟨u, hu, ht⟩ := finished_frame h2
    exact ⟨h0, row, hrow, .inl ⟨s1, u, h1, hu, ht⟩⟩
  · exact ⟨h0, row, hrow, .inr ⟨e, s1, h1, rfl⟩⟩

/-! ## The environment -/

/-- The configuration, IN, IN_LEN and the host's moves are the same. -/
def SameEnv (s t : State) : Prop := t.cfg = s.cfg ∧ t.inp = s.inp ∧ t.inLen = s.inLen ∧ t.host = s.host

theorem SameEnv.rfl' (s : State) : SameEnv s s := ⟨rfl, rfl, rfl, rfl⟩

theorem SameEnv.trans {s t u : State} (h : SameEnv s t) (k : SameEnv t u) : SameEnv s u :=
  ⟨k.1.trans h.1, k.2.1.trans h.2.1, k.2.2.1.trans h.2.2.1, k.2.2.2.trans h.2.2.2⟩

theorem SameEnv.fail {s t : State} (h : SameEnv s t) (e : ErrorKind) : SameEnv s (t.fail e) := h

/-- No instruction touches the environment. -/
theorem exec_sameEnv {i : Instr} {s t : State} (h : exec i s = .next t) : SameEnv s t := by
  cases i with
  | frameHeader cs os =>
    obtain ⟨_, h3⟩ := execFrameHeader_eq_next h
    rcases headerStep_cases cs os s with ⟨_, hs⟩ | ⟨_, _, hs⟩ | ⟨_, _, ⟨_, hs⟩ | ⟨_, _, hs⟩ | ⟨_, _, hs⟩⟩ <;> rw [hs] at h3
    any_goals
      simp only [Res.finish_raise, Host.Outcome.next.injEq] at h3; subst h3; exact ⟨rfl, rfl, rfl, rfl⟩
    rcases beginSymbols_cases (((s.setSizes cs os).clearFrame.setLenLL s.cfg.initLL).setLenD s.cfg.initD) with
        ⟨_, _, h4⟩ | ⟨_, _, h4⟩ | ⟨_, h4⟩ <;> rw [h4] at h3 <;>
      simp only [Res.finish_raise, Res.finish_ok, Host.Outcome.next.injEq] at h3 <;> subst h3 <;>
      exact ⟨rfl, rfl, rfl, rfl⟩
  | start go =>
    rcases execStart_eq_next h with ⟨_, rfl⟩ | ⟨_, _, rfl⟩ <;> exact ⟨rfl, rfl, rfl, rfl⟩
  | lit b =>
    obtain ⟨_, _, u, hu, ht⟩ := execLit_frame h
    have hsu : SameEnv s u := by rw [hu]; exact ⟨rfl, rfl, rfl, rfl⟩
    rcases ht with rfl | ⟨e, rfl⟩
    · exact hsu
    · exact hsu.fail e
  | matchRef i =>
    obtain ⟨_, row, _, ⟨s1, u, h1, hu, ht⟩ | ⟨e, u, h1, rfl⟩⟩ := execMatchRef_frame h
    · obtain ⟨p, s2, _, _, _, _, _, _, e1, _⟩ := matchEffect_ok_frame h1
      have hsu : SameEnv s u := by rw [hu, e1]; exact ⟨rfl, rfl, rfl, rfl⟩
      rcases ht with rfl | ⟨e, rfl⟩
      · exact hsu
      · exact hsu.fail e
    · apply SameEnv.fail; rw [matchEffect_raise_frame h1]; exact ⟨rfl, rfl, rfl, rfl⟩

/-- Nor does the block's own step. -/
theorem blockAction_sameEnv {s t : State} (h : (blockAction s).outcome = .next t) : SameEnv s t := by
  rcases blockAction_eq_next h with ⟨_, rfl⟩ | ⟨_, _, rfl⟩ | ⟨_, _, _, cs, os, _, _, h2⟩ | ⟨_, e, s1, h2, rfl⟩ |
      ⟨_, x, s1, hd, _, h2⟩ | ⟨_, i, s1, hd, _, h2⟩
  · exact SameEnv.rfl' _
  · exact (SameEnv.rfl' _).fail _
  · exact exec_sameEnv h2
  · obtain ⟨_, k, _, rfl⟩ := decodeOne_eq_raise h2; exact ⟨rfl, rfl, rfl, rfl⟩
  · obtain ⟨k, _, _, rfl⟩ := decodeOne_eq_ok hd
    exact (show SameEnv s (s.advance k) from ⟨rfl, rfl, rfl, rfl⟩).trans (exec_sameEnv h2)
  · obtain ⟨k, _, _, rfl⟩ := decodeOne_eq_ok hd
    exact (show SameEnv s (s.advance k) from ⟨rfl, rfl, rfl, rfl⟩).trans (exec_sameEnv h2)

/-- A step with no move of the host pending is the block's own. -/
theorem step_eq_blockAction {s t : State} (hh : s.host = []) (h : step s = .next t) :
    CfgOk s.cfg ∧ (blockAction s).outcome = .next t := by
  obtain ⟨hc, ⟨rest, hh', rfl⟩ | ⟨s0, hs, h'⟩ | ⟨_, _, _, hh', _⟩ | ⟨_, _, _, hh', _⟩ | ⟨_, _, _, _, _, hh', _⟩⟩ :=
    step_eq_next h
  · simp [hh] at hh'
  · rcases hs with ⟨rfl, _⟩ | ⟨rest, hh', rfl⟩
    · exact ⟨hc, h'⟩
    · simp [hh] at hh'
  all_goals simp [hh] at hh'

end Sys2Proof.Machine
end

