-- ==== Sys2Proof/Laws/PerInstr.lean ====
section
/-! SUPPORT. What holds of every instruction as syntax, one lemma per constructor: its word fits the bits spec/opcode_table.json gives its
row (30_encoding.md R113). -/

namespace Sys2Proof.Laws.Fits

open Sys2Proof Sys2Proof.Machine

/-- A well-formed instruction's word fits the bits of its row. -/
def Statement (i : Instr) : Prop := ∀ c : Cfg, CfgOk c → i.WellFormed c → tableWord i < 2 ^ tableBits i

theorem frameHeader (cs os : U32) : Statement (.frameHeader cs os) := by
  intro c _ _
  have := cs.isLt
  have := os.isLt
  simp only [tableWord, tableBits]; omega

theorem lit (b : Byte) : Statement (.lit b) := by
  intro c _ _
  have := b.isLt
  simp only [tableWord, tableBits]; omega

theorem matchRef (i : Nat) : Statement (.matchRef i) := by
  intro c hc hi
  have := hc.facts.nllMax
  have : 256 + i < c.nll := by
    by_contra h
    simp [Instr.WellFormed, Instr.illFormed, h] at hi
  simp only [tableWord, tableBits]; omega

theorem start (go : Bool) : Statement (.start go) := by
  intro c _ _
  cases go <;> simp [tableWord, tableBits]

end Sys2Proof.Laws.Fits
end

