-- ==== Sys2Proof/Tests/Slice0.lean ====
section
/-! SUPPORT. Tests of one step or one primitive, expected values from the spec's worked examples (named in each comment), and for every obligation
with hypotheses a witness that meets them. -/

namespace Sys2Proof.Tests

open Sys2Proof Sys2Proof.Machine

/-! ## Small configurations and states -/

/-- The configuration TC0 (95_test_vectors.md). -/
def tc0 : Cfg where
  nll := 258
  nd := 2
  maxDepthLL := 4
  maxDepthD := 4
  lens := [⟨1, 4⟩, ⟨17, 0⟩]
  dists := [⟨1, 0⟩, ⟨2, 3⟩]
  initLL := [(0x41, 2), (0x42, 2), (0x43, 3), (256, 2), (257, 3)]
  initD := [(0, 1), (1, 1)]
  rebuildPeriod := 0
  rebuildLL := []
  rebuildD := []
  windowSize := 16
  outCapacity := 2 ^ 32 - 1
  tailCheck := .none

/-- A configuration that rebuilds after every instruction: the mapping of TC1 (41_codetree.md R156, example) at one 'B'. -/
def tc1 : Cfg :=
  { tc0 with
    rebuildPeriod := 1
    rebuildLL := [⟨[(0x42, 1)], [(0x41, 3), (0x42, 1), (0x43, 3), (256, 3), (257, 3)]⟩]
    rebuildD := [⟨[], [(0, 1), (1, 1)]⟩] }

/-- The block reading the header of the given frame. -/
def headerOf (bytes : List Byte) : State :=
  { State.reset with
    cfg := tc0, inp := Memory.ofBytes 0 bytes, inLen := BitVec.ofNat 32 bytes.length, fsm := .readingHeader }

/-- The block decoding symbols: nothing of the payload consumed, the given bytes emitted, both trees the initial ones. -/
def symbolsOf (payload history : List Byte) (os : U32) : State :=
  { State.reset with
    cfg := tc0
    inp := Memory.ofBytes 0 (List.replicate 8 0 ++ payload)
    inLen := BitVec.ofNat 32 (8 + payload.length)
    fsm := .decodingSymbols
    os := os
    bnd := BitVec.ofNat 32 payload.length
    wp := BitVec.ofNat 32 history.length
    out := Memory.ofBytes 0 history
    lenLL := tc0.initLL
    lenD := tc0.initD }

/-- The block doing nothing, with the given moves of the host pending. -/
def idleWith (moves : List HostMove) : State := { State.reset with cfg := tc0, host := moves }

/-- The next state, if the outcome is one. -/
def nextOf (o : Host.Outcome State Fault Refusal) : Option State :=
  match o with
  | .next s => some s
  | .fault _ | .refused _ => none

/-- The value of a primitive and the position after it, if it answers. -/
def answer (r : Res Nat) : Option (Nat × Nat) :=
  match r with
  | .ok v s => some (v, s.bitPos.toNat)
  | .raise _ _ | .fault _ => none

/-- The error a primitive raises, if it does. -/
def raised {α : Type} (r : Res α) : Option ErrorKind :=
  match r with
  | .raise e _ => some e
  | .ok _ _ | .fault _ => none

/-! ## Well-formedness: each check refuses an ill-formed term -/

/-- TC0 and TC1 are well formed, and the two length symbols of TC0 (30_encoding.md R105). -/
theorem test_wellFormed :
    CfgOk tc0 ∧ CfgOk tc1 ∧ (Instr.matchRef 0).WellFormed tc0 ∧ (Instr.matchRef 1).WellFormed tc0 ∧
      (Instr.lit 255).WellFormed tc0 := by decide

/-- A length index above `NLL - 257` (R105). -/
theorem test_illFormed_lengthIndex : (Instr.matchRef 2).illFormed tc0 = some .lengthIndex := by decide

theorem test_violated_wf1 :
    violated { tc0 with nll := 256 } = some .wf1 ∧ violated { tc0 with nd := 0 } = some .wf1 := by decide

theorem test_violated_wf2 :
    violated { tc0 with maxDepthLL := 0 } = some .wf2 ∧ violated { tc0 with maxDepthD := 33 } = some .wf2 := by decide

theorem test_violated_wf3 : violated { tc0 with lens := [⟨1, 33⟩, ⟨17, 0⟩] } = some .wf3 := by decide

theorem test_violated_wf4 :
    violated { tc0 with lens := [⟨0, 4⟩, ⟨17, 0⟩] } = some .wf4 ∧
      violated { tc0 with dists := [⟨1, 0⟩, ⟨2, 32⟩] } = some .wf4 := by decide

theorem test_violated_wf5 : violated { tc0 with windowSize := 8 } = some .wf5 := by decide

theorem test_violated_wf6 : violated { tc0 with outCapacity := 2 ^ 32 } = some .wf6 := by decide

theorem test_violated_wf7 : violated { tc0 with nll := 65537 } = some .wf7 := by decide

theorem test_violated_shape : violated { tc0 with dists := [⟨1, 0⟩] } = some .shape := by decide

/-! ## Decoding: words written out from the spec's encodings -/

/-- FRAME_HEADER, bits 31..0 `compressed_size`, bits 63..32 `original_size` (R101): 3 and 5. -/
theorem test_decode_frameHeader :
    decodeTableWord 64
      0b0000000000000000000000000000010100000000000000000000000000000011 = some (.frameHeader 3 5) := by decide

/-- LIT, bits 15..8 zero, bits 7..0 the byte (R106): 'A' is 0x41. -/
theorem test_decode_lit : decodeTableWord 16 0b0000000001000001 = some (.lit 0x41) := by decide

/-- MATCH, the symbol 256 + i (R106): 257 is i = 1. -/
theorem test_decode_matchRef : decodeTableWord 16 0b0000000100000001 = some (.matchRef 1) := by decide

/-- START, CTRL bit 0 (10_state.md R38); the reserved bits are ignored (R39). -/
theorem test_decode_start :
    decodeTableWord 32 0b00000000000000000000000000000001 = some (.start true) ∧
      decodeTableWord 32 0b00000000000000000000000000000010 = some (.start false) := by decide

/-- The size fields of 44_frame_header.md R246's examples: 11, 256, `2^32 - 1`. -/
theorem test_le32_examples :
    le32 0x0B 0 0 0 = 11 ∧ le32 0 1 0 0 = 256 ∧ le32 0xFF 0xFF 0xFF 0xFF = BitVec.ofNat 32 (2 ^ 32 - 1) := by decide

/-- The codes of TC0 (41_codetree.md R154, example): 'A' = 00, 'B' = 01, 256 = 10, 'C' = 110, 257 = 111. -/
theorem test_codewords_tc0 :
    codewords tc0.initLL = [⟨0x41, 2, 0b00⟩, ⟨0x42, 2, 0b01⟩, ⟨0x43, 3, 0b110⟩, ⟨256, 2, 0b10⟩, ⟨257, 3, 0b111⟩] := by
  decide

/-- The bits `110` decode to 'C', consuming 3 (R154, example). -/
theorem test_decodeOne_example : answer (decodeLL (symbolsOf [0b11000000] [] 1)) = some (0x43, 3) := by decide

/-- MATCH 10, 1 in TC0 is the bits 10 1001 0 (43_decoder.md R205, example). -/
theorem test_spellMatch_example :
    spellMatch tc0 tc0.initLL tc0.initD 0 9 0 0 = some [true, false, true, false, false, true, false] := by decide

/-- The assembler on program P2 (95_test_vectors.md): LIT 'A', MATCH 10, 1. -/
theorem test_assemble_p2 :
    assemble tc0 none 11 [.lit 0x41, .back 10 1] = some [2, 0, 0, 0, 0x0B, 0, 0, 0, 0x29, 0] := by decide

/-! ## Primitives -/

/-- `read_bits` (40_bitreader.md R131, example): payload A5 0F, position 4, eight bits are 0x50, position 12. -/
theorem test_readBits_example :
    answer (readBits 8 { symbolsOf [0xA5, 0x0F] [] 1 with bitPos := 4 }) = some (0x50, 12) := by decide

/-- `peek_bits` (R133, example): payload A5, three bits are 5, position 0. -/
theorem test_peekBits_example : answer (peekBits 3 (symbolsOf [0xA5] [] 1)) = some (5, 0) := by decide

/-- `read_extra(0)` at the end of the payload answers 0 (R134, example). -/
theorem test_readExtra_example : answer (readExtra 0 { symbolsOf [0xA5] [] 1 with bitPos := 8 }) = some (0, 8) := by decide

/-- The rebuild of R156's example: one 'B' gives 'B' length 1 and the others 3. -/
theorem test_rebuild_example :
    rebuiltLL tc1 [(0x42, 1)] = [(0x41, 3), (0x42, 1), (0x43, 3), (256, 3), (257, 3)] ∧
      validTable 4 (rebuiltLL tc1 [(0x42, 1)]) = true := by decide

/-- A table over its Kraft bound is invalid, an incomplete one valid (R151). -/
theorem test_validTable :
    validTable 4 [(0x41, 1), (0x42, 1), (0x43, 1)] = false ∧ validTable 4 [(0x41, 1), (0x42, 2)] = true ∧
      validTable 4 [(0x41, 5)] = false := by decide

/-! ## One step of each instruction -/

/-- FRAME_HEADER (44_frame_header.md R240, example): cs = 3, os = 5, bnd = 2, DecodingSymbols. -/
theorem test_step_frameHeader :
    (nextOf (step (headerOf [3, 0, 0, 0, 5, 0, 0, 0, 0xAA, 0xBB]))).map (fun t => (t.cs, t.os, t.bnd, t.fsm)) =
      some (3, 5, 2, .decodingSymbols) := by decide

/-- A header of seven bytes is TruncatedHeader (R240, corner case). -/
theorem test_step_truncatedHeader :
    (nextOf (step (headerOf [0, 0, 0, 0, 0, 0, 0]))).map State.fsm = some (.failed .truncatedHeader) := by decide

/-- LIT (43_decoder.md R204, example): bits 01 emit 'B', two bits consumed, then Done. -/
theorem test_step_lit :
    (nextOf (step (symbolsOf [0b01000000] [] 1))).map (fun t => (Assoc.get? t.out 0, t.wp, t.bitPos, t.fsm)) =
      some (some 0x42, 1, 2, .done) := by decide

/-- A LIT counted, with the rebuild due, installs the rebuilt tree (R156, R210). -/
theorem test_step_lit_rebuilds :
    (nextOf (step { symbolsOf [0b01000000] [] 2 with cfg := tc1 })).map (fun t => (t.lenLL, t.cntLL, t.symCount)) =
      some ([(0x41, 3), (0x42, 1), (0x43, 3), (256, 3), (257, 3)], [(0x42, 1)], 1) := by decide

/-- MATCH (R205, example): 'A', then bits 10 1001 0 give ten more 'A', seven bits consumed, then Done. -/
theorem test_step_matchRef :
    (nextOf (step (symbolsOf [0b10100100] [0x41] 11))).map (fun t => (t.out, t.wp, t.bitPos, t.fsm)) =
      some (Memory.ofBytes 0 (List.replicate 11 0x41), 11, 7, .done) := by decide

/-- A MATCH as the first instruction is InvalidBackReference (R205, corner case). -/
theorem test_step_matchRef_first :
    (nextOf (step (symbolsOf [0b10000000] [] 1))).map State.fsm = some (.failed .invalidBackReference) := by decide

/-- START after Failed(TruncatedInput): STATUS = ReadingHeader, ERR 0 (R201, example). -/
theorem test_step_start :
    (nextOf (step { idleWith [.write .ctrl 1] with fsm := .failed .truncatedInput })).map (fun t => readReg t .status) =
      some 1 := by decide

/-- `withFetchWord` places a table word for the next step, from reset (log 12). -/
theorem test_withFetchWord :
    (nextOf (step (State.reset.withFetchWord 64 0x0000000500000003))).map (fun t => (t.cs, t.os)) = some (3, 5) ∧
    (nextOf (step (State.reset.withFetchWord 16 0x0041))).map (fun t => Assoc.get? t.out 0) = some (some 0x41) ∧
    (nextOf (step (State.reset.withFetchWord 16 0x0101))).map State.fsm = some (.failed .invalidBackReference) ∧
    (nextOf (step (State.reset.withFetchWord 32 1))).map State.fsm = some .readingHeader := by decide

/-! ## A state the invariant holds in -/

/-- 'A' emitted of eleven bytes; the payload spells MATCH 10, 1, and one more byte follows it. -/
def mid : State := symbolsOf [0b10100100, 0] [0x41] 11

theorem mid_history (a : Nat) : (Assoc.get? mid.out a).isSome = true ↔ a < mid.wp.toNat := by
  rw [show mid.out = Memory.ofBytes 0 [0x41] from rfl, Memory.get?_ofBytes, show mid.wp.toNat = 1 from rfl]
  rcases a with _ | a <;> simp

theorem mid_canonical : mid.Canonical := ⟨by decide, by decide, by decide, by decide, by decide, by decide⟩

theorem mid_inv : mid.Inv where
  canonical := mid_canonical
  header := by decide
  frame := fun _ =>
    ⟨by decide, by decide, by decide, mid_history, by decide, by decide, by decide, by decide, by decide⟩
  decoding := by decide
  finished := by decide

theorem mid_placed : mid.Placed := by unfold State.Placed; decide

theorem mid_fsm : mid.fsm = .decodingSymbols ∧ mid.host = [] ∧ CfgOk mid.cfg := by decide

/-- The frame `mid` is in, finished. -/
def finished : State := { symbolsOf [0b10100100] [0x41] 1 with fsm := .done }

theorem finished_inv : finished.Inv where
  canonical := ⟨by decide, by decide, by decide, by decide, by decide, by decide⟩
  header := by decide
  frame := fun _ =>
    ⟨by decide, by decide, by decide, mid_history, by decide, by decide, by decide, by decide, by decide⟩
  decoding := by decide
  finished := by decide

/-- A header waiting to be read. -/
def waiting : State := headerOf [1, 0, 0, 0, 1, 0, 0, 0, 0x40]

theorem waiting_inv : waiting.Inv where
  canonical := ⟨by decide, by decide, by decide, by decide, by decide, by decide⟩
  header := by decide
  frame := fun h => absurd h (by decide)
  decoding := by decide
  finished := by decide

theorem waiting_placed : waiting.Placed := by unfold State.Placed; decide

/-! ## Bits held by a stream -/

theorem streamHolds_nil (s : State) (p : Nat) : StreamHolds s p [] := by
  intro k b h; simp at h

theorem streamHolds_cons {s : State} {p : Nat} {b : Bool} {r : List Bool} (h : streamBit s p = .ok b)
    (hr : StreamHolds s (p + 1) r) : StreamHolds s p (b :: r) := by
  intro k c hk
  rcases k with _ | k
  · simp only [List.getElem?_cons_zero, Option.some.injEq] at hk; subst hk; exact h
  · have := hr k c (by simpa using hk)
    rwa [show p + 1 + k = p + (k + 1) by omega] at this

/-! ## Witnesses -/

/-- Every row's instruction is well formed in TC0, at the ends of its operands' ranges. -/
theorem witness_EncodedInstructionDecodes :
    CfgOk tc0 ∧ (Instr.matchRef 1).WellFormed tc0 ∧ (Instr.lit 255).WellFormed tc0 ∧
      (Instr.frameHeader (BitVec.ofNat 32 (2 ^ 32 - 1)) 0).WellFormed tc0 ∧ (Instr.start true).WellFormed tc0 := by decide

theorem witness_TableWordDecodes :
    CfgOk tc0 ∧ (Instr.matchRef 0).WellFormed tc0 ∧ (Instr.lit 0).WellFormed tc0 := by decide

/-- A header, a symbol at the end of the alphabet, and a CTRL word that decode. -/
theorem witness_DecodedWordReencodes :
    decode 258 (.header [3, 0, 0, 0, 5, 0, 0, 0]) = .ok (.frameHeader 3 5) ∧ [3, 0, 0, 0, 5, 0, 0, 0].length = 8 ∧
      decode 258 (.symbol 257) = .ok (.matchRef 1) ∧ decode 258 (.ctrl 1) = .ok (.start true) :=
  ⟨rfl, rfl, rfl, rfl⟩

/-- TC0's LL table: 'B' (01) before 256 (10) of one length, and before 'C' (110) of a greater one. -/
theorem witness_CodewordsAreCanonical :
    Sparse.Formed 0 258 tc0.initLL ∧ validTable 4 tc0.initLL = true ∧ ⟨0x42, 2, 1⟩ ∈ codewords tc0.initLL ∧
      ⟨256, 2, 2⟩ ∈ codewords tc0.initLL ∧ ⟨0x43, 3, 6⟩ ∈ codewords tc0.initLL := by decide

theorem witness_NoCodewordBeginsAnother :
    Sparse.Formed 0 258 tc0.initLL ∧ ⟨256, 2, 2⟩ ∈ codewords tc0.initLL ∧ ⟨257, 3, 7⟩ ∈ codewords tc0.initLL ∧
      (⟨256, 2, 2⟩ : Codeword) ≠ ⟨257, 3, 7⟩ := by decide

/-- Bits 10 of `mid`'s payload spell the symbol 256. -/
theorem witness_SpelledSymbolIsDecoded :
    Sparse.Formed 0 258 mid.lenLL ∧ validTable 4 mid.lenLL = true ∧ spellSymbol mid.lenLL 256 = some [true, false] ∧
      2 ≤ mid.remaining ∧ StreamHolds mid mid.bitPos.toNat [true, false] :=
  ⟨by decide, by decide, by decide, by decide, streamHolds_cons rfl (streamHolds_cons rfl (streamHolds_nil _ _))⟩

/-- `mid`'s payload spells MATCH 10, 1. -/
theorem witness_SpelledMatchIsDecoded :
    CfgOk mid.cfg ∧ mid.Canonical ∧ validTable mid.cfg.maxDepthLL mid.lenLL = true ∧
      validTable mid.cfg.maxDepthD mid.lenD = true ∧ mid.cfg.lens[0]? = some ⟨1, 4⟩ ∧ mid.cfg.dists[0]? = some ⟨1, 0⟩ ∧
      9 < 2 ^ 4 ∧ 0 < 2 ^ 0 ∧
      spellMatch mid.cfg mid.lenLL mid.lenD 0 9 0 0 = some [true, false, true, false, false, true, false] ∧
      7 ≤ mid.remaining ∧ StreamHolds mid mid.bitPos.toNat [true, false, true, false, false, true, false] :=
  ⟨by decide, mid_canonical, by decide, by decide, by decide, by decide, by decide, by decide, by decide, by decide,
    streamHolds_cons rfl (streamHolds_cons rfl (streamHolds_cons rfl (streamHolds_cons rfl (streamHolds_cons rfl
      (streamHolds_cons rfl (streamHolds_cons rfl (streamHolds_nil _ _)))))))⟩

/-- The last bit of the payload. -/
theorem witness_StreamBitIsMostSignificantFirst :
    8 + 15 / 8 < mid.inLen.toNat ∧ Assoc.get? mid.inp (8 + 15 / 8) = some 0 := by decide

/-- All 16 bits that remain can be read, 17 can not. -/
theorem witness_ReadBitsReturnsNextBits :
    8 * mid.bnd.toNat < mid.bitPos.toNat + 17 ∧ mid.bitPos.toNat + 16 ≤ 8 * mid.bnd.toNat ∧
      ∀ k, k < 16 → streamBit mid (mid.bitPos.toNat + k) = .ok ((0xA400 : Nat).testBit (15 - k)) := by
  refine ⟨by decide, by decide, fun k hk => ?_⟩
  interval_cases k <;> rfl

theorem witness_PeekBitsReadsWithoutAdvancing :
    (∃ t, readBits 16 mid = .ok 0xA400 t) ∧ peekBits 16 mid = .ok 0xA400 mid ∧
      readBits 17 mid = .raise .truncatedInput mid ∧ peekBits 17 mid = .raise .truncatedInput mid :=
  ⟨⟨_, rfl⟩, rfl, rfl, rfl⟩

theorem witness_ReadExtraReadsOnlyWhenAsked : ∃ t, readExtra 1 mid = .ok 1 t := ⟨_, rfl⟩

/-- `mid` with another byte of IN past the payload's end, and with the payload cut down so that its step raises. -/
theorem witness_TrailingInputIsNeverRead :
    mid.fsm = .decodingSymbols ∧ mid.host = [] ∧
      (∀ a, a < 8 + mid.bnd.toNat → Assoc.get? (mid.inp ++ [(10, 7)]) a = Assoc.get? mid.inp a) ∧
      Assoc.get? (mid.inp ++ [(10, 7)]) 10 ≠ Assoc.get? mid.inp 10 ∧ (∃ t, step mid = .next t) ∧
      (∃ f, step { mid with inp := [] } = .fault f) ∧
      (∃ r, step { mid with cfg := { tc0 with nd := 0 } } = .refused r) :=
  ⟨by decide, by decide, by decide, by decide, ⟨_, rfl⟩, ⟨_, rfl⟩, ⟨_, rfl⟩⟩

theorem witness_ValidTablesAreInstalled : Sparse.Formed 0 258 tc0.initLL := by decide

/-- A Full tree and a Single one. -/
theorem witness_DecodedSymbolLengthIsConsumed :
    Sparse.Formed 0 258 tc0.initLL ∧ 2 ≤ tc0.initLL.length ∧ (∃ s', decodeOne 4 tc0.initLL mid = .ok 256 s') ∧
      Sparse.Formed 0 258 [(257, 3)] ∧ [(257, 3)].length = 1 ∧ ∃ s', decodeOne 4 [(257, 3)] mid = .ok 257 s' :=
  ⟨by decide, by decide, ⟨_, rfl⟩, by decide, by decide, _, rfl⟩

/-- An incomplete code, read past its depth, and one whose payload ends before. -/
theorem witness_DescentErrorsByDepth :
    2 ≤ [(0x41, 1), (0x42, 2)].length ∧
      (∃ s', decodeOne 4 [(0x41, 1), (0x42, 2)] (symbolsOf [0xF0] [] 1) = .raise .corruptCodeTree s') ∧
      ∃ s', decodeOne 4 [(0x41, 1), (0x42, 2)] { symbolsOf [0xFF] [] 1 with bitPos := 5 } = .raise .truncatedInput s' :=
  ⟨by decide, ⟨_, rfl⟩, _, rfl⟩

theorem witness_CompleteCodeNeverCorrupt :
    Sparse.Formed 0 258 tc0.initLL ∧ 2 ≤ tc0.initLL.length ∧ validTable 4 tc0.initLL = true ∧
      kraftSum 4 tc0.initLL = 2 ^ 4 := by decide

theorem witness_LookaheadDecodesAlike :
    Sparse.Formed 0 258 tc0.initLL ∧ validTable 4 tc0.initLL = true ∧
      ∀ p, p < 8 * mid.bnd.toNat → ∃ b, streamBit mid p = .ok b := by
  refine ⟨by decide, by decide, fun p hp => ?_⟩
  have hp : p < 16 := hp
  interval_cases p <;> exact ⟨_, rfl⟩

/-- A rebuild that is due and goes through, and one that is not due. -/
theorem witness_RebuildFollowsCadence :
    mid.wp ≠ mid.os ∧ ¬ 0 < mid.cfg.rebuildPeriod ∧
      ∃ s : State, s.wp ≠ s.os ∧ 0 < s.cfg.rebuildPeriod ∧ s.symCount.toNat % s.cfg.rebuildPeriod = 0 ∧
        validTable s.cfg.maxDepthLL (rebuiltLL s.cfg s.cntLL) = true ∧
        validTable s.cfg.maxDepthD (rebuiltD s.cfg s.cntD) = true :=
  ⟨by decide, by decide, { symbolsOf [0] [0x42] 2 with cfg := tc1, symCount := 1, cntLL := [(0x42, 1)] }, by decide⟩

/-- A decode that answers, one that raises and one that faults, from each tree. -/
theorem witness_TreesShareNoState :
    (∃ t, decodeLL mid = .ok 256 t) ∧ (∃ t, decodeLL { mid with bitPos := 16 } = .raise .truncatedInput t) ∧
      (∃ f, decodeLL { mid with inp := [] } = .fault f) ∧ (∃ t, decodeD { mid with bitPos := 6 } = .ok 0 t) ∧
      (∃ t, decodeD { mid with lenD := [] } = .raise .corruptCodeTree t) ∧ ∃ f, decodeD { mid with inp := [] } = .fault f :=
  ⟨⟨_, rfl⟩, ⟨_, rfl⟩, ⟨_, rfl⟩, ⟨_, rfl⟩, ⟨_, rfl⟩, _, rfl⟩

theorem witness_EmitLiteralAppends : mid.wp.toNat < mid.os.toNat := by decide

/-- Each check at its boundary: distance 0, distance `wp + 1`, length `os - wp + 1`. -/
theorem witness_CopyBackChecksFirst :
    copyBack 0 1 mid = .raise .invalidBackReference mid ∧ copyBack 2 1 mid = .raise .invalidBackReference mid ∧
      copyBack 1 11 mid = .raise .invalidBackReference mid := ⟨rfl, rfl, rfl⟩

/-- The longest copy at the greatest distance. -/
theorem witness_CopyBackRepeatsHistory :
    1 ≤ 1 ∧ 1 ≤ mid.wp.toNat ∧ mid.wp.toNat + 10 ≤ mid.os.toNat ∧
      ∀ a, a < mid.wp.toNat → (Assoc.get? mid.out a).isSome = true := by decide

theorem witness_WindowCopyMatchesOutput :
    WindowMirrors 1 [(0, 0x41)] mid ∧ 1 ≤ 1 ∧ mid.wp.toNat ≤ mid.os.toNat ∧
      (∀ a, a < mid.wp.toNat → (Assoc.get? mid.out a).isSome = true) ∧
      (∃ win t, windowCopyBack 1 1 10 [(0, 0x41)] mid = .ok win t) ∧ ∃ t, copyBack 1 10 mid = .ok () t := by
  refine ⟨fun d h1 h2 _ => ?_, by decide, by decide, by decide, ⟨_, _, rfl⟩, _, rfl⟩
  obtain rfl : d = 1 := by omega
  rfl

/-- From Idle, from Done and from Failed. -/
theorem witness_StartBeginsAFrame :
    (idleWith []).busy = false ∧ finished.busy = false ∧ ({ mid with fsm := .failed .lengthMismatch } : State).busy = false := by
  decide

theorem witness_StartOtherwiseDoesNothing : mid.busy = true ∧ waiting.busy = true := by decide

/-- A frame with output, and an empty one under WholeByte with no payload. -/
theorem witness_HeaderStepCompletes :
    waiting.fsm = .readingHeader ∧ 8 ≤ waiting.inLen.toNat ∧ (1 : U32).toNat ≤ waiting.cfg.outCapacity ∧
      validTable waiting.cfg.maxDepthLL waiting.cfg.initLL = true ∧
      validTable waiting.cfg.maxDepthD waiting.cfg.initD = true ∧ (1 : U32) ≠ 0 ∧
      ¬ (TailCheck.wholeByte = .wholeByte ∧ 1 ≤ min (0 : U32).toNat (waiting.inLen.toNat - 8)) := by decide

theorem witness_HeaderChecksInOrder : waiting.fsm = .readingHeader := by decide

/-- A header that goes through, and one that fails at each check: seven bytes, an output too large, an invalid LL table, an invalid D table. -/
theorem witness_HeaderFrame :
    (∃ t, exec (.frameHeader 1 1) waiting = .next t ∧ t.isFailed = false) ∧
      (∃ t, exec (.frameHeader 1 1) (headerOf [0, 0, 0, 0, 0, 0, 0]) = .next t) ∧
      (headerOf [0, 0, 0, 0, 0, 0, 0]).inLen.toNat < 8 ∧ 8 ≤ waiting.inLen.toNat ∧
      (∃ t, exec (.frameHeader 1 1) { waiting with cfg := { tc0 with outCapacity := 0 } } = .next t ∧
        t.fsm = .failed .outOfMemory) ∧
      (∃ t, exec (.frameHeader 1 1) { waiting with cfg := { tc0 with initLL := [(0x41, 5)] } } = .next t ∧
        t.fsm = .failed .corruptCodeTree) ∧
      ∃ t, exec (.frameHeader 1 1) { waiting with cfg := { tc0 with initD := [(0, 5)] } } = .next t ∧
        t.fsm = .failed .corruptCodeTree ∧ t.lenLL = tc0.initLL :=
  ⟨⟨_, rfl, rfl⟩, ⟨_, rfl⟩, by decide, by decide, ⟨_, rfl, rfl⟩, ⟨_, rfl, rfl⟩, _, rfl, rfl, rfl⟩

/-- At seven bytes and at eight. -/
theorem witness_TruncatedHeaderExactly :
    (headerOf [0, 0, 0, 0, 0, 0, 0]).host = [] ∧
      (headerOf [0, 0, 0, 0, 0, 0, 0]).fsm ≠ .failed .truncatedHeader ∧
      (∃ t, step (headerOf [0, 0, 0, 0, 0, 0, 0]) = .next t) ∧ ∃ t, step (headerOf [0, 0, 0, 0, 0, 0, 0, 0]) = .next t :=
  ⟨by decide, by decide, ⟨_, rfl⟩, _, rfl⟩

theorem witness_HeaderFieldsAreLittleEndian :
    CfgOk waiting.cfg ∧ waiting.fsm = .readingHeader ∧ waiting.host = [] ∧ 8 ≤ waiting.inLen.toNat ∧
      ∀ k b, ([1, 0, 0, 0, 1, 0, 0, 0] : List Byte)[k]? = some b → Assoc.get? waiting.inp k = some b := by
  refine ⟨by decide, by decide, by decide, by decide, fun k b h => ?_⟩
  have hk : k < 8 := (List.getElem?_eq_some_iff.1 h).1
  interval_cases k <;> exact h

/-- Two pasts: one as after reset, one that left an output's sizes, counters and trees. -/
theorem witness_HeaderStepForgetsThePast :
    waiting.fsm = .readingHeader ∧ waiting.host = [] ∧
      (∃ t, step waiting = .next t ∧ t.isFailed = false) ∧
      ∃ t, step { waiting with wp := 3, cntLL := [(0x41, 9)], lenLL := [(0x41, 1)], symCount := 9 } = .next t :=
  ⟨by decide, by decide, ⟨_, rfl, rfl⟩, _, rfl⟩

/-- The last byte of a frame, a byte before it, and a byte with the rebuild due. -/
theorem witness_LitEmitsItsByte :
    mid.fsm = .decodingSymbols ∧ mid.wp.toNat < mid.os.toNat ∧ Assoc.Sorted mid.cntLL ∧ ¬ mid.RebuildNext ∧
      (symbolsOf [0] [] 1).wp.toNat + 1 = (symbolsOf [0] [] 1).os.toNat ∧ (symbolsOf [0] [] 1).TailOk ∧
      ({ symbolsOf [0] [] 2 with cfg := tc1 } : State).RebuildNext ∧
      ({ symbolsOf [0] [] 2 with cfg := tc1 } : State).RebuildsValid (bump [] (0x42 : Byte).toNat) [] := by
  refine ⟨by decide, by decide, by decide, ?_, by decide, ?_, ?_, ?_⟩
  · rintro ⟨h, _⟩; revert h; decide
  · rintro ⟨h, _⟩; revert h; decide
  · exact ⟨by decide, by decide⟩
  · exact ⟨by decide, by decide⟩

/-- A LIT that goes on, one that completes, one that fails the tail check, one with a rebuild due, and one whose rebuild is invalid. -/
theorem witness_LitFrame :
    Assoc.Sorted mid.cntLL ∧ mid.fsm = .decodingSymbols ∧ mid.wp.toNat < mid.os.toNat ∧
      (∃ t, exec (.lit 0x41) (symbolsOf [0, 0] [] 1) = .next t ∧ t.fsm = .done) ∧
      (∃ t, exec (.lit 0x41) mid = .next t ∧ t.isFailed = false) ∧
      (∃ t, exec (.lit 0x41) { symbolsOf [0, 0] [] 1 with cfg := { tc0 with tailCheck := .wholeByte } } = .next t ∧
        t.fsm = .failed .lengthMismatch) ∧
      (∃ t, exec (.lit 0x42) { symbolsOf [0] [] 2 with cfg := tc1 } = .next t ∧ t.isFailed = false) ∧
      (∃ t, exec (.lit 0x42) { symbolsOf [0] [] 2 with cfg := { tc1 with maxDepthLL := 2 } } = .next t ∧
        t.fsm = .failed .corruptCodeTree) ∧
      ({ symbolsOf [0] [] 2 with cfg := tc1 } : State).RebuildNext ∧ (0 : U32).toNat + 1 ≠ (2 : U32).toNat :=
  ⟨by decide, by decide, by decide, ⟨_, rfl, rfl⟩, ⟨_, rfl, rfl⟩, ⟨_, rfl, rfl⟩, ⟨_, rfl, rfl⟩, ⟨_, rfl, rfl⟩,
    ⟨by decide, by decide⟩, by decide⟩

/-- `mid` past its LL codeword: the operands read are length 10, distance 1, and the frame completes. -/
theorem witness_MatchCopiesHistory :
    (mid.advance 2).fsm = .decodingSymbols ∧ Assoc.Sorted (mid.advance 2).cntLL ∧
      (mid.advance 2).cfg.lens[0]? = some ⟨1, 4⟩ ∧
      (∃ s1, readMatchOperands ⟨1, 4⟩ ((mid.advance 2).countLL (256 + 0)) = .ok (10, 1) s1 ∧ s1.TailOk) ∧
      1 ≤ (mid.advance 2).wp.toNat ∧ (mid.advance 2).wp.toNat + 10 = (mid.advance 2).os.toNat ∧
      ∀ a, a < (mid.advance 2).wp.toNat → (Assoc.get? (mid.advance 2).out a).isSome = true :=
  ⟨by decide, by decide, by decide, ⟨_, rfl, fun h => by revert h; decide⟩, by decide, by decide, by decide⟩

/-- The same copy with a byte more to come, no rebuild due. -/
theorem witness_MatchCopiesHistory_continued :
    (∃ s1, readMatchOperands ⟨1, 4⟩ (({ mid with os := 12 } : State).advance 2 |>.countLL (256 + 0)) = .ok (10, 1) s1) ∧
      mid.wp.toNat + 10 ≠ (12 : U32).toNat ∧ ¬ mid.RebuildNext :=
  ⟨⟨_, rfl⟩, by decide, fun h => by have := h.1; revert this; decide⟩

/-- Operands that cannot be read, and operands that break a check: a first instruction, and a length one too great. -/
theorem witness_MatchFailsBeforeWriting :
    mid.fsm = .decodingSymbols ∧ mid.cfg.lens[0]? = some ⟨1, 4⟩ ∧
      (∃ s1, readMatchOperands ⟨1, 4⟩ ({ mid with bitPos := 16 }.countLL (256 + 0)) = .raise .truncatedInput s1) ∧
      (∃ s1, readMatchOperands ⟨1, 4⟩ (({ mid with wp := 0 } : State).advance 2 |>.countLL (256 + 0)) = .ok (10, 1) s1) ∧
      (∃ s1, readMatchOperands ⟨1, 4⟩ (({ mid with os := 10 } : State).advance 2 |>.countLL (256 + 0)) = .ok (10, 1) s1) ∧
      (0 : U32).toNat < 1 ∧ (10 : U32).toNat - mid.wp.toNat < 10 :=
  ⟨by decide, by decide, ⟨_, rfl⟩, ⟨_, rfl⟩, ⟨_, rfl⟩, by decide, by decide⟩

theorem witness_MatchOperandsAreInRange :
    CfgOk mid.cfg ∧ mid.cfg.lens[0]? = some ⟨1, 4⟩ ∧ ∃ s1, readMatchOperands ⟨1, 4⟩ (mid.advance 2) = .ok (10, 1) s1 :=
  ⟨by decide, by decide, _, rfl⟩

/-- A configuration that rebuilds after every instruction, its mapping known at one MATCH. -/
def matched : Cfg :=
  { tc1 with
    rebuildLL := [⟨[(256, 1)], [(0x41, 3), (0x42, 3), (0x43, 3), (256, 1), (257, 3)]⟩]
    rebuildD := [⟨[(0, 1)], [(0, 1), (1, 1)]⟩] }

/-- 'A' emitted of three bytes, and past the LL codeword of MATCH 1, 1. -/
def rebuilding (c : Cfg) : State := { symbolsOf [0b10000000] [0x41] 3 with cfg := c, bitPos := 2 }

/-- A MATCH that completes the frame, and one that fails: the length's extra bits missing, the D tree empty, the distance beyond the history. -/
theorem witness_MatchFrame :
    Assoc.Sorted mid.cntLL ∧ Assoc.Sorted mid.cntD ∧ mid.wp.toNat ≤ mid.os.toNat ∧ mid.cfg.lens[0]? = some ⟨1, 4⟩ ∧
      (∃ t, exec (.matchRef 0) (mid.advance 2) = .next t ∧ t.isFailed = false) ∧
      (∃ s1, readValue ⟨1, 4⟩ ((mid.advance 2).countLL (256 + 0)) = .ok 10 s1 ∧ ∃ s2, decodeD s1 = .ok 0 s2) ∧
      (∃ s1, readMatchOperands ⟨1, 4⟩ ((mid.advance 2).countLL (256 + 0)) = .ok (10, 1) s1) ∧
      (∃ t, exec (.matchRef 0) { mid with bitPos := 16 } = .next t ∧ t.fsm = .failed .truncatedInput) ∧
      (∃ t, exec (.matchRef 0) { mid with lenD := [] } = .next t ∧ t.fsm = .failed .corruptCodeTree) ∧
      ∃ t, exec (.matchRef 0) ({ mid with wp := 0 }.advance 2) = .next t ∧ t.fsm = .failed .invalidBackReference :=
  ⟨by decide, by decide, by decide, by decide, ⟨_, rfl, rfl⟩, ⟨_, rfl, _, rfl⟩, ⟨_, rfl⟩, ⟨_, rfl, rfl⟩, ⟨_, rfl, rfl⟩,
    _, rfl, rfl⟩

/-- The premises of a next state, and a MATCH whose copy completes the frame but leaves a whole byte unread under WholeByte. -/
theorem witness_MatchFrame_completes :
    (mid.advance 2).fsm = .decodingSymbols ∧ (∀ a, a < mid.wp.toNat → (Assoc.get? mid.out a).isSome = true) ∧
      mid.wp.toNat + 10 = mid.os.toNat ∧
      ∃ t, exec (.matchRef 0) ({ mid with cfg := { tc0 with tailCheck := .wholeByte } }.advance 2) = .next t ∧
        t.fsm = .failed .lengthMismatch :=
  ⟨by decide, by decide, by decide, _, rfl, rfl⟩

/-- A MATCH of one byte with more to come and a rebuild due, which goes through, and whose LL or D table is invalid. -/
theorem witness_MatchFrame_rebuild :
    (∃ s1, readMatchOperands ⟨1, 4⟩ ((rebuilding matched).countLL (256 + 0)) = .ok (1, 1) s1) ∧
      (rebuilding matched).RebuildNext ∧ (rebuilding matched).wp.toNat + 1 ≠ (rebuilding matched).os.toNat ∧
      (∃ t, exec (.matchRef 0) (rebuilding matched) = .next t ∧ t.isFailed = false) ∧
      (∃ t, exec (.matchRef 0) (rebuilding { matched with maxDepthLL := 2 }) = .next t ∧ t.lenLL = tc0.initLL ∧
        t.fsm = .failed .corruptCodeTree) ∧
      ∃ t, exec (.matchRef 0) (rebuilding { matched with rebuildD := [⟨[(0, 1)], [(0, 5)]⟩] }) = .next t ∧ t.lenLL ≠ tc0.initLL ∧
        t.fsm = .failed .corruptCodeTree :=
  ⟨⟨_, rfl⟩, ⟨by decide, by decide⟩, by decide, ⟨_, rfl, rfl⟩, ⟨_, rfl, rfl, rfl⟩, _, rfl, by decide, rfl⟩

/-- The three outcomes: eight bits left, fewer, and `wp` below `os`. -/
theorem witness_CompletionAtDeclaredSize :
    finished.wp = finished.os ∧ 8 ≤ 8 * finished.bnd.toNat - finished.bitPos.toNat ∧
      ¬ 8 ≤ 8 * finished.bnd.toNat - (1 : BitPos).toNat ∧ mid.wp ≠ mid.os := by decide

/-- BUSY and not, and a pending write of IN_LEN and of a read-only register. -/
theorem witness_RegisterViewReadsAndWrites :
    finished.busy = false ∧ mid.busy = true ∧ CfgOk (idleWith [.write .inLen 9]).cfg ∧
      (idleWith [.write .inLen 9]).busy = false ∧ (idleWith [.write .inLen 9]).host = [.write .inLen 9] ∧
      (idleWith [.write .osize 9]).host = [.write .osize 9] ∧ Reg.osize ≠ .inLen ∧ Reg.osize ≠ .ctrl := by decide

/-- The header step and the symbol step each failing. -/
theorem witness_ErrorKindsByStep :
    (∃ t, step (headerOf [0, 0, 0, 0, 0, 0, 0]) = .next t ∧ t.fsm = .failed .truncatedHeader) ∧
      (∃ t, step (symbolsOf [0b10000000] [] 1) = .next t ∧ t.fsm = .failed .invalidBackReference) ∧
      ∃ t, step { symbolsOf [0, 0] [] 1 with cfg := { tc0 with tailCheck := .wholeByte } } = .next t ∧
        t.fsm = .failed .lengthMismatch := ⟨⟨_, rfl, rfl⟩, ⟨_, rfl, rfl⟩, _, rfl, rfl⟩

theorem witness_NoStepIsRefused :
    mid.fsm ≠ .readingHeader ∧ waiting.fsm ≠ .decodingSymbols ∧ violated { tc0 with nd := 0 } = some .wf1 := by decide

/-- A header and a symbol that are fetched, a header of seven bytes, a decode that raises, START; the block's turn with no move pending, after a pass,
and with a move that waits. -/
theorem witness_StepRunsDecodedInstruction :
    CfgOk waiting.cfg ∧ waiting.BlockTurn waiting ∧ waiting.fsm = .readingHeader ∧ 8 ≤ waiting.inLen.toNat ∧
      readInBytes waiting 0 8 = .ok [1, 0, 0, 0, 1, 0, 0, 0] ∧
      decode tc0.nll (.header [1, 0, 0, 0, 1, 0, 0, 0]) = .ok (.frameHeader 1 1) ∧
      (headerOf [0, 0, 0, 0, 0, 0, 0]).inLen.toNat < 8 ∧
      ({ mid with host := [.pass] } : State).BlockTurn mid ∧ mid.fsm = .decodingSymbols ∧
      (∃ s', decodeLL mid = .ok 256 s') ∧ decode tc0.nll (.symbol 256) = .ok (.matchRef 0) ∧
      (∃ s', decodeLL { mid with bitPos := 16 } = .raise .truncatedInput s') ∧
      ({ mid with host := [.write .inLen 9] } : State).BlockTurn { mid with host := [.write .inLen 9] } ∧
      (idleWith [.write .ctrl 1]).busy = false :=
  ⟨by decide, .inl ⟨rfl, rfl⟩, by decide, by decide, rfl, rfl, by decide, .inr (.inl ⟨[], rfl, rfl⟩), by decide, ⟨_, rfl⟩,
    rfl, ⟨_, rfl⟩, .inr (.inr ⟨by decide, ⟨_, _, rfl, by decide, by decide⟩, rfl⟩), by decide⟩

theorem witness_TerminalStatesWait :
    CfgOk finished.cfg ∧ finished.busy = false ∧ finished.BlockTurn finished ∧
      ({ finished with host := [.pass] } : State).BlockTurn finished :=
  ⟨by decide, by decide, .inl ⟨rfl, rfl⟩, .inr (.inl ⟨[], rfl, rfl⟩)⟩

theorem witness_TerminalStatesLeftByStartOrReset :
    (idleWith [.write .ctrl 1]).busy = false ∧
      (∃ t, step (idleWith [.write .ctrl 1]) = .next t ∧ t.fsm ≠ (idleWith [.write .ctrl 1]).fsm) ∧
      ∃ t, step { finished with host := [.reset] } = .next t ∧ t.fsm ≠ finished.fsm :=
  ⟨by decide, ⟨_, rfl, by decide⟩, _, rfl, by decide⟩

theorem witness_StepKeepsConfigurationAndInput :
    (∃ t, step mid = .next t) ∧ CfgOk (idleWith [.place [1]]).cfg ∧ (idleWith [.place [1]]).busy = false ∧
      ∃ t, step (idleWith [.place [1]]) = .next t ∧ t.inp ≠ (idleWith [.place [1]]).inp :=
  ⟨⟨_, rfl⟩, by decide, by decide, _, rfl, by decide⟩

theorem witness_HostMovesWaitWhileBusy :
    ({ mid with host := [.write .inLen 9] } : State).busy = true ∧ (∃ t, step { mid with host := [.write .inLen 9] } = .next t) ∧
      ∀ rest, ({ mid with host := [.write .inLen 9] } : State).host ≠ .reset :: rest ∧
        ({ mid with host := [.write .inLen 9] } : State).host ≠ .pass :: rest :=
  ⟨by decide, ⟨_, rfl⟩, fun rest => by simp⟩

/-- A reset in the middle of a frame. -/
theorem witness_ResetGivesIdle : CfgOk mid.cfg ∧ ({ mid with host := [.reset] } : State).host = .reset :: [] := by decide

theorem witness_StreamPositionOnlyGrows :
    mid.fsm = .decodingSymbols ∧ mid.host = [] ∧ mid.bitPos.toNat ≤ 8 * mid.bnd.toNat ∧
      ∃ t, step mid = .next t ∧ t.isFailed = false := ⟨by decide, by decide, by decide, _, rfl, rfl⟩

theorem witness_OutputIsAppendOnly :
    mid.fsm = .decodingSymbols ∧ mid.host = [] ∧ mid.wp.toNat ≤ mid.os.toNat ∧ ∃ t, step mid = .next t :=
  ⟨by decide, by decide, by decide, _, rfl⟩

theorem witness_SymbolStepEmits :
    mid.Inv ∧ mid.fsm = .decodingSymbols ∧ mid.host = [] ∧ ∃ t, step mid = .next t ∧ t.isFailed = false :=
  ⟨mid_inv, by decide, by decide, _, rfl, rfl⟩

/-- The invariant in the middle of a frame, before a header, at Done, and after reset; a step from each of the first two. -/
theorem witness_StepKeepsInvariant :
    mid.Inv ∧ (∃ t, step mid = .next t) ∧ waiting.Inv ∧ (∃ t, step waiting = .next t) ∧ finished.Inv :=
  ⟨mid_inv, ⟨_, rfl⟩, waiting_inv, ⟨_, rfl⟩, finished_inv⟩

theorem witness_StepNeverStops :
    mid.Inv ∧ mid.Placed ∧ CfgOk mid.cfg ∧ waiting.Inv ∧ waiting.Placed ∧ CfgOk waiting.cfg :=
  ⟨mid_inv, mid_placed, by decide, waiting_inv, waiting_placed, by decide⟩

theorem witness_EveryFrameEnds :
    (mid.Inv ∧ mid.Placed ∧ CfgOk mid.cfg ∧ mid.host = [] ∧ mid.fsm = .decodingSymbols) ∧
      waiting.Inv ∧ waiting.Placed ∧ CfgOk waiting.cfg ∧ waiting.host = [] ∧ waiting.fsm = .readingHeader :=
  ⟨⟨mid_inv, mid_placed, by decide, by decide, by decide⟩, waiting_inv, waiting_placed, by decide, by decide, by decide⟩

/-- At Done, at Failed, and before. -/
theorem witness_ResultAtTerminalState :
    finished.Inv ∧ finished.fsm = .done ∧ ({ mid with fsm := .failed .truncatedInput } : State).Inv ∧ mid.Inv ∧
      ¬ mid.Terminal :=
  ⟨finished_inv, by decide,
    ⟨⟨by decide, by decide, by decide, by decide, by decide, by decide⟩, by decide, fun h => absurd h (by decide), by decide,
      by decide⟩,
    mid_inv, fun h => by rcases h with h | h <;> revert h <;> decide⟩

/-- Two pasts: after reset, and at the end of a frame that emitted 'A'; IN and IN_LEN the same. -/
theorem witness_ResultDependsOnFrameAlone :
    finished.busy = false ∧ ({ finished with fsm := .idle, wp := 0, os := 0, out := [] } : State).busy = false ∧
      ∃ t1, runSteps (1 + 1) { finished with host := [.write .ctrl 1] } = .next t1 := ⟨by decide, by decide, _, rfl⟩

end Sys2Proof.Tests
end

section
/-! SUPPORT. Scope (00_scope.md): the order of the stream's bits, where a step is refused, and the range of every length and distance
a MATCH computes. -/

namespace Sys2Proof.Machine

/-! ## The stream's bits (R10) -/

theorem streamBit_of_readIn {s : State} {p : Nat} {b : Byte} (h : readIn s (8 + p / 8) = .ok b) :
    streamBit s p = .ok (b.getLsbD (7 - p % 8)) := by
  simp [streamBit, h]

/-- Settles O9: the byte at IN offset `8 + p / 8` is read, and its bit is the stream's. -/
theorem streamBitIsMostSignificantFirst : Obligations.StreamBitIsMostSignificantFirst := by
  intro s p b hlen hget
  exact streamBit_of_readIn (readIn_eq_ok.2 ⟨hlen, hget⟩)

/-! ## Refusals (R7, R200, R293) -/

theorem execFrameHeader_refused {s : State} (cs os : U32) (h : s.fsm ≠ .readingHeader) :
    exec (.frameHeader cs os) s = .refused .noStepInThisState := if_neg h

theorem execLit_refused {s : State} (b : Byte) (h : s.fsm ≠ .decodingSymbols) :
    exec (.lit b) s = .refused .noStepInThisState := if_neg h

theorem execMatchRef_refused {s : State} (i : Nat) (h : s.fsm ≠ .decodingSymbols) :
    exec (.matchRef i) s = .refused .noStepInThisState := if_neg h

theorem step_refused_of_violated {s : State} {r : CfgRule} (h : violated s.cfg = some r) :
    step s = .refused (.illFormedConfiguration r) := by
  simp [step, h]

/-- Settles O45: each instruction tests `fsm` first, and `step` tests the configuration first. -/
theorem noStepIsRefused : Obligations.NoStepIsRefused := by
  intro s cs os b i
  exact ⟨execFrameHeader_refused cs os, fun h => ⟨execLit_refused b h, execMatchRef_refused i h⟩,
    fun _ => step_refused_of_violated⟩

/-! ## The ranges of lengths and distances (R8) -/

theorem minLen_le_base {c : Cfg} {r : ExtraRow} (h : r ∈ c.lens) : minLen c ≤ r.base :=
  List.min?_getD_le_of_mem (List.mem_map_of_mem h)

theorem minDist_le_base {c : Cfg} {r : ExtraRow} (h : r ∈ c.dists) : minDist c ≤ r.base :=
  List.min?_getD_le_of_mem (List.mem_map_of_mem h)

/-- A row of either table has its base and its largest value among the positive 32-bit numbers (R7 WF4). -/
theorem CfgOk.row_bounds {c : Cfg} (h : CfgOk c) {r : ExtraRow} (hr : r ∈ c.lens ∨ r ∈ c.dists) :
    1 ≤ r.base ∧ rowMax r ≤ 2 ^ 32 - 1 :=
  h.facts.fits r (List.mem_append.2 hr)

/-- A value in the range of a length row is a length of the configuration. -/
theorem CfgOk.length_bounds {c : Cfg} (h : CfgOk c) {r : ExtraRow} (hr : r ∈ c.lens) {v : Nat} (hb : r.base ≤ v)
    (hm : v ≤ rowMax r) : minLen c ≤ v ∧ v ≤ maxLen c ∧ 1 ≤ v ∧ v ≤ 2 ^ 32 - 1 := by
  obtain ⟨h1, h32⟩ := h.row_bounds (.inl hr)
  exact ⟨(minLen_le_base hr).trans hb, hm.trans (rowMax_le_maxLen hr), h1.trans hb, hm.trans h32⟩

/-- A value in the range of a distance row is a distance of the configuration. -/
theorem CfgOk.distance_bounds {c : Cfg} (h : CfgOk c) {r : ExtraRow} (hr : r ∈ c.dists) {v : Nat} (hb : r.base ≤ v)
    (hm : v ≤ rowMax r) : minDist c ≤ v ∧ v ≤ maxDist c ∧ 1 ≤ v ∧ v ≤ 2 ^ 32 - 1 := by
  obtain ⟨h1, h32⟩ := h.row_bounds (.inr hr)
  exact ⟨(minDist_le_base hr).trans hb, hm.trans (rowMax_le_maxDist hr), h1.trans hb, hm.trans h32⟩

/-- A value read lies in the range of its row (R206, R207). -/
theorem readValue_mem_range {row : ExtraRow} {s t : State} {v : Nat} (h : readValue row s = .ok v t) :
    row.base ≤ v ∧ v ≤ rowMax row := by
  obtain ⟨-, hb, hlt, -⟩ := readValue_eq_ok h
  exact ⟨hb, Nat.le_sub_one_of_lt hlt⟩

/-- The primitives a distance is read by: the D symbol decoded, then its row's value, the symbol counted (R207, R208). -/
theorem readDistance_eq_ok_iff {s t : State} {d : Nat} :
    readDistance s = .ok d t ↔ ∃ j u row, decodeD s = .ok j u ∧ u.cfg.dists[j]? = some row ∧
      readValue row (u.countD j) = .ok d t := by
  unfold readDistance
  rw [Res.bind_eq_ok]
  refine exists_congr fun j => exists_congr fun u => ?_
  cases u.cfg.dists[j]? <;> simp

/-- The primitives the operands of a MATCH are read by: the length of its row, then the distance (R205). -/
theorem readMatchOperands_eq_ok_iff {row : ExtraRow} {s t : State} {length distance : Nat} :
    readMatchOperands row s = .ok (length, distance) t ↔
      ∃ u, readValue row s = .ok length u ∧ readDistance u = .ok distance t := by
  simp [readMatchOperands, Res.bind_eq_ok]

/-- Settles O38: both operands are values read with a row of the configuration, the distance's row that of the symbol decoded. -/
theorem matchOperandsAreInRange : Obligations.MatchOperandsAreInRange := by
  intro i length distance row s s1 hcfg hrow hread
  obtain ⟨s2, hlength, hdist⟩ := readMatchOperands_eq_ok_iff.1 hread
  obtain ⟨j, s3, drow, hdecode, hdrow, hdistance⟩ := readDistance_eq_ok_iff.1 hdist
  have hcfg2 : s2.cfg = s.cfg := by
    obtain ⟨-, -, -, rfl⟩ := readValue_eq_ok hlength
    rfl
  have hcfg3 : s3.cfg = s2.cfg := by
    obtain ⟨_, -, -, rfl⟩ := decodeOne_eq_ok hdecode
    rfl
  rw [hcfg3, hcfg2] at hdrow
  obtain ⟨hlb, hlm⟩ := readValue_mem_range hlength
  obtain ⟨hdb, hdm⟩ := readValue_mem_range hdistance
  obtain ⟨hlmin, hlmax, hl1, hl32⟩ := hcfg.length_bounds (List.mem_of_getElem? hrow) hlb hlm
  exact ⟨hlb, hlm, hlmin, hlmax, hl1, hl32, ⟨s2, j, s3, drow, hlength, hdecode, hdrow, hdb, hdm⟩,
    hcfg.distance_bounds (List.mem_of_getElem? hdrow) hdb hdm⟩

end Sys2Proof.Machine
end

section
/-! SUPPORT. The invariant of the machine (10_state.md R30, R34, R36): what of a state it reads, that it holds wherever `fsm` leads to
after a header or a symbol instruction, and that every step keeps it. -/

namespace Sys2Proof.Machine

/-! ## States that are not BUSY -/

theorem State.busy_eq_true_iff {s : State} : s.busy = true ↔ s.fsm = .readingHeader ∨ s.fsm = .decodingSymbols := by
  unfold State.busy
  cases s.fsm <;> simp

/-- In a state that is not BUSY the invariant asks for the canonical form, and at Done for a frame that is complete. -/
theorem State.Inv.of_not_busy {s : State} (hb : s.busy = false) (hc : s.Canonical)
    (hd : s.fsm = .done → s.FrameOk ∧ s.wp = s.os) : s.Inv := by
  have hbusy : ¬ (s.fsm = .readingHeader ∨ s.fsm = .decodingSymbols) := by simp [← State.busy_eq_true_iff, hb]
  obtain ⟨hheader, hdecoding⟩ := not_or.1 hbusy
  exact {
    canonical := hc
    header := fun h => absurd h hheader
    frame := fun h => (hd (h.resolve_left hdecoding)).1
    decoding := fun h => absurd h hdecoding
    finished := fun h => (hd h).2 }

theorem State.Canonical.fail {s : State} (h : s.Canonical) (e : ErrorKind) : (s.fail e).Canonical := { h with }

/-- Failed keeps nothing of the invariant but the canonical form (60_exceptions.md R266). -/
theorem State.Canonical.inv_fail {s : State} (h : s.Canonical) (e : ErrorKind) : (s.fail e).Inv :=
  .of_not_busy rfl (h.fail e) nofun

/-- A state every element of which is forgotten is in canonical form. -/
theorem State.Canonical.forget {s : State} (h : s.Canonical) : s.forget.Canonical where
  inp := h.inp
  out := List.Pairwise.nil
  lenLL := Sparse.formed_fit ..
  lenD := Sparse.formed_fit ..
  cntLL := Sparse.formed_fit ..
  cntD := Sparse.formed_fit ..

/-- `FrameOk` reads neither the input side of a state nor `fsm`. -/
theorem State.FrameOk.of_input_changed {s t : State} (h : s.FrameOk)
    (ht : t = { s with inp := t.inp, inLen := t.inLen, fsm := t.fsm, host := t.host }) : t.FrameOk := by
  rw [ht]
  exact { h with }

theorem State.Inv.setHost {s : State} (h : s.Inv) (moves : List HostMove) : (s.setHost moves).Inv where
  canonical := { h.canonical with }
  header := h.header
  frame := fun hf => (h.frame hf).of_input_changed rfl
  decoding := h.decoding
  finished := h.finished

/-- While not BUSY, IN and IN_LEN may change. -/
theorem State.Inv.of_input_changed {s t : State} (h : s.Inv) (hb : s.busy = false) (hi : Memory.wf t.inp)
    (ht : t = { s with inp := t.inp, inLen := t.inLen }) : t.Inv := by
  have hframe : s.fsm = .done → t.FrameOk := fun hd => (h.frame (.inr hd)).of_input_changed (by rw [ht])
  rw [ht] at hframe ⊢
  exact .of_not_busy hb { h.canonical with inp := hi } fun hd => ⟨hframe hd, h.finished hd⟩

/-- A register write touches IN_LEN alone (10_state.md R38). -/
theorem writeReg_frame (r : Reg) (v : U32) (s : State) : writeReg r v s = { s with inLen := (writeReg r v s).inLen } := by
  cases r
  case inLen => cases hb : s.busy <;> simp [writeReg, hb]
  all_goals rfl

/-! ## Within a frame -/

/-- A state in the middle of a frame, its instruction counted or its header read, before the frame is completed or continued. -/
structure State.InFrame (s : State) : Prop where
  canonical : s.Canonical
  frame     : s.FrameOk
  /-- the boundary lies in IN (44_frame_header.md R243) -/
  payload   : 8 + s.bnd.toNat ≤ s.inLen.toNat

theorem State.Inv.inFrame {s : State} (h : s.Inv) (hf : s.fsm = .decodingSymbols) : s.InFrame :=
  ⟨h.canonical, h.frame (.inl hf), (h.decoding hf).1⟩

theorem State.InFrame.enter {s : State} (h : s.InFrame) (f : Fsm) : (s.enter f).InFrame :=
  ⟨{ h.canonical with }, h.frame.of_input_changed rfl, h.payload⟩

/-- With something left to emit, the frame goes on (43_decoder.md R203). -/
theorem State.InFrame.inv_decoding {s : State} (h : s.InFrame) (hf : s.fsm = .decodingSymbols) (hw : s.wp ≠ s.os) :
    s.Inv where
  canonical := h.canonical
  header := by simp [hf]
  frame := fun _ => h.frame
  decoding := fun _ => ⟨h.payload, h.frame.wp.lt_of_ne fun he => hw (BitVec.eq_of_toNat_eq he)⟩
  finished := by simp [hf]

/-- With everything emitted, the frame is finished (R209). -/
theorem State.InFrame.inv_done {s : State} (h : s.InFrame) (hw : s.wp = s.os) : (s.enter .done).Inv :=
  .of_not_busy rfl (h.enter .done).canonical fun _ => ⟨(h.enter .done).frame, hw⟩

/-- Reading bits the payload has keeps the frame. -/
theorem State.InFrame.advance {s : State} (h : s.InFrame) {k : Nat} (hk : k ≤ s.remaining) : (s.advance k).InFrame :=
  ⟨{ h.canonical with }, { h.frame with bitPos := State.bitPos_le_advance hk h.frame.bitPos }, h.payload⟩

theorem State.Inv.advance {s : State} (h : s.Inv) (hf : s.fsm = .decodingSymbols) {k : Nat} (hk : k ≤ s.remaining) :
    (s.advance k).Inv :=
  ((h.inFrame hf).advance hk).inv_decoding hf fun he => (h.decoding hf).2.ne (congrArg BitVec.toNat he)

/-- Trees rebuilt to valid tables keep the frame (41_codetree.md R151, R156). -/
theorem State.InFrame.rebuilt {s : State} (h : s.InFrame) (hv : s.RebuildsValid s.cntLL s.cntD) : s.rebuilt.InFrame where
  canonical := { h.canonical with lenLL := formed_rebuiltLL .., lenD := formed_rebuiltD .. }
  frame := { h.frame with treeLL := hv.1, treeD := hv.2 }
  payload := h.payload

/-- Completion and rebuild keep the invariant (R209, R210). -/
theorem State.InFrame.inv_finished {s t : State} (h : s.InFrame) (hf : s.fsm = .decodingSymbols)
    (ht : completeOrRebuild s = .ok () t ∨ ∃ e u, completeOrRebuild s = .raise e u ∧ t = u.fail e) : t.Inv := by
  have hLL : (s.setLenLL (rebuiltLL s.cfg s.cntLL)).Canonical := { h.canonical with lenLL := formed_rebuiltLL .. }
  rcases completeOrRebuild_cases s with ⟨hw, _, hr⟩ | ⟨_, _, hr⟩ | ⟨hw, _, hr⟩ | ⟨hw, _, hvLL, hvD, hr⟩ | ⟨_, _, _, hr⟩ |
      ⟨_, _, _, _, hr⟩ <;> rw [hr] at ht <;>
    simp only [Res.ok.injEq, Res.raise.injEq, reduceCtorEq, false_and, exists_false, or_false, false_or, true_and] at ht
  · exact ht ▸ h.inv_done hw
  · obtain ⟨e, u, ⟨rfl, rfl⟩, rfl⟩ := ht; exact h.canonical.inv_fail _
  · exact ht ▸ h.inv_decoding hf hw
  · exact ht ▸ (h.rebuilt ⟨hvLL, hvD⟩).inv_decoding hf hw
  · obtain ⟨e, u, ⟨rfl, rfl⟩, rfl⟩ := ht; exact h.canonical.inv_fail _
  · obtain ⟨e, u, ⟨rfl, rfl⟩, rfl⟩ := ht; exact hLL.inv_fail _

/-! ## The effect of a symbol instruction -/

/-- What LIT or MATCH of LL symbol `symbol` has done to `s` when its effect went through, before the instruction is counted
(43_decoder.md R203 to R208): bits read inside the payload, the symbols counted, at least one byte emitted and no more than fit. -/
structure State.SymbolEffect (s : State) (symbol : Nat) (t : State) : Prop where
  touched : t = { s with
    bitPos := t.bitPos, cntLL := bump s.cntLL symbol, cntD := t.cntD, out := t.out, wp := t.wp }
  bitPos  : t.bitPos.toNat ≤ 8 * s.bnd.toNat
  cntD    : t.cntD = s.cntD ∨ ∃ j, j < s.cfg.nd ∧ t.cntD = bump s.cntD j
  grows   : s.wp.toNat < t.wp.toNat
  fits    : t.wp.toNat ≤ s.os.toNat
  history : ∀ a, (Assoc.get? t.out a).isSome = true ↔ a < t.wp.toNat
  wf      : Memory.wf t.out

/-- The instruction counted, the sums of the counters are the counts they stand for (R208), none of them wrapping (R36). -/
theorem State.InFrame.counts {s t : State} {symbol : Nat} (h : s.InFrame) (he : s.SymbolEffect symbol t) :
    (s.symCount + 1).toNat ≤ t.wp.toNat ∧ totalCount (bump s.cntLL symbol) = (s.symCount + 1).toNat ∧
      totalCount t.cntD ≤ (s.symCount + 1).toNat := by
  have hos := s.os.isLt
  have hgrows := he.grows
  have hfits := he.fits
  have hcount := h.frame.count
  have hLL := h.frame.countLL
  have hD := h.frame.countD
  have hsucc : (s.symCount + 1).toNat = s.symCount.toNat + 1 := toNat_succ (by omega)
  rw [hsucc, totalCount_bump h.canonical.cntLL.1 symbol (by omega)]
  refine ⟨by omega, by omega, ?_⟩
  rcases he.cntD with hsame | ⟨j, -, hbump⟩
  · rw [hsame]; omega
  · rw [hbump, totalCount_bump h.canonical.cntD.1 j (by omega)]; omega

/-- A symbol instruction keeps the frame. -/
theorem State.SymbolEffect.inFrame {s t : State} {symbol : Nat} (he : s.SymbolEffect symbol t)
    (hs : symbol < s.cfg.nll) (h : s.InFrame) : t.countInstr.InFrame := by
  obtain ⟨hcount, hLL, hD⟩ := h.counts he
  have hcntD : Sparse.Formed 0 s.cfg.nd t.cntD := by
    rcases he.cntD with hsame | ⟨j, hj, hbump⟩
    · rw [hsame]; exact h.canonical.cntD
    · rw [hbump]; exact formed_bump h.canonical.cntD hj
  obtain ⟨htouched, hbit, -, -, hfits, hhist, hwf⟩ := he
  generalize t.bitPos = bitPos, t.cntD = cntD, t.out = out, t.wp = wp at *
  subst htouched
  exact {
    canonical := { h.canonical with out := hwf, cntLL := formed_bump h.canonical.cntLL hs, cntD := hcntD }
    frame := { h.frame with
      bitPos := hbit, wp := hfits, history := hhist, countLL := hLL, countD := hD, count := hcount }
    payload := h.payload }

/-- The effect of LIT (R204). -/
theorem State.InFrame.emit_effect {s : State} (h : s.InFrame) (hw : s.wp.toNat < s.os.toNat) (b : Byte) :
    s.SymbolEffect b.toNat ((s.countLL b.toNat).emit b) where
  touched := rfl
  bitPos := h.frame.bitPos
  cntD := .inl rfl
  grows := by rw [State.emit_wp, State.countLL_wp, State.wp_succ hw]; omega
  fits := by rw [State.emit_wp, State.countLL_wp, State.wp_succ hw]; exact hw
  history := fun a => by
    simp only [State.emit_out, State.emit_wp, State.countLL_wp, State.countLL_out, State.wp_succ hw, Assoc.get?_put]
    split
    · simp; omega
    · rw [h.frame.history a]; omega
  wf := Assoc.sorted_put h.canonical.out _ _

/-- The effect of MATCH (R205): its length is at least 1, so it emits. -/
theorem State.InFrame.match_effect {s t : State} {i : Nat} {row : ExtraRow} (h : s.InFrame) (hc : CfgOk s.cfg)
    (hrow : s.cfg.lens[i]? = some row) (ht : matchEffect row (s.countLL (256 + i)) = .ok () t) :
    s.SymbolEffect (256 + i) t := by
  obtain ⟨p, s1, hread, -, -, hlen, hcopy⟩ := matchEffect_eq_ok ht
  obtain ⟨hbase, -, j, -, drow, k, -, hdrow, -, -, hk, rfl⟩ := readMatchOperands_eq_ok hread
  have hone : 1 ≤ row.base := (hc.row_bounds (.inl (List.mem_of_getElem? hrow))).1
  have hj : j < s.cfg.nd := by
    have := (List.getElem?_eq_some_iff.1 hdrow).1
    rwa [State.countLL_cfg, hc.facts.dists] at this
  obtain ⟨hwp, hfits, hkept, hnew, hwf, htouched⟩ := copyLoop_eq_ok hcopy h.frame.wp
  simp only [State.countD_wp, State.countD_os, State.countD_out, State.advance_wp, State.advance_os, State.advance_out,
    State.countLL_wp, State.countLL_os, State.countLL_out] at hwp hlen hkept hnew hwf
  have hbit : ((s.countLL (256 + i)).advance k).bitPos.toNat ≤ 8 * s.bnd.toNat :=
    State.bitPos_le_advance hk h.frame.bitPos
  have hle := h.frame.wp
  exact {
    touched := by rw [htouched]; rfl
    bitPos := by rw [htouched]; exact hbit
    cntD := .inr ⟨j, hj, by rw [htouched]; rfl⟩
    grows := by omega
    fits := by omega
    history := fun a => by
      rcases Nat.lt_or_ge a s.wp.toNat with hold | hge
      · rw [hkept a (.inl hold), h.frame.history a]; omega
      · rcases Nat.lt_or_ge a (s.wp.toNat + p.1) with hcopied | hbeyond
        · exact iff_of_true (hnew a hge hcopied) (by omega)
        · rw [hkept a (.inr hbeyond), h.frame.history a]; omega
    wf := hwf h.canonical.out }

/-! ## LIT, MATCH, FRAME_HEADER, START -/

theorem execLit_inv {b : Byte} {s t : State} (h : s.Inv) (hc : CfgOk s.cfg) (he : exec (.lit b) s = .next t) : t.Inv := by
  obtain ⟨hf, hw, ht⟩ := execLit_eq_next he
  have hs : b.toNat < s.cfg.nll := by
    have := b.isLt
    have := hc.facts.nll
    omega
  have hframe := h.inFrame hf
  exact ((hframe.emit_effect hw b).inFrame hs hframe).inv_finished hf ht

/-- What the D counters of a distance that raises are: as they were, or one symbol with a row counted (R208, R268). -/
theorem readDistance_raise_cntD {s t : State} {e : ErrorKind} (h : readDistance s = .raise e t) :
    t.cntD = s.cntD ∨ ∃ j, j < s.cfg.dists.length ∧ t.cntD = bump s.cntD j := by
  rcases Res.bind_eq_raise.1 h with hdecode | ⟨j, s1, hdecode, hvalue⟩
  · obtain ⟨-, k, -, rfl⟩ := decodeOne_eq_raise hdecode
    exact .inl rfl
  · obtain ⟨k, -, -, rfl⟩ := decodeOne_eq_ok hdecode
    rw [State.advance_cfg] at hvalue
    cases hrow : s.cfg.dists[j]? with
    | none => simp [hrow] at hvalue
    | some row =>
      simp only [hrow] at hvalue
      obtain ⟨-, rfl⟩ := readValue_eq_raise hvalue
      exact .inr ⟨j, (List.getElem?_eq_some_iff.1 hrow).1, rfl⟩

/-- What the D counters of a MATCH that raises are, whichever operand or check raised. -/
theorem matchEffect_raise_cntD {s t : State} {row : ExtraRow} {e : ErrorKind} (h : matchEffect row s = .raise e t) :
    t.cntD = s.cntD ∨ ∃ j, j < s.cfg.dists.length ∧ t.cntD = bump s.cntD j := by
  rcases matchEffect_eq_raise h with ⟨hread, -⟩ | ⟨-, p, hread, -⟩
  · rcases Res.bind_eq_raise.1 hread with hlength | ⟨len, s1, hlength, hrest⟩
    · obtain ⟨-, rfl⟩ := readValue_eq_raise hlength
      exact .inl rfl
    · obtain ⟨-, -, -, rfl⟩ := readValue_eq_ok hlength
      rcases Res.bind_eq_raise.1 hrest with hdistance | ⟨_, _, _, hok⟩
      · exact (readDistance_raise_cntD hdistance :)
      · simp at hok
  · obtain ⟨-, -, j, -, drow, k, -, hrow, -, -, -, rfl⟩ := readMatchOperands_eq_ok hread
    exact .inr ⟨j, (List.getElem?_eq_some_iff.1 hrow).1, rfl⟩

/-- A MATCH that raises leaves a state in canonical form (R266, R268). -/
theorem State.Canonical.matchEffect_raise {s t : State} {i : Nat} {row : ExtraRow} {e : ErrorKind} (h : s.Canonical)
    (hc : CfgOk s.cfg) (hs : 256 + i < s.cfg.nll) (ht : matchEffect row (s.countLL (256 + i)) = .raise e t) :
    t.Canonical := by
  have hcntD : Sparse.Formed 0 s.cfg.nd t.cntD := by
    rcases matchEffect_raise_cntD ht with hsame | ⟨j, hj, hbump⟩
    · rw [hsame]; exact h.cntD
    · rw [hbump]; exact formed_bump h.cntD (by rwa [State.countLL_cfg, hc.facts.dists] at hj)
  rw [matchEffect_raise_frame ht]
  exact { h with cntLL := formed_bump h.cntLL hs, cntD := hcntD }

theorem execMatchRef_inv {i : Nat} {s t : State} (h : s.Inv) (hc : CfgOk s.cfg) (he : exec (.matchRef i) s = .next t) :
    t.Inv := by
  obtain ⟨hf, row, hrow, ht⟩ := execMatchRef_eq_next he
  have hframe := h.inFrame hf
  have hs : 256 + i < s.cfg.nll := by
    have := (List.getElem?_eq_some_iff.1 hrow).1
    have := hc.facts.lens
    omega
  rcases ht with ⟨s1, heffect, ht⟩ | ⟨e, s1, heffect, rfl⟩
  · have hsym := hframe.match_effect hc hrow heffect
    exact (hsym.inFrame hs hframe).inv_finished (by rw [hsym.touched]; exact hf) ht
  · exact (hframe.canonical.matchEffect_raise hc hs heffect).inv_fail e

/-- The state a header leads to when every check passes (44_frame_header.md R240): the fields and the boundary set, positions and counters
cleared, both initial trees installed. -/
def State.headed (cs os : U32) (s : State) : State :=
  ((s.setSizes cs os).clearFrame.setLenLL s.cfg.initLL).setLenD s.cfg.initD

/-- The boundary a header sets (R243). -/
theorem State.setSizes_bnd_toNat (cs os : U32) (s : State) :
    (s.setSizes cs os).bnd.toNat = min cs.toNat (s.inLen.toNat - 8) := by
  rw [State.setSizes_bnd, BitVec.toNat_ofNat, Nat.mod_eq_of_lt (by have := cs.isLt; omega)]

theorem State.Canonical.clearFrame {s : State} (h : s.Canonical) : s.clearFrame.Canonical :=
  { h with cntLL := Sparse.formed_nil _ _, cntD := Sparse.formed_nil _ _ }

/-- A header that passed its checks begins a frame (R240, R243). -/
theorem State.Canonical.headed_inFrame {s : State} (h : s.Canonical) (hc : CfgOk s.cfg) (ho : s.out = []) {cs os : U32}
    (hlen : 8 ≤ s.inLen.toNat) (hcap : os.toNat ≤ s.cfg.outCapacity)
    (hLL : validTable s.cfg.maxDepthLL s.cfg.initLL = true) (hD : validTable s.cfg.maxDepthD s.cfg.initD = true) :
    (s.headed cs os).InFrame where
  canonical := { h.clearFrame with lenLL := hc.facts.initLL, lenD := hc.facts.initD }
  frame := {
    bitPos := Nat.zero_le _
    wp := Nat.zero_le _
    fits := hcap
    history := fun a => by
      rw [show (s.headed cs os).out = [] from ho, show (s.headed cs os).wp = 0 from rfl]
      simp
    treeLL := hLL
    treeD := hD
    countLL := rfl
    countD := le_refl 0
    count := le_refl 0 }
  payload := by
    have hbnd : (s.headed cs os).bnd.toNat = min cs.toNat (s.inLen.toNat - 8) := s.setSizes_bnd_toNat cs os
    rw [hbnd, show (s.headed cs os).inLen = s.inLen from rfl]
    omega

/-- Where a frame begins, with nothing to emit or with something (R240, R244). -/
theorem State.InFrame.inv_beginSymbols {s t : State} (h : s.InFrame) (hw : s.wp = 0)
    (ht : (beginSymbols s).finish = .next t) : t.Inv := by
  rcases beginSymbols_cases s with ⟨_, _, hr⟩ | ⟨hos, _, hr⟩ | ⟨hos, hr⟩ <;> rw [hr] at ht <;>
    obtain rfl := Host.Outcome.next.inj ht
  · exact h.canonical.inv_fail _
  · exact h.inv_done (hw.trans hos.symm)
  · exact (h.enter _).inv_decoding rfl fun he => hos (he.symm.trans hw)

theorem execFrameHeader_inv {cs os : U32} {s t : State} (h : s.Inv) (hc : CfgOk s.cfg)
    (he : exec (.frameHeader cs os) s = .next t) : t.Inv := by
  obtain ⟨hf, ht⟩ := execFrameHeader_eq_next he
  have hsizes : (s.setSizes cs os).Canonical := { h.canonical with }
  have hLL : ((s.setSizes cs os).clearFrame.setLenLL s.cfg.initLL).Canonical :=
    { hsizes.clearFrame with lenLL := hc.facts.initLL }
  rcases headerStep_cases cs os s with ⟨_, hr⟩ | ⟨_, _, hr⟩ | ⟨hlen, hcap, ⟨_, hr⟩ | ⟨_, _, hr⟩ |
      ⟨hvLL, hvD, hr⟩⟩ <;> rw [hr] at ht
  · exact Host.Outcome.next.inj ht ▸ h.canonical.inv_fail _
  · exact Host.Outcome.next.inj ht ▸ hsizes.inv_fail _
  · exact Host.Outcome.next.inj ht ▸ hsizes.clearFrame.inv_fail _
  · exact Host.Outcome.next.inj ht ▸ hLL.inv_fail _
  · exact (h.canonical.headed_inFrame hc (h.header hf) hlen hcap hvLL hvD).inv_beginSymbols rfl ht

/-- START begins a frame with no byte of OUT (43_decoder.md R201). -/
theorem execStart_inv {go : Bool} {s t : State} (h : s.Inv) (he : exec (.start go) s = .next t) : t.Inv := by
  rcases execStart_eq_next he with ⟨-, rfl⟩ | ⟨-, -, rfl⟩
  · exact h
  · exact {
      canonical := { h.canonical.forget with }
      header := fun _ => rfl
      frame := nofun
      decoding := nofun
      finished := nofun }

/-! ## Every step -/

/-- Every instruction keeps the invariant. -/
theorem exec_inv {i : Instr} {s t : State} (h : s.Inv) (hc : CfgOk s.cfg) (he : exec i s = .next t) : t.Inv := by
  cases i with
  | frameHeader cs os => exact execFrameHeader_inv h hc he
  | lit b => exact execLit_inv h hc he
  | matchRef i => exact execMatchRef_inv h hc he
  | start go => exact execStart_inv h he

/-- The block's own step keeps the invariant. -/
theorem blockAction_inv {s t : State} (h : s.Inv) (hc : CfgOk s.cfg) (ht : (blockAction s).outcome = .next t) : t.Inv := by
  rcases blockAction_eq_next ht with ⟨_, rfl⟩ | ⟨_, _, rfl⟩ | ⟨_, _, _, cs, os, _, _, he⟩ | ⟨hf, e, s1, hd, rfl⟩ |
      ⟨hf, x, s1, hd, _, he⟩ | ⟨hf, i, s1, hd, _, he⟩
  · exact h
  · exact h.canonical.inv_fail _
  · exact exec_inv h hc he
  · obtain ⟨-, k, hk, rfl⟩ := decodeOne_eq_raise hd
    exact (h.advance hf hk).canonical.inv_fail e
  all_goals
    obtain ⟨k, hk, -, rfl⟩ := decodeOne_eq_ok hd
    exact exec_inv (h.advance hf hk) hc he

theorem State.Inv.hostReset {s : State} (h : s.Inv) : s.hostReset.Inv :=
  .of_not_busy rfl { h.canonical.forget with } nofun

/-- Settles O56, move by move: the host's moves change the input side of a state that is not BUSY, forget the state or run START; the block's own
step keeps the invariant instruction by instruction. -/
theorem stepKeepsInvariant : Obligations.StepKeepsInvariant := by
  intro s t h ht
  obtain ⟨hc, ⟨rest, _, rfl⟩ | ⟨s0, hs0, hblock⟩ | ⟨hb, bytes, rest, _, rfl⟩ | ⟨_, v, rest, _, he⟩ | ⟨hb, r, v, rest, _, _, rfl⟩⟩ :=
    step_eq_next ht
  · exact (h.setHost rest).hostReset
  · obtain ⟨rfl, -⟩ | ⟨rest, -, rfl⟩ := hs0
    · exact blockAction_inv h hc hblock
    · exact blockAction_inv (h.setHost rest) hc hblock
  · exact (h.setHost rest).of_input_changed hb (Memory.wf_ofBytes bytes 0).1 rfl
  · exact execStart_inv (h.setHost rest) he
  · have hframe := writeReg_frame r v (s.setHost rest)
    exact (h.setHost rest).of_input_changed hb (by rw [hframe]; exact h.canonical.inp) (by rw [hframe])

end Sys2Proof.Machine
end

section
/-! SUPPORT. The state and its registers (10_state.md): what a header step reads of a state, what a step leaves of the configuration and IN, how
`bit_pos` moves, the host's moves START and register writes, and STATUS. -/

namespace Sys2Proof.Machine

/-! ## The header step reads the frame alone (R32, R292) -/

/-- The two states agree in all the header step reads or leaves. -/
structure State.SameFrameInput (s1 s2 : State) : Prop where
  cfg   : s1.cfg = s2.cfg
  inp   : s1.inp = s2.inp
  inLen : s1.inLen = s2.inLen
  out   : s1.out = s2.out
  host  : s1.host = s2.host

theorem readIn_congr {s1 s2 : State} (hl : s1.inLen = s2.inLen) (hi : s1.inp = s2.inp) (a : Nat) :
    readIn s1 a = readIn s2 a := by
  unfold readIn
  rw [hl, hi]

theorem readInBytes_congr {s1 s2 : State} (hl : s1.inLen = s2.inLen) (hi : s1.inp = s2.inp) (a n : Nat) :
    readInBytes s1 a n = readInBytes s2 a n := by
  induction n generalizing a with
  | zero => rfl
  | succ n ih => simp only [readInBytes, readIn_congr hl hi, ih]

/-- A header that passes its checks overwrites all an earlier frame left, but the draw counter. -/
theorem State.SameFrameInput.headed_eq {s1 s2 : State} (h : s1.SameFrameInput s2) (hf : s1.fsm = s2.fsm) (cs os : U32) :
    s1.headed cs os = { s2.headed cs os with fresh := s1.fresh } := by
  simp only [State.headed, State.setSizes, State.clearFrame, State.setLenLL, State.setLenD, h.cfg, h.inp, h.inLen, h.out,
    h.host, hf]

/-- Two results of a step's pseudocode that agree but for the draw counter, a raise in its kind alone. -/
inductive SameButFresh : Res Unit → Res Unit → Prop
  | ok (t : State) (n : Nat) : SameButFresh (.ok () { t with fresh := n }) (.ok () t)
  | raise (e : ErrorKind) (u1 u2 : State) : SameButFresh (.raise e u1) (.raise e u2)

theorem SameButFresh.finish {r1 r2 : Res Unit} (h : SameButFresh r1 r2) {t1 t2 : State} (h1 : r1.finish = .next t1)
    (h2 : r2.finish = .next t2) :
    t1.fsm = t2.fsm ∧ (t1.isFailed = false → t1 = { t2 with fresh := t1.fresh }) := by
  cases h with
  | ok t n => cases h1; cases h2; exact ⟨rfl, fun _ => rfl⟩
  | raise e u1 u2 => cases h1; cases h2; exact ⟨rfl, nofun⟩

theorem beginSymbols_sameButFresh (s : State) (n : Nat) :
    SameButFresh (beginSymbols { s with fresh := n }) (beginSymbols s) := by
  have htail : tailLeft { s with fresh := n } = tailLeft s := rfl
  unfold beginSymbols complete
  rw [htail]
  dsimp only
  split
  · split
    · exact .raise ..
    · exact .ok (s.enter .done) n
  · exact .ok (s.enter .decodingSymbols) n

/-- The header step as its checks, in their order (44_frame_header.md R240). -/
theorem headerStep_eq (cs os : U32) (s : State) :
    headerStep cs os s =
      if s.inLen.toNat < 8 then .raise .truncatedHeader s
      else if s.cfg.outCapacity < os.toNat then .raise .outOfMemory (s.setSizes cs os)
      else if validTable s.cfg.maxDepthLL s.cfg.initLL = false then .raise .corruptCodeTree (s.setSizes cs os).clearFrame
      else if validTable s.cfg.maxDepthD s.cfg.initD = false then
        .raise .corruptCodeTree ((s.setSizes cs os).clearFrame.setLenLL s.cfg.initLL)
      else beginSymbols (s.headed cs os) := by
  rcases headerStep_cases cs os s with ⟨hlen, hr⟩ | ⟨hlen, hcap, hr⟩ | ⟨hlen, hcap, ⟨hvLL, hr⟩ | ⟨hvLL, hvD, hr⟩ |
      ⟨hvLL, hvD, hr⟩⟩ <;> rw [hr]
  · rw [if_pos hlen]
  · rw [if_neg (by omega), if_pos hcap]
  · rw [if_neg (by omega), if_neg (by omega), if_pos hvLL]
  · rw [if_neg (by omega), if_neg (by omega), if_neg (by simp [hvLL]), if_pos hvD]
  · rw [if_neg (by omega), if_neg (by omega), if_neg (by simp [hvLL]), if_neg (by simp [hvD])]
    rfl

/-- Each check reads what the two states share. -/
theorem State.SameFrameInput.headerStep {s1 s2 : State} (h : s1.SameFrameInput s2) (hf : s1.fsm = s2.fsm) (cs os : U32) :
    SameButFresh (headerStep cs os s1) (headerStep cs os s2) := by
  rw [headerStep_eq, headerStep_eq, h.inLen, h.cfg, h.headed_eq hf]
  split; · exact .raise ..
  split; · exact .raise ..
  split; · exact .raise ..
  split; · exact .raise ..
  exact beginSymbols_sameButFresh ..

/-- What the step of ReadingHeader can end in. -/
theorem blockAction_eq_next_of_readingHeader {s t : State} (hf : s.fsm = .readingHeader)
    (h : (blockAction s).outcome = .next t) :
    (s.inLen.toNat < 8 ∧ t = s.fail .truncatedHeader) ∨
    (8 ≤ s.inLen.toNat ∧ ∃ bytes cs os, readInBytes s 0 8 = .ok bytes ∧
      decodeHeader bytes = .ok (.frameHeader cs os) ∧ (headerStep cs os s).finish = .next t) := by
  rcases blockAction_eq_next h with ⟨hb, -⟩ | ⟨-, hlen, ht⟩ | ⟨-, hlen, bytes, cs, os, hread, hdecode, he⟩ | ⟨hd, -⟩ |
      ⟨hd, -⟩ | ⟨hd, -⟩
  · simp [State.busy, hf] at hb
  · exact .inl ⟨hlen, ht⟩
  · exact .inr ⟨hlen, bytes, cs, os, hread, hdecode, (execFrameHeader_eq_next he).2⟩
  all_goals simp [hf] at hd

/-- Settles O33: the same header is read, and what it does not overwrite the two states share. -/
theorem headerStepForgetsThePast : Obligations.HeaderStepForgetsThePast := by
  intro s1 s2 t1 t2 hf1 hf2 hcfg hinp hinLen hout hh1 hh2 hstep1 hstep2
  have hsame : s1.SameFrameInput s2 := ⟨hcfg, hinp, hinLen, hout, hh1.trans hh2.symm⟩
  obtain ⟨-, hblock1⟩ := step_eq_blockAction hh1 hstep1
  obtain ⟨-, hblock2⟩ := step_eq_blockAction hh2 hstep2
  rcases blockAction_eq_next_of_readingHeader hf1 hblock1 with ⟨hlen1, rfl⟩ | ⟨hlen1, bytes, cs, os, hread1, hdecode1, ht1⟩ <;>
    rcases blockAction_eq_next_of_readingHeader hf2 hblock2 with ⟨hlen2, rfl⟩ | ⟨hlen2, _, _, _, hread2, hdecode2, ht2⟩ <;>
    rw [hinLen] at hlen1
  · exact ⟨rfl, nofun⟩
  · omega
  · omega
  · rw [readInBytes_congr hinLen hinp, hread2] at hread1
    cases hread1
    rw [hdecode2] at hdecode1
    cases hdecode1
    exact (hsame.headerStep (hf1.trans hf2.symm) cs os).finish ht1 ht2

/-! ## The configuration and IN (R31, R72) -/

/-- While not BUSY the host's next move is taken (log 7). -/
theorem step_takes_move {s : State} {m : HostMove} {rest : List HostMove} (hc : CfgOk s.cfg) (hb : s.busy = false)
    (hh : s.host = m :: rest) : step s = (hostAction m (s.setHost rest)).outcome := by
  have hnext : nextAction s = hostAction m (s.setHost rest) := by
    unfold nextAction
    rw [hh]
    cases m <;> simp [hb]
  rw [step_eq_outcome hc, hnext]

/-- A step leaves the configuration, and IN too unless it places a frame. -/
theorem step_keeps_cfg_and_inp {s t : State} (h : step s = .next t) :
    t.cfg = s.cfg ∧ (t.inp = s.inp ∨
      s.busy = false ∧ ∃ bytes rest, s.host = .place bytes :: rest ∧ t.inp = Memory.ofBytes 0 bytes) := by
  obtain ⟨-, ⟨rest, -, rfl⟩ | ⟨s0, hs0, hblock⟩ | ⟨hb, bytes, rest, hh, rfl⟩ | ⟨-, v, rest, -, he⟩ | ⟨-, r, v, rest, -, -, rfl⟩⟩ :=
    step_eq_next h
  · exact ⟨rfl, .inl rfl⟩
  · obtain ⟨hcfg, hinp, -, -⟩ := blockAction_sameEnv hblock
    obtain ⟨rfl, -⟩ | ⟨rest, -, rfl⟩ := hs0 <;> exact ⟨hcfg, .inl hinp⟩
  · exact ⟨rfl, .inr ⟨hb, bytes, rest, hh, rfl⟩⟩
  · obtain ⟨hcfg, hinp, -, -⟩ := exec_sameEnv he
    exact ⟨hcfg, .inl hinp⟩
  · rw [writeReg_frame]
    exact ⟨rfl, .inl rfl⟩

/-- Settles O49: of all a step can be, only the move that places a frame writes IN, and it writes the bytes from offset 0. -/
theorem stepKeepsConfigurationAndInput : Obligations.StepKeepsConfigurationAndInput := by
  refine fun s => ⟨fun t => step_keeps_cfg_and_inp, fun bytes rest hc hb hh => ?_⟩
  exact ⟨(s.setHost rest).place bytes, step_takes_move hc hb hh, fun a => by simp [Memory.get?_ofBytes], rfl⟩

/-! ## The stream position (R34, R132) -/

/-- `t` stands where `s` does after reading some bits its payload has. -/
def State.MovesOn (s t : State) : Prop :=
  t.bnd = s.bnd ∧ ∃ k, k ≤ s.remaining ∧ t.bitPos = (s.advance k).bitPos

theorem State.MovesOn.after_advance {s t : State} {k : Nat} (hk : k ≤ s.remaining) (h : (s.advance k).MovesOn t) :
    s.MovesOn t := by
  obtain ⟨hbnd, n, hn, hbit⟩ := h
  rw [State.remaining_advance hk] at hn
  exact ⟨hbnd, k + n, by omega, by rw [hbit, State.advance_advance]⟩

/-- Reading inside the payload neither goes back nor leaves it. -/
theorem State.MovesOn.bounds {s t : State} (h : s.MovesOn t) (hs : s.bitPos.toNat ≤ 8 * s.bnd.toNat) :
    s.bitPos.toNat ≤ t.bitPos.toNat ∧ t.bitPos.toNat ≤ 8 * t.bnd.toNat ∧ t.bnd = s.bnd := by
  obtain ⟨hbnd, k, hk, hbit⟩ := h
  rw [hbit, hbnd]
  exact ⟨by rw [State.bitPos_advance hk]; omega, State.bitPos_le_advance hk hs, rfl⟩

/-- A LIT that does not fail leaves the stream position. -/
theorem execLit_movesOn {b : Byte} {s t : State} (h : exec (.lit b) s = .next t) (ht : t.isFailed = false) :
    s.MovesOn t := by
  obtain ⟨-, -, u, hu, rfl | ⟨e, rfl⟩⟩ := execLit_frame h
  · rw [hu]
    exact ⟨rfl, 0, Nat.zero_le _, by rw [State.advance_zero]; rfl⟩
  · simp [State.isFailed] at ht

/-- A MATCH that does not fail has read its operands. -/
theorem execMatchRef_movesOn {i : Nat} {s t : State} (h : exec (.matchRef i) s = .next t) (ht : t.isFailed = false) :
    s.MovesOn t := by
  obtain ⟨-, row, -, ⟨s1, u, heffect, hu, rfl | ⟨e, rfl⟩⟩ | ⟨e, u, -, rfl⟩⟩ := execMatchRef_frame h
  · obtain ⟨_, _, -, -, -, -, -, -, htouched, -, -, k, hk, hbit⟩ := matchEffect_ok_frame heffect
    have hbnd : s1.bnd = s.bnd := by rw [htouched]; rfl
    rw [hu]
    exact ⟨hbnd, k, hk, hbit⟩
  all_goals simp [State.isFailed] at ht

/-- Settles O52: the codeword and the operands are read inside the payload, and nothing else moves `bit_pos`. -/
theorem streamPositionOnlyGrows : Obligations.StreamPositionOnlyGrows := by
  intro s t hf hh hs hstep ht
  refine State.MovesOn.bounds ?_ hs
  obtain ⟨-, hblock⟩ := step_eq_blockAction hh hstep
  rcases blockAction_eq_next hblock with ⟨hb, -⟩ | ⟨hr, -⟩ | ⟨hr, -⟩ | ⟨-, e, s1, -, rfl⟩ | ⟨-, x, s1, hd, -, he⟩ |
      ⟨-, i, s1, hd, -, he⟩
  · simp [State.busy, hf] at hb
  · simp [hf] at hr
  · simp [hf] at hr
  · simp [State.isFailed] at ht
  · obtain ⟨k, hk, -, rfl⟩ := decodeOne_eq_ok hd
    exact .after_advance hk (execLit_movesOn he ht)
  · obtain ⟨k, hk, -, rfl⟩ := decodeOne_eq_ok hd
    exact .after_advance hk (execMatchRef_movesOn he ht)

/-! ## START (R39) -/

theorem execStart_false (s : State) : exec (.start false) s = .next s := rfl

theorem execStart_refused_of_busy {s : State} (h : s.busy = true) : exec (.start true) s = .refused .startWhileBusy :=
  if_pos h

/-- Settles O27: with the bit 0 the state is answered as it is, and with it 1 BUSY is tested first. -/
theorem startOtherwiseDoesNothing : Obligations.StartOtherwiseDoesNothing :=
  fun s => ⟨execStart_false s, execStart_refused_of_busy⟩

/-! ## STATUS (R38, R260) -/

theorem stateField_lt (f : Fsm) : stateField f < 8 := by
  cases f
  case failed e => exact (by decide : 4 < 8)
  all_goals decide

theorem errorCode_bounds (e : ErrorKind) : 1 ≤ errorCode e ∧ errorCode e ≤ 6 := by
  cases e <;> decide

theorem errField_le (f : Fsm) : errField f ≤ 6 := by
  cases f
  case failed e => exact (errorCode_bounds e).2
  all_goals decide

theorem errField_eq_zero_iff (f : Fsm) : errField f = 0 ↔ stateField f ≠ 4 := by
  cases f
  case failed e => simpa [stateField, errField] using Nat.ne_of_gt (errorCode_bounds e).1
  all_goals decide

theorem State.statusWord_toNat (s : State) : s.statusWord.toNat = stateField s.fsm + 16 * errField s.fsm := by
  have hstate := stateField_lt s.fsm
  have herr := errField_le s.fsm
  rw [State.statusWord, BitVec.toNat_ofNat, Nat.mod_eq_of_lt (by omega)]

/-- Bit 3 lies between the two fields (R38). -/
theorem State.statusWord_bit3 (s : State) : s.statusWord.getLsbD 3 = false := by
  have hstate := stateField_lt s.fsm
  rw [BitVec.getLsbD, State.statusWord_toNat, Nat.testBit_eq_decide_div_mod_eq]
  simp; omega

theorem State.isFailed_eq_true_iff {s : State} : s.isFailed = true ↔ ∃ e, s.fsm = .failed e := by
  unfold State.isFailed
  cases s.fsm <;> simp

/-- Settles O42: the codes are read off their tables, and the word is the sum of two fields that do not overlap. -/
theorem statusReportsState : Obligations.StatusReportsState := by
  refine ⟨⟨rfl, rfl, rfl, rfl, fun _ => rfl⟩, ⟨rfl, rfl, rfl, rfl, rfl, rfl⟩, fun s => ?_⟩
  have hstate := stateField_lt s.fsm
  have herr := errField_le s.fsm
  have hword := s.statusWord_toNat
  exact ⟨by omega, by omega, s.statusWord_bit3, by omega, fun e he => by rw [he]; rfl, errField_eq_zero_iff s.fsm,
    State.busy_eq_true_iff, decide_eq_true_iff, State.isFailed_eq_true_iff⟩

/-! ## The other registers (R38, R39) -/

theorem writeReg_inLen {s : State} (v : U32) (h : s.busy = false) : writeReg .inLen v s = { s with inLen := v } := by
  simp [writeReg, h]

theorem writeReg_inLen_busy {s : State} (v : U32) (h : s.busy = true) : writeReg .inLen v s = s := by
  simp [writeReg, h]

theorem writeReg_readOnly {r : Reg} (v : U32) (s : State) (h : r ≠ .inLen) : writeReg r v s = s := by
  cases r
  case inLen => exact absurd rfl h
  all_goals rfl

/-- While not BUSY a pending write of a register other than CTRL is taken, with the effect of the register operation. -/
theorem step_takes_write {s : State} {r : Reg} {v : U32} {rest : List HostMove} (hr : r ≠ .ctrl) (hc : CfgOk s.cfg)
    (hb : s.busy = false) (hh : s.host = .write r v :: rest) : step s = .next (writeReg r v (s.setHost rest)) := by
  rw [step_takes_move hc hb hh]
  cases r
  case ctrl => exact absurd rfl hr
  all_goals rfl

/-- Settles O43: a read widens the element without loss, a write is `writeReg`, and a step that takes one adds nothing to it. -/
theorem registerViewReadsAndWrites : Obligations.RegisterViewReadsAndWrites := by
  intro s v
  refine ⟨rfl, ?_, ?_, ?_, ?_, ?_, ?_, writeReg_inLen v, writeReg_inLen_busy v, fun r hr _ => writeReg_readOnly v s hr,
    ?takesInLen, ?takesReadOnly⟩
  case takesInLen =>
    intro rest hc hb hh
    have hb' : (s.setHost rest).busy = false := hb
    rw [step_takes_write (r := .inLen) (by decide) hc hb hh, writeReg_inLen v hb']
    rfl
  case takesReadOnly =>
    intro r rest hr hctrl hc hb hh
    rw [step_takes_write hctrl hc hb hh, writeReg_readOnly v _ hr]
    rfl
  all_goals exact BitVec.toNat_setWidth_of_le (by decide)

end Sys2Proof.Machine
end

section
/-! SUPPORT. Memory (20_memory.md): where a symbol step may write OUT. -/

namespace Sys2Proof.Machine

/-! ## OUT (R73, R185) -/

/-- OUT in `t` is as in `s`, but for bytes from `wp` up to `os`. -/
def State.Appends (s t : State) : Prop :=
  ∀ a, a < s.wp.toNat ∨ s.os.toNat ≤ a → Assoc.get? t.out a = Assoc.get? s.out a

theorem State.Appends.of_out_eq {s t : State} (h : t.out = s.out) : s.Appends t := fun a _ => by rw [h]

/-- A failure of `u` keeps every write made before it (R266). -/
theorem State.Appends.of_next_or_fail {s t u : State} (h : s.Appends u) (ht : t = u ∨ ∃ e, t = u.fail e) : s.Appends t := by
  obtain rfl | ⟨e, rfl⟩ := ht <;> exact h

theorem State.appends_emit {s : State} (h : s.wp.toNat < s.os.toNat) (b : Byte) : s.Appends (s.emit b) :=
  fun a ha => Assoc.get?_put_other s.out b (by omega)

/-- The copy fits between `wp` and `os`, as its second check asks (R182). -/
theorem matchEffect_appends {row : ExtraRow} {s t : State} (h : matchEffect row s = .ok () t)
    (hw : s.wp.toNat ≤ s.os.toNat) : s.Appends t := by
  obtain ⟨p, -, -, -, -, hfits, -, -, -, hkept, -, -⟩ := matchEffect_ok_frame h
  exact fun a ha => hkept a (by omega)

theorem execLit_appends {b : Byte} {s t : State} (h : exec (.lit b) s = .next t) : s.Appends t := by
  obtain ⟨-, hw, u, hu, ht⟩ := execLit_frame h
  have hout : u.out = (s.emit b).out := by rw [hu]; rfl
  have hemit : s.Appends u := fun a ha => by rw [hout, s.appends_emit hw b a ha]
  exact hemit.of_next_or_fail ht

theorem execMatchRef_appends {i : Nat} {s t : State} (h : exec (.matchRef i) s = .next t)
    (hw : s.wp.toNat ≤ s.os.toNat) : s.Appends t := by
  obtain ⟨-, row, -, ⟨s1, u, heffect, hu, ht⟩ | ⟨e, u, hraise, rfl⟩⟩ := execMatchRef_frame h
  · have hout : u.out = s1.out := by rw [hu]; rfl
    have hcopy : s.Appends u := fun a ha => by rw [hout, matchEffect_appends heffect hw a ha]; rfl
    exact hcopy.of_next_or_fail ht
  · exact .of_out_eq (by rw [matchEffect_raise_frame hraise]; rfl)

/-- Settles O53: the codeword moves `bit_pos` alone; the literal is written at `wp < os`, and a copy that would pass `os` raises before its
first byte. -/
theorem outputIsAppendOnly : Obligations.OutputIsAppendOnly := by
  intro s t hf hh hw hstep
  change s.Appends t
  obtain ⟨-, hblock⟩ := step_eq_blockAction hh hstep
  rcases blockAction_eq_next hblock with ⟨hb, -⟩ | ⟨hr, -⟩ | ⟨hr, -⟩ | ⟨-, e, s1, hd, rfl⟩ | ⟨-, x, s1, hd, -, he⟩ |
      ⟨-, i, s1, hd, -, he⟩
  · simp [State.busy, hf] at hb
  · simp [hf] at hr
  · simp [hf] at hr
  · obtain ⟨-, k, -, rfl⟩ := decodeOne_eq_raise hd
    exact .of_out_eq rfl
  · obtain ⟨k, -, -, rfl⟩ := decodeOne_eq_ok hd
    exact (execLit_appends he :)
  · obtain ⟨k, -, -, rfl⟩ := decodeOne_eq_ok hd
    exact (execMatchRef_appends he hw :)

end Sys2Proof.Machine
end

section
/-! SUPPORT. Encoding (30_encoding.md): a table's codewords begin one another nowhere, what stands spelled in the payload is read back field by field,
and the decoder and the encoder undo each other. -/

namespace Sys2Proof.Machine

/-! ## Canonical codewords (R153) -/

/-- A codeword's number is the first of its length, plus the symbol's rank among those of its length. -/
theorem code_of_mem_assignCodes {t done todo : Lengths} {c : Codeword} (hs : Assoc.Sorted (done ++ todo))
    (h : c ∈ assignCodes t done todo) :
    c.code = firstCode t c.len + (done ++ todo).countP fun e => e.2 = c.len ∧ e.1 < c.symbol := by
  induction todo generalizing done with
  | nil => simp [assignCodes] at h
  | cons e r ih =>
    rcases List.mem_cons.1 h with rfl | h
    · rw [Assoc.Sorted, List.map_append] at hs
      obtain ⟨-, hlater, hbefore⟩ := List.pairwise_append.1 hs
      have hdone : done.countP (fun f => decide (f.2 = e.2 ∧ f.1 < e.1)) = blCount done e.2 :=
        List.countP_congr fun f hf => by
          simpa using fun _ => hbefore f.1 (List.mem_map_of_mem hf) e.1 (by simp)
      have hrest : (e :: r).countP (fun f => decide (f.2 = e.2 ∧ f.1 < e.1)) = 0 :=
        List.countP_eq_zero.2 fun f hf => by
          rcases List.mem_cons.1 hf with rfl | hf
          · simp
          · have := (Assoc.sorted_cons.1 hlater).1 f hf
            simp; omega
      rw [List.countP_append, hdone, hrest, Nat.add_zero]
    · have := ih (done := done ++ [e]) (by simpa using hs) h
      simpa using this

theorem code_of_codeword {t : Lengths} (hs : Assoc.Sorted t) {c : Codeword} (h : c ∈ codewords t) :
    c.code = firstCode t c.len + t.countP fun e => e.2 = c.len ∧ e.1 < c.symbol :=
  code_of_mem_assignCodes (done := []) hs h

/-- A codeword is one of the numbers of its length. -/
theorem code_lt_of_codeword {t : Lengths} (hs : Assoc.Sorted t) {c : Codeword} (h : c ∈ codewords t) :
    c.code < firstCode t c.len + blCount t c.len := by
  rw [code_of_codeword hs h]
  exact Nat.add_lt_add_left (rank_lt hs (mem_of_codeword h)) _

theorem codeword_len_pos {n : Nat} {t : Lengths} (ht : Sparse.Formed 0 n t) {c : Codeword} (h : c ∈ codewords t) :
    1 ≤ c.len :=
  Nat.one_le_iff_ne_zero.2 (ht.2 _ (mem_of_codeword h)).2

/-- Codewords go up: shorter ones first, and equal lengths in increasing symbol order, each followed to the length of a later one ends before it. -/
theorem codeword_before {n : Nat} {t : Lengths} (ht : Sparse.Formed 0 n t) {c d : Codeword} (hc : c ∈ codewords t)
    (hd : d ∈ codewords t) (h : c.len < d.len ∨ c.len = d.len ∧ c.symbol < d.symbol) :
    (c.code + 1) * 2 ^ (d.len - c.len) ≤ d.code := by
  have hdcode := code_of_codeword ht.1 hd
  rcases h with hlen | ⟨hlen, hsym⟩
  · obtain ⟨k, hk⟩ : ∃ k, d.len = c.len + k + 1 := ⟨d.len - c.len - 1, by omega⟩
    calc (c.code + 1) * 2 ^ (d.len - c.len)
        ≤ (firstCode t c.len + blCount t c.len) * 2 ^ (d.len - c.len) :=
          Nat.mul_le_mul_right _ (code_lt_of_codeword ht.1 hc)
      _ = (firstCode t c.len + blCount t c.len) * 2 ^ (k + 1) := by rw [hk]; congr 2; omega
      _ ≤ firstCode t d.len := hk ▸ firstCode_mono t c.len k (codeword_len_pos ht hc)
      _ ≤ d.code := by omega
  · have hrank := rank_less (x := (c.symbol, c.len)) (y := (d.symbol, d.len)) ht.1 (mem_of_codeword hc) hlen hsym
    have hccode := code_of_codeword ht.1 hc
    rw [hlen, Nat.sub_self, pow_zero, Nat.mul_one, hdcode, hccode, hlen]
    simp only [hlen] at hrank
    omega

/-- A valid table's codewords fit their lengths (R151). -/
theorem codeword_fits {n depth : Nat} {t : Lengths} (ht : Sparse.Formed 0 n t) (hv : validTable depth t = true)
    {c : Codeword} (h : c ∈ codewords t) : c.len ≤ depth ∧ c.code < 2 ^ c.len := by
  obtain ⟨hdepth, hkraft⟩ := (validTable_iff depth t).1 hv
  have hlen : c.len ≤ depth := hdepth _ (mem_of_codeword h)
  have hsum : (c.code + 1) * 2 ^ (depth - c.len) ≤ 2 ^ c.len * 2 ^ (depth - c.len) :=
    calc (c.code + 1) * 2 ^ (depth - c.len)
        ≤ (firstCode t c.len + blCount t c.len) * 2 ^ (depth - c.len) :=
          Nat.mul_le_mul_right _ (code_lt_of_codeword ht.1 h)
      _ = _ := kraft_partial t depth c.len (codeword_len_pos ht h) hlen fun e he => (ht.2 e he).2
      _ ≤ kraftSum depth t := kraft_filter_le t depth c.len
      _ ≤ 2 ^ depth := hkraft
      _ = 2 ^ c.len * 2 ^ (depth - c.len) := by rw [← pow_add, Nat.add_sub_cancel' hlen]
  exact ⟨hlen, Nat.le_of_mul_le_mul_right hsum (Nat.two_pow_pos _)⟩

/-- The symbol and the length make the codeword. -/
theorem codeword_ext {t : Lengths} (hs : Assoc.Sorted t) {c d : Codeword} (hc : c ∈ codewords t) (hd : d ∈ codewords t)
    (hsym : c.symbol = d.symbol) (hlen : c.len = d.len) : c = d := by
  have hcode : c.code = d.code := by rw [code_of_codeword hs hc, code_of_codeword hs hd, hsym, hlen]
  cases c
  cases d
  simp_all

/-- No codeword is the beginning of another (R153). -/
theorem codeword_not_beginning {n : Nat} {t : Lengths} (ht : Sparse.Formed 0 n t) {c d : Codeword} (hc : c ∈ codewords t)
    (hd : d ∈ codewords t) (hne : c ≠ d) (hlen : c.len ≤ d.len) : d.code / 2 ^ (d.len - c.len) ≠ c.code := by
  by_cases hbefore : c.len < d.len ∨ c.len = d.len ∧ c.symbol < d.symbol
  · have hle : c.code + 1 ≤ d.code / 2 ^ (d.len - c.len) :=
      (Nat.le_div_iff_mul_le (Nat.two_pow_pos _)).2 (codeword_before ht hc hd hbefore)
    omega
  · obtain ⟨heq, hge⟩ : c.len = d.len ∧ d.symbol ≤ c.symbol := by omega
    have hsym : d.symbol < c.symbol := hge.lt_of_ne fun h => hne (codeword_ext ht.1 hc hd h.symm heq)
    have hafter := codeword_before ht hd hc (.inr ⟨heq.symm, hsym⟩)
    rw [heq, Nat.sub_self, pow_zero, Nat.mul_one] at hafter
    rw [heq, Nat.sub_self, pow_zero, Nat.div_one]
    omega

/-- A codeword's own bits find its symbol. -/
theorem matchCode_codeword {n : Nat} {t : Lengths} (ht : Sparse.Formed 0 n t) {c : Codeword} (hc : c ∈ codewords t) :
    matchCode (codewords t) c.len c.code = some c.symbol := by
  have hunique : ∀ d ∈ codewords t, d.len = c.len → d.code = c.code → d = c := fun d hd hlen hcode => by
    by_contra hne
    refine codeword_not_beginning ht hd hc hne hlen.le ?_
    rw [hlen, Nat.sub_self, pow_zero, Nat.div_one, hcode]
  cases hfind : (codewords t).find? fun d => d.len = c.len && d.code = c.code with
  | none => simpa using List.find?_eq_none.1 hfind c hc
  | some d =>
    have hd := List.find?_some hfind
    simp only [Bool.and_eq_true, decide_eq_true_eq] at hd
    rw [matchCode, hfind, hunique d (List.mem_of_find?_eq_some hfind) hd.1 hd.2]
    rfl

/-- Fewer bits of a codeword find no symbol. -/
theorem matchCode_beginning {n : Nat} {t : Lengths} (ht : Sparse.Formed 0 n t) {c : Codeword} (hc : c ∈ codewords t)
    {l k : Nat} (hl : l + k = c.len) (hk : 1 ≤ k) : matchCode (codewords t) l (c.code / 2 ^ k) = none := by
  rw [matchCode, Option.map_eq_none_iff, List.find?_eq_none]
  intro d hd hmatch
  simp only [Bool.and_eq_true, decide_eq_true_eq] at hmatch
  obtain ⟨hlen, hcode⟩ := hmatch
  refine codeword_not_beginning ht hd hc (fun h => ?_) (by omega) ?_
  · rw [h] at hlen; omega
  · rw [hcode]; congr 2; omega

/-! ## Bits spelled in the payload (R10, R102) -/

/-- The first of `k + 1` bits of a number, the others being its `k` lower ones. -/
theorem bitsMSB_succ (k v : Nat) : bitsMSB (k + 1) v = v.testBit k :: bitsMSB k v := by
  simp only [bitsMSB, List.range_succ_eq_map, List.map_cons, List.map_map]
  congr 1
  refine List.map_congr_left fun i _ => ?_
  simp only [Function.comp]
  congr 1
  omega

@[simp] theorem bitsMSB_length (n v : Nat) : (bitsMSB n v).length = n := by simp [bitsMSB]

/-- Shifting in the next bit of a number. -/
theorem two_mul_div_two_pow_add_testBit (v k : Nat) : 2 * (v / 2 ^ (k + 1)) + (v.testBit k).toNat = v / 2 ^ k := by
  rw [Nat.toNat_testBit, pow_succ, ← Nat.div_div_eq_div_mul]
  omega

theorem streamHolds_cons_iff {s : State} {p : Nat} {b : Bool} {r : List Bool} :
    StreamHolds s p (b :: r) ↔ streamBit s p = .ok b ∧ StreamHolds s (p + 1) r := by
  constructor
  · exact fun h => ⟨h 0 b rfl, fun k c hc => by rw [Nat.add_assoc, Nat.add_comm 1]; exact h (k + 1) c hc⟩
  · rintro ⟨hb, hr⟩ (_ | k) c hc
    · obtain rfl := Option.some.inj hc
      exact hb
    · rw [Nat.add_comm k 1, ← Nat.add_assoc]
      exact hr k c hc

theorem streamHolds_append_iff {s : State} {p : Nat} {a r : List Bool} :
    StreamHolds s p (a ++ r) ↔ StreamHolds s p a ∧ StreamHolds s (p + a.length) r := by
  induction a generalizing p with
  | nil => simp [StreamHolds]
  | cons b a ih =>
    rw [List.cons_append, streamHolds_cons_iff, streamHolds_cons_iff, ih, List.length_cons, and_assoc,
      Nat.add_right_comm, Nat.add_assoc]

/-- The payload goes on with the given bits: it has them left, and they stand where the next one is read. -/
def State.Ahead (s : State) (bits : List Bool) : Prop :=
  bits.length ≤ s.remaining ∧ StreamHolds s s.bitPos.toNat bits

/-- After reading bits that stand ahead, the rest stands ahead. -/
theorem State.ahead_append_iff {s : State} {a r : List Bool} :
    s.Ahead (a ++ r) ↔ s.Ahead a ∧ (s.advance a.length).Ahead r := by
  have hadvance (h : a.length ≤ s.remaining) :
      (s.advance a.length).Ahead r ↔
        r.length ≤ s.remaining - a.length ∧ StreamHolds s (s.bitPos.toNat + a.length) r := by
    rw [State.Ahead, State.remaining_advance h, State.bitPos_advance h]
    rfl
  unfold State.Ahead at hadvance ⊢
  rw [streamHolds_append_iff, List.length_append]
  constructor
  · rintro ⟨hlen, ha, hr⟩
    exact ⟨⟨by omega, ha⟩, (hadvance (by omega)).2 ⟨by omega, hr⟩⟩
  · rintro ⟨⟨hlen, ha⟩, hr⟩
    obtain ⟨hlenr, hr⟩ := (hadvance hlen).1 hr
    exact ⟨by omega, ha, hr⟩

theorem State.Ahead.readBit {s : State} {b : Bool} {r : List Bool} (h : s.Ahead (b :: r)) :
    Machine.readBit s = .ok b.toNat (s.advance 1) ∧ (s.advance 1).Ahead r := by
  obtain ⟨⟨hlen, hb⟩, hr⟩ := State.ahead_append_iff (a := [b]).1 h
  have hbit := (streamHolds_cons_iff.1 hb).1
  refine ⟨?_, hr⟩
  rcases readBit_cases s with ⟨h0, -⟩ | ⟨-, f, hf, -⟩ | ⟨-, c, hc, hread⟩
  · simp [h0] at hlen
  · simp [hbit] at hf
  · rw [hbit] at hc
    cases hc
    exact hread

/-- Reading the `n` bits of a number gives the number, the bits above them being already read. -/
theorem streamBits_of_streamHolds {s : State} {p n v : Nat} (h : StreamHolds s p (bitsMSB n v)) :
    streamBits s p n (v / 2 ^ n) = .ok v := by
  induction n generalizing p with
  | zero => simp [streamBits]
  | succ n ih =>
    rw [bitsMSB_succ, streamHolds_cons_iff] at h
    rw [streamBits_succ, h.1]
    dsimp only
    rw [two_mul_div_two_pow_add_testBit]
    exact ih h.2

/-! ## Fields read back (R104, R105, R107) -/

/-- Extra bits are read as the number they spell (40_bitreader.md R134). -/
theorem readExtra_spelled {s : State} {k x : Nat} (hx : x < 2 ^ k) (h : s.Ahead (bitsMSB k x)) :
    readExtra k s = .ok x (s.advance k) := by
  obtain ⟨hlen, hbits⟩ := h
  rw [bitsMSB_length] at hlen
  unfold readExtra
  split
  · next hk =>
    subst hk
    obtain rfl : x = 0 := by simpa using hx
    rw [State.advance_zero]
  · have hread := streamBits_of_streamHolds hbits
    rw [Nat.div_eq_of_lt hx] at hread
    exact readBits_eq_ok.2 ⟨hlen, hread, rfl⟩

theorem readValue_spelled {s : State} {row : ExtraRow} {x : Nat} (hx : x < 2 ^ row.extra)
    (h : s.Ahead (bitsMSB row.extra x)) : readValue row s = .ok (row.base + x) (s.advance row.extra) := by
  rw [readValue, readExtra_spelled hx h, Res.bind_ok]

/-- The descent, `l` bits of a codeword read, reads its other `k` bits and answers its symbol (41_codetree.md R154). -/
theorem descend_spelled {n : Nat} {t : Lengths} (ht : Sparse.Formed 0 n t) {c : Codeword} (hc : c ∈ codewords t)
    {fuel l k : Nat} {s : State} (hl : l + k = c.len) (hk : 1 ≤ k) (hfuel : k ≤ fuel) (h : s.Ahead (bitsMSB k c.code)) :
    descend (codewords t) fuel l (c.code / 2 ^ k) s = .ok c.symbol (s.advance k) := by
  induction fuel generalizing l k s with
  | zero => omega
  | succ fuel ih =>
    obtain ⟨k, rfl⟩ : ∃ k', k = k' + 1 := ⟨k - 1, by omega⟩
    rw [bitsMSB_succ] at h
    obtain ⟨hread, hrest⟩ := h.readBit
    rw [descend_succ, hread, Res.bind_ok, two_mul_div_two_pow_add_testBit]
    rcases Nat.eq_zero_or_pos k with rfl | hk'
    · rw [pow_zero, Nat.div_one, show l + 1 = c.len from hl, matchCode_codeword ht hc]
    · rw [matchCode_beginning ht hc (by omega) hk']
      dsimp only
      rw [ih (by omega) hk' (by omega) hrest, State.advance_advance, Nat.add_comm]

/-- What a tree spells for a symbol: nothing in a Single tree, its codeword in a Full one (R152, R153). -/
theorem spellSymbol_eq_some {t : Lengths} {symbol : Nat} {bits : List Bool} (h : spellSymbol t symbol = some bits) :
    (classify t = .single symbol ∧ bits = []) ∨
    (classify t = .full ∧ ∃ c ∈ codewords t, c.symbol = symbol ∧ bits = bitsMSB c.len c.code) := by
  unfold spellSymbol at h
  split at h
  · simp at h
  · next x hclass =>
    split at h
    · next hx => exact .inl ⟨hx ▸ hclass, (Option.some.inj h).symm⟩
    · simp at h
  · next hclass =>
    obtain ⟨c, hfind, hbits⟩ := Option.map_eq_some_iff.1 h
    exact .inr ⟨hclass, c, List.mem_of_find?_eq_some hfind, by simpa using List.find?_some hfind, hbits.symm⟩

/-- A symbol is decoded as it is spelled, and exactly its bits are consumed. -/
theorem decodeOne_spelled {n depth : Nat} {t : Lengths} {symbol : Nat} {bits : List Bool} {s : State}
    (ht : Sparse.Formed 0 n t) (hv : validTable depth t = true) (hspell : spellSymbol t symbol = some bits)
    (h : s.Ahead bits) : decodeOne depth t s = .ok symbol (s.advance bits.length) := by
  unfold decodeOne
  rcases spellSymbol_eq_some hspell with ⟨hclass, rfl⟩ | ⟨hclass, c, hc, rfl, rfl⟩ <;> rw [hclass]
  · simp
  · obtain ⟨hdepth, hfits⟩ := codeword_fits ht hv hc
    have hdescend := descend_spelled ht hc (Nat.zero_add _) (codeword_len_pos ht hc) hdepth h
    rw [Nat.div_eq_of_lt hfits] at hdescend
    rw [bitsMSB_length]
    exact hdescend

/-- The four fields of a MATCH, for rows the tables have (R105). -/
theorem spellMatch_eq_some {c : Cfg} {lenLL lenD : Lengths} {i lx j dx : Nat} {lr dr : ExtraRow} {bits : List Bool}
    (hlr : c.lens[i]? = some lr) (hdr : c.dists[j]? = some dr) (h : spellMatch c lenLL lenD i lx j dx = some bits) :
    ∃ llc dc, spellSymbol lenLL (256 + i) = some llc ∧ spellSymbol lenD j = some dc ∧
      bits = llc ++ (bitsMSB lr.extra lx ++ (dc ++ bitsMSB dr.extra dx)) := by
  unfold spellMatch at h
  rw [hlr, hdr] at h
  cases hll : spellSymbol lenLL (256 + i) <;> cases hd : spellSymbol lenD j <;> simp_all

/-- A distance is read as it is spelled, its symbol counted (43_decoder.md R207, R208). -/
theorem readDistance_spelled {s : State} {j dx : Nat} {dr : ExtraRow} {dc : List Bool}
    (hf : Sparse.Formed 0 s.cfg.nd s.lenD) (hv : validTable s.cfg.maxDepthD s.lenD = true)
    (hdr : s.cfg.dists[j]? = some dr) (hdx : dx < 2 ^ dr.extra) (hspell : spellSymbol s.lenD j = some dc)
    (h : s.Ahead (dc ++ bitsMSB dr.extra dx)) :
    readDistance s = .ok (dr.base + dx) ((s.advance (dc.length + dr.extra)).countD j) := by
  obtain ⟨hcode, hextra⟩ := State.ahead_append_iff.1 h
  have hextra' : ((s.advance dc.length).countD j).Ahead (bitsMSB dr.extra dx) := hextra
  rw [readDistance, decodeD, decodeOne_spelled hf hv hspell hcode, Res.bind_ok]
  simp only [State.advance_cfg, hdr]
  rw [readValue_spelled hdx hextra', ← State.advance_advance]
  rfl

/-- Length and distance are read as they are spelled (43_decoder.md R205 to R207). -/
theorem readMatchOperands_spelled {s : State} {lr dr : ExtraRow} {lx j dx : Nat} {dc : List Bool}
    (hf : Sparse.Formed 0 s.cfg.nd s.lenD) (hv : validTable s.cfg.maxDepthD s.lenD = true)
    (hdr : s.cfg.dists[j]? = some dr) (hlx : lx < 2 ^ lr.extra) (hdx : dx < 2 ^ dr.extra)
    (hspell : spellSymbol s.lenD j = some dc) (h : s.Ahead (bitsMSB lr.extra lx ++ (dc ++ bitsMSB dr.extra dx))) :
    readMatchOperands lr s =
      .ok (lr.base + lx, dr.base + dx) ((s.advance (lr.extra + (dc.length + dr.extra))).countD j) := by
  obtain ⟨hlength, hdistance⟩ := State.ahead_append_iff.1 h
  rw [bitsMSB_length] at hdistance
  rw [readMatchOperands, readValue_spelled hlx hlength, Res.bind_ok,
    readDistance_spelled (s := s.advance lr.extra) hf hv hdr hdx hspell hdistance, Res.bind_ok, State.advance_advance]

/-! ## The whole MATCH -/

/-- A symbol past the literals is MATCH (R106). -/
theorem decodeSymbol_match {nll i : Nat} (h : 256 + i < nll) : decodeSymbol nll (256 + i) = .ok (.matchRef i) := by
  rw [decodeSymbol, if_neg (by omega), if_pos h, Nat.add_sub_cancel_left]

/-- Settles O8: the codeword descends to its own symbol, no part of it being another's, and each field begins where the one before it ended. -/
theorem spelledMatchIsDecoded : Obligations.SpelledMatchIsDecoded := by
  intro s lr dr i lx j dx bits hcfg hcanon hvLL hvD hlr hdr hlx hdx hspell hlen hbits
  obtain ⟨llc, dc, hll, hd, rfl⟩ := spellMatch_eq_some hlr hdr hspell
  obtain ⟨hsymbol, hoperands⟩ := State.ahead_append_iff.1 ⟨hlen, hbits⟩
  refine ⟨s.advance llc.length, decodeOne_spelled hcanon.lenLL hvLL hll hsymbol, decodeSymbol_match ?_, ?_⟩
  · have hi := (List.getElem?_eq_some_iff.1 hlr).1
    have hlens := hcfg.facts.lens
    omega
  · rw [readMatchOperands_spelled (s := (s.advance llc.length).countLL (256 + i)) hcanon.lenD hvD hdr hlx hdx hd hoperands]
    simp only [List.length_append, bitsMSB_length, ← State.advance_advance]
    rfl

/-! ## Words and their bytes (00_scope.md R11) -/

theorem byteOf_toNat (w k : Nat) : (byteOf w k).toNat = w / 256 ^ k % 256 := BitVec.toNat_ofNat ..

theorem le32_toNat (b0 b1 b2 b3 : Byte) :
    (le32 b0 b1 b2 b3).toNat = b0.toNat + 256 * b1.toNat + 65536 * b2.toNat + 16777216 * b3.toNat := by
  have := b0.isLt
  have := b1.isLt
  have := b2.isLt
  have := b3.isLt
  rw [le32, BitVec.toNat_ofNat, Nat.mod_eq_of_lt (by omega)]

/-- A word is put together from its bytes. -/
theorem le32_byteOf (w : U32) : le32 (byteOf w.toNat 0) (byteOf w.toNat 1) (byteOf w.toNat 2) (byteOf w.toNat 3) = w := by
  have := w.isLt
  refine BitVec.eq_of_toNat_eq ?_
  simp only [le32_toNat, byteOf_toNat]
  omega

/-- The bytes of a word are the ones it was put together from. -/
theorem byteOf_le32 (b0 b1 b2 b3 : Byte) :
    byteOf (le32 b0 b1 b2 b3).toNat 0 = b0 ∧ byteOf (le32 b0 b1 b2 b3).toNat 1 = b1 ∧
      byteOf (le32 b0 b1 b2 b3).toNat 2 = b2 ∧ byteOf (le32 b0 b1 b2 b3).toNat 3 = b3 := by
  have := b0.isLt
  have := b1.isLt
  have := b2.isLt
  have := b3.isLt
  refine ⟨?_, ?_, ?_, ?_⟩ <;>
    · refine BitVec.eq_of_toNat_eq ?_
      rw [byteOf_toNat, le32_toNat]
      omega

/-- The low four bytes of a 64-bit word are those of its low half. -/
theorem byteOf_low (a : U32) (b k : Nat) (hk : k < 4) : byteOf (a.toNat + 2 ^ 32 * b) k = byteOf a.toNat k := by
  have hsplit : 2 ^ 32 * b = 256 ^ k * (256 * (256 ^ (3 - k) * b)) := by
    rw [← Nat.mul_assoc, ← Nat.mul_assoc, ← pow_succ, ← pow_add, show k + 1 + (3 - k) = 4 by omega]
    norm_num
  refine BitVec.eq_of_toNat_eq ?_
  rw [byteOf_toNat, byteOf_toNat, hsplit, Nat.add_mul_div_left _ _ (by positivity), Nat.add_mul_mod_self_left]

/-- The high four bytes of a 64-bit word are those of its high half. -/
theorem byteOf_high (a : U32) (b k : Nat) : byteOf (a.toNat + 2 ^ 32 * b) (4 + k) = byteOf b k := by
  have hhalf : (a.toNat + 2 ^ 32 * b) / 256 ^ 4 = b := by
    have := a.isLt
    omega
  rw [byteOf, pow_add, ← Nat.div_div_eq_div_mul, hhalf, byteOf]

/-! ## Decoding what is encoded (R100, R106, R113) -/

theorem wellFormed_matchRef_iff {c : Cfg} {i : Nat} : (Instr.matchRef i).WellFormed c ↔ 256 + i < c.nll := by
  simp [Instr.WellFormed, Instr.illFormed]

theorem decodeSymbol_literal (nll : Nat) (b : Byte) : decodeSymbol nll b.toNat = .ok (.lit b) := by
  rw [decodeSymbol, if_pos b.isLt, BitVec.ofNat_toNat, BitVec.setWidth_eq]

theorem decodeCtrl_start (go : Bool) : decodeCtrl (if go then 1 else 0) = .start go := by
  cases go <;> rfl

/-- An instruction is what its encoding decodes to, in every alphabet at least as large as that of a configuration that has it. -/
theorem decode_encode {c : Cfg} {i : Instr} {nll : Nat} (hnll : c.nll ≤ nll) (hi : i.WellFormed c) :
    decode nll (encode i) = .ok i := by
  cases i with
  | frameHeader cs os => simp only [encode, decode, decodeHeader, le32_byteOf]
  | lit b => exact decodeSymbol_literal nll b
  | matchRef i => exact decodeSymbol_match ((wellFormed_matchRef_iff.1 hi).trans_le hnll)
  | start go => exact congrArg Except.ok (decodeCtrl_start go)

/-- Settles O2: the configuration's own alphabet is large enough. -/
theorem encodedInstructionDecodes : Obligations.EncodedInstructionDecodes :=
  fun _ _ _ hi => decode_encode le_rfl hi

/-- The header word's bytes are the header's, the low half first (R101). -/
theorem bytesOf_tableWord_frameHeader (cs os : U32) :
    Encoded.header (bytesOf 8 (tableWord (.frameHeader cs os))) = encode (.frameHeader cs os) := by
  have hhigh := byteOf_high cs os.toNat
  simp only [bytesOf, tableWord, encode, List.range_succ, List.range_zero, List.nil_append, List.cons_append, List.map_cons,
    List.map_nil]
  rw [byteOf_low _ _ 0 (by decide), byteOf_low _ _ 1 (by decide), byteOf_low _ _ 2 (by decide), byteOf_low _ _ 3 (by decide),
    hhigh 0, hhigh 1, hhigh 2, hhigh 3]

/-- An instruction's table word stands for its encoding. -/
theorem tableEncoded_tableWord {c : Cfg} {i : Instr} (hc : CfgOk c) (hi : i.WellFormed c) :
    tableEncoded (tableBits i) (tableWord i) = some (encode i) := by
  cases i with
  | frameHeader cs os => exact congrArg some (bytesOf_tableWord_frameHeader cs os)
  | lit b =>
    have hfits := Laws.Fits.lit b c hc hi
    exact congrArg (some ∘ Encoded.symbol) (Nat.mod_eq_of_lt hfits)
  | matchRef i =>
    have hfits := Laws.Fits.matchRef i c hc hi
    exact congrArg (some ∘ Encoded.symbol) (Nat.mod_eq_of_lt hfits)
  | start go => cases go <;> rfl

/-- Settles O3: the table word stands for the encoding, and no configuration's alphabet is larger than the one it is read in. -/
theorem tableWordDecodes : Obligations.TableWordDecodes := by
  intro c i hc hi
  have hdecode : decode largestNLL (encode i) = .ok i := decode_encode hc.facts.nllMax hi
  rw [decodeTableWord, tableEncoded_tableWord hc hi]
  exact congrArg Except.toOption hdecode

/-! ## Encoding what is decoded -/

/-- Eight header bytes are the encoding of the header they decode to (R100). -/
theorem encode_of_decodeHeader {bytes : List Byte} {i : Instr} (hlen : bytes.length = 8) (h : decodeHeader bytes = .ok i) :
    encode i = .header bytes := by
  match bytes, hlen with
  | [b0, b1, b2, b3, b4, b5, b6, b7], _ =>
    obtain rfl := Except.ok.inj h
    obtain ⟨h0, h1, h2, h3⟩ := byteOf_le32 b0 b1 b2 b3
    obtain ⟨h4, h5, h6, h7⟩ := byteOf_le32 b4 b5 b6 b7
    rw [encode, h0, h1, h2, h3, h4, h5, h6, h7]

/-- A symbol id is the encoding of the instruction it selects (R106). -/
theorem encode_of_decodeSymbol {nll id : Nat} {i : Instr} (h : decodeSymbol nll id = .ok i) : encode i = .symbol id := by
  unfold decodeSymbol at h
  split at h
  · next hlit =>
    obtain rfl := Except.ok.inj h
    rw [encode, BitVec.toNat_ofNat, Nat.mod_eq_of_lt hlit]
  · next hnot =>
    split at h
    · obtain rfl := Except.ok.inj h
      rw [encode, Nat.add_sub_cancel' (by omega)]
    · simp at h

/-- Settles O4, place by place: header bytes, symbol ids, and the CTRL words 0 and 1. -/
theorem decodedWordReencodes : Obligations.DecodedWordReencodes := by
  intro n e i hdecode hheader hctrl
  cases e with
  | header bytes => exact encode_of_decodeHeader (hheader bytes rfl) hdecode
  | symbol id => exact encode_of_decodeSymbol hdecode
  | ctrl w =>
    obtain rfl := Except.ok.inj hdecode
    obtain rfl | rfl := hctrl w rfl <;> rfl

/-- Settles O1: the sample words, the ends of the two ranges of symbols among them, are evaluated. -/
theorem sampleWordsDecode : Obligations.SampleWordsDecode :=
  ⟨rfl, rfl, rfl, rfl, rfl, rfl, rfl, rfl⟩

end Sys2Proof.Machine
end

section
/-! SUPPORT. The BitReader (40_bitreader.md): the number `read_bits` assembles, `peek_bits` and `read_extra` beside it, and that no read of a symbol
step goes past the boundary. -/

namespace Sys2Proof.Machine

/-! ## read_bits (R131) -/

/-- Bits that stand from a position on spell the number whose binary digits they are, the first one the most significant. -/
theorem streamHolds_bitsMSB {s : State} {p n v : Nat} {f : Nat → Bool} (hv : ∀ k, k < n → v.testBit (n - 1 - k) = f k)
    (hf : ∀ k, k < n → streamBit s (p + k) = .ok (f k)) : StreamHolds s p (bitsMSB n v) := by
  intro k b hb
  rw [bitsMSB, List.getElem?_map, Option.map_eq_some_iff] at hb
  obtain ⟨i, hi, rfl⟩ := hb
  obtain ⟨hk, rfl⟩ := List.getElem?_eq_some_iff.1 hi
  rw [List.length_range] at hk
  rw [List.getElem_range, hv k hk, hf k hk]

/-- The number whose `n` binary digits are given, the first one the most significant. -/
theorem exists_number_of_digits (n : Nat) (f : Nat → Bool) :
    ∃ v, v < 2 ^ n ∧ ∀ k, k < n → v.testBit (n - 1 - k) = f k := by
  refine ⟨Nat.ofBits fun i : Fin n => f (n - 1 - i), Nat.ofBits_lt_two_pow _, fun k hk => ?_⟩
  rw [Nat.testBit_ofBits_lt _ _ (by omega)]
  exact congrArg f (Nat.sub_sub_self (Nat.le_sub_one_of_lt hk))

/-- Settles O10: the payload holds the digits of a number, and that is the number the loop assembles. -/
theorem readBitsReturnsNextBits : Obligations.ReadBitsReturnsNextBits := by
  intro s n f hn _
  refine ⟨fun hshort => readBits_eq_raise.2 ⟨?_, rfl, rfl⟩, fun hroom hbits => ?_⟩
  · unfold State.remaining
    omega
  · have hrem : n ≤ s.remaining := Nat.le_sub_of_add_le (by omega)
    obtain ⟨v, hlt, hdigits⟩ := exists_number_of_digits n f
    have hread := streamBits_of_streamHolds (streamHolds_bitsMSB hdigits hbits)
    rw [Nat.div_eq_of_lt hlt] at hread
    exact ⟨v, s.advance n, readBits_eq_ok.2 ⟨hrem, hread, rfl⟩, hlt, hdigits, State.bitPos_advance hrem, rfl⟩

/-! ## peek_bits (R133) -/

/-- `read_bits` is `peek_bits`, then `bit_pos` moved on. -/
theorem readBits_eq_peekBits_bind (n : Nat) (s : State) :
    readBits n s = (peekBits n s).bind fun v t => .ok v (t.advance n) := by
  unfold readBits peekBits
  split
  · rfl
  · cases streamBits s s.bitPos.toNat n 0 <;> rfl

theorem peekBits_ok_state {n v : Nat} {s t : State} (h : peekBits n s = .ok v t) : t = s := by
  unfold peekBits at h
  split at h
  · simp at h
  · cases hb : streamBits s s.bitPos.toNat n 0 <;> simp_all

/-- Settles O11: moving `bit_pos` on is all `read_bits` does after `peek_bits`, and it raises nothing. -/
theorem peekBitsReadsWithoutAdvancing : Obligations.PeekBitsReadsWithoutAdvancing := by
  intro s n
  rw [readBits_eq_peekBits_bind]
  refine ⟨fun v t hread => ?_, fun v t hpeek => ⟨peekBits_ok_state hpeek, t.advance n, ?_⟩, fun e t => ?_⟩
  · obtain ⟨w, u, hpeek, hadvance⟩ := Res.bind_eq_ok.1 hread
    obtain rfl := peekBits_ok_state hpeek
    cases hadvance
    exact hpeek
  · rw [hpeek, Res.bind_ok]
  · simp [Res.bind_eq_raise]

/-! ## read_extra (R134) -/

/-- Settles O12: the test for `k = 0` comes before any read, and what is read has `k` bits. -/
theorem readExtraReadsOnlyWhenAsked : Obligations.ReadExtraReadsOnlyWhenAsked :=
  fun _ _ => ⟨rfl, fun hk => if_neg (by omega), fun _ _ h => (readExtra_eq_ok h).2⟩

/-! ## IN past the boundary (R136, R243)

`s.withIn m` is `s` with another IN. Where `m` agrees with IN below the boundary, every primitive of a symbol step ends alike in the two states: the
relation `SameButIn` is proved of the primitives one by one and carried through sequences by `SameButIn.bind`. -/

/-- The state with IN replaced. -/
def State.withIn (m : Memory) (s : State) : State := { s with inp := m }

@[simp] theorem State.withIn_cfg (m : Memory) (s : State) : (s.withIn m).cfg = s.cfg := rfl
@[simp] theorem State.withIn_bitPos (m : Memory) (s : State) : (s.withIn m).bitPos = s.bitPos := rfl

/-- `m` holds what IN holds in the header and the payload. -/
def State.SamePayload (m : Memory) (s : State) : Prop :=
  ∀ a, a < 8 + s.bnd.toNat → Assoc.get? m a = Assoc.get? s.inp a

/-- Two results that agree but for IN, which is `m` in the second; after a value the payload still agrees with `m`, so reading can go on. -/
inductive SameButIn {α : Type} (m : Memory) : Res α → Res α → Prop
  | ok (a : α) (s : State) (h : s.SamePayload m) : SameButIn m (.ok a s) (.ok a (s.withIn m))
  | raise (e : ErrorKind) (s : State) : SameButIn m (.raise e s) (.raise e (s.withIn m))
  | fault (f : Fault) : SameButIn m (.fault f) (.fault f)

theorem SameButIn.bind {α β : Type} {m : Memory} {r r' : Res α} {k : α → State → Res β} (h : SameButIn m r r')
    (hk : ∀ a s, s.SamePayload m → SameButIn m (k a s) (k a (s.withIn m))) : SameButIn m (r.bind k) (r'.bind k) := by
  cases h with
  | ok a s hs => exact hk a s hs
  | raise e s => exact .raise e s
  | fault f => exact .fault f

theorem SameButIn.ite {α : Type} {m : Memory} {c : Prop} [Decidable c] {r r' q q' : Res α} (hr : SameButIn m r r')
    (hq : ¬ c → SameButIn m q q') : SameButIn m (if c then r else q) (if c then r' else q') := by
  split
  · exact hr
  · exact hq ‹_›

section Primitives

variable {m : Memory} {s : State}

/-! ### The reader -/

/-- The byte of a payload bit lies below the boundary. -/
theorem streamBit_withIn (h : s.SamePayload m) {p : Nat} (hp : p < 8 * s.bnd.toNat) :
    streamBit (s.withIn m) p = streamBit s p := by
  have hbyte : Assoc.get? m (8 + p / 8) = Assoc.get? s.inp (8 + p / 8) := h _ (by omega)
  simp only [streamBit, readIn, State.withIn, hbyte]

theorem streamBits_withIn (h : s.SamePayload m) {p n : Nat} (v : Nat) (hp : n = 0 ∨ p + n ≤ 8 * s.bnd.toNat) :
    streamBits (s.withIn m) p n v = streamBits s p n v := by
  induction n generalizing p v with
  | zero => rfl
  | succ n ih =>
    rw [streamBits_succ, streamBits_succ, streamBit_withIn h (by omega)]
    cases streamBit s p with
    | error f => rfl
    | ok b => exact ih _ (by omega)

theorem readBits_sameButIn (h : s.SamePayload m) (n : Nat) : SameButIn m (readBits n s) (readBits n (s.withIn m)) := by
  refine .ite (.raise .truncatedInput s) fun hroom => ?_
  rw [State.withIn_bitPos, streamBits_withIn h 0 (by unfold State.remaining at hroom; omega)]
  cases streamBits s s.bitPos.toNat n 0 with
  | error f => exact .fault f
  | ok v => exact .ok v (s.advance n) h

theorem readExtra_sameButIn (h : s.SamePayload m) (k : Nat) : SameButIn m (readExtra k s) (readExtra k (s.withIn m)) :=
  .ite (.ok 0 s h) fun _ => readBits_sameButIn h k

theorem readValue_sameButIn (h : s.SamePayload m) (row : ExtraRow) :
    SameButIn m (readValue row s) (readValue row (s.withIn m)) :=
  (readExtra_sameButIn h row.extra).bind fun x t ht => .ok (row.base + x) t ht

/-! ### The trees -/

theorem descend_sameButIn (cs : List Codeword) (fuel l v : Nat) (h : s.SamePayload m) :
    SameButIn m (descend cs fuel l v s) (descend cs fuel l v (s.withIn m)) := by
  induction fuel generalizing l v s with
  | zero => exact .raise .corruptCodeTree s
  | succ fuel ih =>
    refine (readBits_sameButIn h 1).bind fun b t ht => ?_
    cases matchCode cs (l + 1) (2 * v + b) with
    | some symbol => exact .ok symbol t ht
    | none => exact ih _ _ ht

theorem decodeOne_sameButIn (depth : Nat) (t : Lengths) (h : s.SamePayload m) :
    SameButIn m (decodeOne depth t s) (decodeOne depth t (s.withIn m)) := by
  unfold decodeOne
  cases classify t with
  | empty => exact .raise .corruptCodeTree s
  | single symbol => exact .ok symbol s h
  | full => exact descend_sameButIn _ _ _ _ h

/-! ### The operands of MATCH -/

theorem readDistance_sameButIn (h : s.SamePayload m) : SameButIn m (readDistance s) (readDistance (s.withIn m)) := by
  refine (decodeOne_sameButIn s.cfg.maxDepthD s.lenD h).bind fun j t ht => ?_
  rw [State.withIn_cfg]
  cases t.cfg.dists[j]? with
  | none => exact .fault .distanceOutsideAlphabet
  | some row => exact readValue_sameButIn (s := t.countD j) ht row

theorem readMatchOperands_sameButIn (h : s.SamePayload m) (row : ExtraRow) :
    SameButIn m (readMatchOperands row s) (readMatchOperands row (s.withIn m)) :=
  (readValue_sameButIn h row).bind fun length _ ht =>
    (readDistance_sameButIn ht).bind fun distance u hu => .ok (length, distance) u hu

/-! ### Emitting and copying -/

theorem emitByte_sameButIn (h : s.SamePayload m) (b : Byte) : SameButIn m (emitByte b s) (emitByte b (s.withIn m)) :=
  .ite (.ok () (s.emit b) h) fun _ => .fault .outputOutOfRange

theorem copyLoop_sameButIn (distance length : Nat) (h : s.SamePayload m) :
    SameButIn m (copyLoop distance length s) (copyLoop distance length (s.withIn m)) := by
  induction length generalizing s with
  | zero => exact .ok () s h
  | succ k ih =>
    have hread : readOut (s.withIn m) ((s.withIn m).wp.toNat - distance) = readOut s (s.wp.toNat - distance) := rfl
    rw [copyLoop_succ, copyLoop_succ, hread]
    cases readOut s (s.wp.toNat - distance) with
    | error f => exact .fault f
    | ok b => exact (emitByte_sameButIn h b).bind fun _ t ht => ih ht

theorem copyBack_sameButIn (h : s.SamePayload m) (distance length : Nat) :
    SameButIn m (copyBack distance length s) (copyBack distance length (s.withIn m)) :=
  .ite (.raise .invalidBackReference s) fun _ =>
    .ite (.raise .invalidBackReference s) fun _ => copyLoop_sameButIn distance length h

theorem matchEffect_sameButIn (h : s.SamePayload m) (row : ExtraRow) :
    SameButIn m (matchEffect row s) (matchEffect row (s.withIn m)) :=
  (readMatchOperands_sameButIn h row).bind fun p _ ht => copyBack_sameButIn ht p.2 p.1

/-! ### Completion and rebuild -/

theorem installLL_sameButIn (h : s.SamePayload m) (t : Lengths) :
    SameButIn m (installLL t s) (installLL t (s.withIn m)) :=
  .ite (.ok () (s.setLenLL t) h) fun _ => .raise .corruptCodeTree s

theorem installD_sameButIn (h : s.SamePayload m) (t : Lengths) : SameButIn m (installD t s) (installD t (s.withIn m)) :=
  .ite (.ok () (s.setLenD t) h) fun _ => .raise .corruptCodeTree s

theorem completeOrRebuild_sameButIn (h : s.SamePayload m) :
    SameButIn m (completeOrRebuild s) (completeOrRebuild (s.withIn m)) := by
  have hrebuild : SameButIn m (rebuildTrees s) (rebuildTrees (s.withIn m)) :=
    (installLL_sameButIn h _).bind fun _ t ht => installD_sameButIn ht (rebuiltD t.cfg t.cntD)
  have hcomplete : SameButIn m (complete s) (complete (s.withIn m)) :=
    .ite (.raise .lengthMismatch s) fun _ => .ok () (s.enter .done) h
  exact .ite hcomplete fun _ => .ite hrebuild fun _ => .ok () s h

/-! ### The symbol step -/

theorem symbolInstr_sameButIn (h : s.SamePayload m) (symbol : Nat) {effect : State → Res Unit}
    (heffect : ∀ t, t.SamePayload m → SameButIn m (effect t) (effect (t.withIn m))) :
    SameButIn m (symbolInstr symbol effect s) (symbolInstr symbol effect (s.withIn m)) :=
  (heffect (s.countLL symbol) h).bind fun _ t ht => completeOrRebuild_sameButIn (s := t.countInstr) ht

/-- Two outcomes of a step that agree but for IN, which is `m` in the second. -/
inductive StepSameButIn (m : Memory) :
    Host.Outcome State Fault Refusal → Host.Outcome State Fault Refusal → Prop
  | next (t : State) : StepSameButIn m (.next t) (.next (t.withIn m))
  | fault (f : Fault) : StepSameButIn m (.fault f) (.fault f)
  | refused (r : Refusal) : StepSameButIn m (.refused r) (.refused r)

theorem SameButIn.finish {r r' : Res Unit} (h : SameButIn m r r') : StepSameButIn m r.finish r'.finish := by
  cases h with
  | ok _ t => exact .next t
  | raise e t => exact .next (t.fail e)
  | fault f => exact .fault f

theorem StepSameButIn.ite {c : Prop} [Decidable c] {o o' q q' : Host.Outcome State Fault Refusal}
    (ho : StepSameButIn m o o') (hq : StepSameButIn m q q') :
    StepSameButIn m (if c then o else q) (if c then o' else q') := by
  split
  · exact ho
  · exact hq

theorem execLit_sameButIn (h : s.SamePayload m) (b : Byte) :
    StepSameButIn m (execLit b s) (execLit b (s.withIn m)) :=
  .ite (symbolInstr_sameButIn h b.toNat fun _ ht => emitByte_sameButIn ht b).finish (.refused .noStepInThisState)

theorem execMatchRef_sameButIn (h : s.SamePayload m) (i : Nat) :
    StepSameButIn m (execMatchRef i s) (execMatchRef i (s.withIn m)) := by
  refine .ite ?_ (.refused .noStepInThisState)
  rw [State.withIn_cfg]
  cases s.cfg.lens[i]? with
  | none => exact .refused .lengthIndexOutsideAlphabet
  | some row => exact (symbolInstr_sameButIn h (256 + i) fun _ ht => matchEffect_sameButIn ht row).finish

/-- A decoded LL symbol is LIT, MATCH or no instruction (30_encoding.md R106). -/
theorem runDecoded_symbol_sameButIn (h : s.SamePayload m) (nll symbol : Nat) :
    StepSameButIn m (runDecoded (decodeSymbol nll symbol) s).outcome
      (runDecoded (decodeSymbol nll symbol) (s.withIn m)).outcome := by
  unfold decodeSymbol
  split
  · exact execLit_sameButIn h _
  · split
    · exact execMatchRef_sameButIn h _
    · exact .refused _

theorem fetchSymbol_sameButIn (h : s.SamePayload m) :
    StepSameButIn m (fetchSymbol s).outcome (fetchSymbol (s.withIn m)).outcome := by
  have hdecode : SameButIn m (decodeLL s) (decodeLL (s.withIn m)) := decodeOne_sameButIn _ _ h
  unfold fetchSymbol
  generalize decodeLL s = r, decodeLL (s.withIn m) = r' at hdecode
  cases hdecode with
  | ok symbol t ht => exact runDecoded_symbol_sameButIn ht s.cfg.nll symbol
  | raise e t => exact .next (t.fail e)
  | fault f => exact .fault f

end Primitives

/-- With no move of the host pending, a step of DecodingSymbols fetches a symbol and runs it (43_decoder.md R200, R203). -/
theorem step_eq_fetchSymbol {s : State} (hc : CfgOk s.cfg) (hf : s.fsm = .decodingSymbols) (hh : s.host = []) :
    step s = (fetchSymbol s).outcome := by
  rw [step_eq_outcome hc, nextAction, hh]
  dsimp only
  rw [blockAction, hf]

theorem step_sameButIn {m : Memory} {s : State} (h : s.SamePayload m) (hf : s.fsm = .decodingSymbols) (hh : s.host = []) :
    StepSameButIn m (step s) (step (s.withIn m)) := by
  cases hv : violated s.cfg with
  | some r =>
    rw [step_refused_of_violated hv, step_refused_of_violated (s := s.withIn m) hv]
    exact .refused _
  | none =>
    rw [step_eq_fetchSymbol hv hf hh, step_eq_fetchSymbol (s := s.withIn m) hv hf hh]
    exact fetchSymbol_sameButIn h

/-- Settles O13: a step reads IN through `read_bits` alone, and that only below the boundary. -/
theorem trailingInputIsNeverRead : Obligations.TrailingInputIsNeverRead := by
  intro s m hf hh hpayload
  have hsame : StepSameButIn m (step s) (step { s with inp := m }) := step_sameButIn hpayload hf hh
  generalize step s = o, step { s with inp := m } = o' at hsame
  cases hsame with
  | next t => exact ⟨fun _ ht => by cases ht; rfl, nofun, nofun⟩
  | fault f => exact ⟨nofun, fun _ hf' => by cases hf'; rfl, nofun⟩
  | refused r => exact ⟨nofun, nofun, fun _ hr => by cases hr; rfl⟩

end Sys2Proof.Machine
end

section
/-! SUPPORT. The code trees (41_codetree.md): the canonical codewords, when a table is valid, what `decode_one` answers, consumes and raises in each
class of tree, the complete code, the decoder by lookahead, and that a decode from one tree leaves the other alone. -/

namespace Sys2Proof.Machine

/-! ## Canonical codewords (R153) -/

/-- The codewords assigned are the symbols still to be assigned, with their lengths, in order. -/
theorem assignCodes_symbols_lens (t done todo : Lengths) :
    ((assignCodes t done todo).map fun c => (c.symbol, c.len)) = todo := by
  induction todo generalizing done with
  | nil => rfl
  | cons e r ih => rw [assignCodes, List.map_cons, ih]

/-- Settles O5: a codeword's number is the first of its length plus its rank, so codewords go up, and a valid table's fit. -/
theorem codewordsAreCanonical : Obligations.CodewordsAreCanonical := by
  intro n depth t ht
  exact ⟨assignCodes_symbols_lens t [] t, fun _ hc => code_of_codeword ht.1 hc,
    fun _ hc _ hd hbefore => codeword_before ht hc hd hbefore, fun hv _ hc => (codeword_fits ht hv hc).2⟩

/-- Settles O6: one of two codewords comes before the other, and ends before it begins. -/
theorem noCodewordBeginsAnother : Obligations.NoCodewordBeginsAnother := by
  intro n t ht c hc d hd hne hlen
  exact codeword_not_beginning ht hc hd hne hlen

/-- Every number from the first of a length on, as many as there are symbols of that length, is assigned. -/
theorem exists_mem_assignCodes {t done todo : Lengths} {l r : Nat} (hdone : blCount done l ≤ r)
    (hall : r < blCount (done ++ todo) l) : ∃ c ∈ assignCodes t done todo, c.len = l ∧ c.code = firstCode t l + r := by
  induction todo generalizing done with
  | nil => rw [List.append_nil] at hall; omega
  | cons e todo ih =>
    by_cases hhead : e.2 = l ∧ blCount done l = r
    · obtain ⟨rfl, rfl⟩ := hhead
      exact ⟨_, List.mem_cons_self, rfl, rfl⟩
    · have hdone' : blCount (done ++ [e]) l ≤ r := by
        simp only [blCount, List.countP_append, List.countP_singleton, decide_eq_true_eq] at hdone hhead ⊢
        split <;> omega
      obtain ⟨c, hc, hcode⟩ := ih hdone' (by simpa using hall)
      exact ⟨c, List.mem_cons_of_mem _ hc, hcode⟩

theorem exists_codeword {t : Lengths} {l v : Nat} (hfirst : firstCode t l ≤ v) (hlast : v < firstCode t l + blCount t l) :
    ∃ c ∈ codewords t, c.len = l ∧ c.code = v := by
  obtain ⟨c, hc, hlen, hcode⟩ := exists_mem_assignCodes (t := t) (done := []) (todo := t) (l := l) (r := v - firstCode t l)
    (Nat.zero_le _) (by rw [List.nil_append]; omega)
  exact ⟨c, hc, hlen, by omega⟩

/-! ## Looking a codeword up (R154) -/

theorem exists_of_matchCode_eq_some {cs : List Codeword} {l v symbol : Nat} (h : matchCode cs l v = some symbol) :
    ∃ c ∈ cs, c.len = l ∧ c.code = v ∧ c.symbol = symbol := by
  obtain ⟨c, hfind, hsymbol⟩ := Option.map_eq_some_iff.1 h
  have hc := List.find?_some hfind
  simp only [Bool.and_eq_true, decide_eq_true_eq] at hc
  exact ⟨c, List.mem_of_find?_eq_some hfind, hc.1, hc.2, hsymbol⟩

theorem matchCode_eq_none_iff {cs : List Codeword} {l v : Nat} :
    matchCode cs l v = none ↔ ∀ c ∈ cs, c.len = l → c.code ≠ v := by
  simp [matchCode]

/-! ## `decode_one` in each class of tree (R152, R154) -/

theorem decodeOne_empty (depth : Nat) (s : State) : decodeOne depth [] s = .raise .corruptCodeTree s := rfl

theorem decodeOne_single (depth : Nat) (e : Nat × Nat) (s : State) : decodeOne depth [e] s = .ok e.1 s := rfl

theorem classify_full {t : Lengths} (h : 2 ≤ t.length) : classify t = .full := by
  match t, h with
  | _ :: _ :: _, _ => rfl

theorem decodeOne_full {t : Lengths} (h : 2 ≤ t.length) (depth : Nat) (s : State) :
    decodeOne depth t s = descend (codewords t) depth 0 0 s := by
  rw [decodeOne, classify_full h]

/-- Settles O15: neither class reads the stream. -/
theorem degenerateTreesReadNothing : Obligations.DegenerateTreesReadNothing :=
  fun depth symbol l s => ⟨decodeOne_empty depth s, decodeOne_single depth (symbol, l) s⟩

/-- Settles O7: the descent reads the codeword's bits, and no codeword of fewer bits stops it. -/
theorem spelledSymbolIsDecoded : Obligations.SpelledSymbolIsDecoded := by
  intro n depth t symbol bits s ht hv hspell hlen hbits
  exact decodeOne_spelled ht hv hspell ⟨hlen, hbits⟩

/-- Settles O17: a Full tree is descended, one bit a level. -/
theorem descentErrorsByDepth : Obligations.DescentErrorsByDepth := by
  intro depth t s s' e hfull hraise
  rw [decodeOne_full hfull] at hraise
  exact descend_eq_raise hraise

/-- A listed symbol is in the alphabet, and its length is what is listed, not zero. -/
theorem Sparse.Formed.of_mem {n symbol l : Nat} {t : Lengths} (ht : Sparse.Formed 0 n t) (h : (symbol, l) ∈ t) :
    symbol < n ∧ Sparse.get 0 t symbol = l ∧ 0 < l := by
  obtain ⟨hlt, hne⟩ := ht.2 _ h
  exact ⟨hlt, Sparse.get_of_mem ht h, Nat.pos_of_ne_zero hne⟩

/-- A symbol a Full tree answers is listed with as many bits as were consumed, which the depth allows and the payload had left. -/
theorem decodeOne_full_eq_ok {depth symbol : Nat} {t : Lengths} {s s' : State} (hfull : 2 ≤ t.length)
    (h : decodeOne depth t s = .ok symbol s') :
    ∃ l, (symbol, l) ∈ t ∧ l ≤ depth ∧ l ≤ s.remaining ∧ s' = s.advance l := by
  rw [decodeOne_full hfull] at h
  obtain ⟨k, w, -, hdepth, hroom, hmatch, hs'⟩ := descend_eq_ok h
  obtain ⟨c, hc, hlen, -, rfl⟩ := exists_of_matchCode_eq_some hmatch
  obtain rfl : c.len = k := by omega
  exact ⟨c.len, mem_of_codeword hc, hdepth, hroom, hs'⟩

/-- Settles O16: the symbol is listed in the table; a Full tree consumes its codeword. -/
theorem decodedSymbolLengthIsConsumed : Obligations.DecodedSymbolLengthIsConsumed := by
  intro n depth t s s' symbol ht hdecode
  obtain ⟨l, hmem⟩ := decodeOne_mem hdecode
  obtain ⟨hlt, hget, hpos⟩ := Sparse.Formed.of_mem ht hmem
  refine ⟨hlt, hget ▸ hpos, fun hfull => ?_, fun hsingle => ?_⟩
  · obtain ⟨k, hk, hdepth, hroom, hs'⟩ := decodeOne_full_eq_ok hfull hdecode
    obtain ⟨-, hgetk, hkpos⟩ := Sparse.Formed.of_mem ht hk
    unfold State.remaining at hroom
    exact hgetk ▸ ⟨hdepth, by omega, hs'⟩
  · obtain ⟨e, rfl⟩ := List.length_eq_one_iff.1 hsingle
    rw [decodeOne_single] at hdecode
    cases hdecode
    rfl

/-! ## A complete code (R151, R154) -/

/-- The codes of a complete code fill every depth: the first one after them would not fit. -/
theorem firstCode_after_complete {n depth : Nat} {t : Lengths} (ht : Sparse.Formed 0 n t) (hpos : 1 ≤ depth)
    (hv : validTable depth t = true) (hcomplete : kraftSum depth t = 2 ^ depth) :
    firstCode t (depth + 1) = 2 ^ depth * 2 := by
  have hall : t.filter (fun e => e.2 ≤ depth) = t :=
    List.filter_eq_self.2 fun e he => decide_eq_true (((validTable_iff depth t).1 hv).1 e he)
  have hsum := kraft_partial t depth depth hpos le_rfl fun e he => (ht.2 e he).2
  rw [hall, Nat.sub_self, pow_zero, Nat.mul_one] at hsum
  rw [firstCode_step t depth hpos, hsum]
  exact congrArg (· * 2) hcomplete

/-- Bits past every code of their length so far that begin no codeword at the next length are past every code there too. -/
theorem past_codes_of_matchCode_eq_none {t : Lengths} {l v : Nat} (hpast : firstCode t l ≤ v)
    (h : matchCode (codewords t) l v = none) : firstCode t l + blCount t l ≤ v := by
  by_contra hlast
  obtain ⟨c, hc, hlen, hcode⟩ := exists_codeword hpast (Nat.lt_of_not_le hlast)
  exact matchCode_eq_none_iff.1 h c hc hlen hcode

/-- A descent that ends in CorruptCodeTree has read bits past every code: as many as the depth, and the first code after all would fit them. The descent
keeps `firstCode t (l + 1) ≤ 2 * v`: the next bit cannot lead back to a code of its length or less. -/
theorem firstCode_lt_of_descend_corrupt {t : Lengths} {fuel l v : Nat} {s s' : State} (hfits : v < 2 ^ l)
    (hpast : firstCode t (l + 1) ≤ 2 * v) (h : descend (codewords t) fuel l v s = .raise .corruptCodeTree s') :
    firstCode t (l + fuel + 1) < 2 ^ (l + fuel) * 2 := by
  induction fuel generalizing l v s with
  | zero => simp only [Nat.add_zero]; omega
  | succ fuel ih =>
    rw [descend_succ] at h
    rcases readBit_cases s with ⟨-, hr⟩ | ⟨-, f, -, hr⟩ | ⟨-, b, -, hr⟩ <;> rw [hr] at h
    · simp at h
    · simp at h
    · rw [Res.bind_ok] at h
      have hb := Bool.toNat_le b
      cases hmatch : matchCode (codewords t) (l + 1) (2 * v + b.toNat) with
      | some symbol => simp [hmatch] at h
      | none =>
        simp only [hmatch] at h
        have hnext := past_codes_of_matchCode_eq_none (by omega) hmatch
        have hstep := firstCode_step t (l + 1) (by omega)
        have := ih (by rw [pow_succ]; omega) (by omega) h
        rwa [Nat.add_right_comm l 1 fuel] at this

/-- Settles O18: no bits are past every code of a complete code. -/
theorem completeCodeNeverCorrupt : Obligations.CompleteCodeNeverCorrupt := by
  intro n depth t s s' ht hfull hv hcomplete hraise
  have hdepth : 1 ≤ depth := by
    obtain ⟨e, he⟩ := List.exists_mem_of_length_pos (Nat.zero_lt_of_lt hfull)
    exact (Nat.one_le_iff_ne_zero.2 (ht.2 e he).2).trans (((validTable_iff depth t).1 hv).1 e he)
  rw [decodeOne_full hfull] at hraise
  have hlt := firstCode_lt_of_descend_corrupt (by simp) (by simp [firstCode]) hraise
  rw [Nat.zero_add, firstCode_after_complete ht hdepth hv hcomplete] at hlt
  exact lt_irrefl _ hlt

/-! ## The decoder by lookahead (R157) -/

/-- The first `m` bits of a number, then its `k` lower ones. -/
theorem bitsMSB_add (m k v : Nat) : bitsMSB (m + k) v = bitsMSB m (v / 2 ^ k) ++ bitsMSB k v := by
  induction m with
  | zero => simp [bitsMSB]
  | succ m ih => rw [Nat.add_right_comm, bitsMSB_succ, bitsMSB_succ, ih, Nat.testBit_div_two_pow, List.cons_append]

/-- A payload that can be read has the bits of some number ahead, as many as are left. -/
theorem State.exists_ahead {s : State} {n : Nat} (hroom : n ≤ s.remaining)
    (hread : ∀ p, p < 8 * s.bnd.toNat → ∃ b, streamBit s p = .ok b) : ∃ v, v < 2 ^ n ∧ s.Ahead (bitsMSB n v) := by
  choose f hf using hread
  obtain ⟨v, hlt, hdigits⟩ :=
    exists_number_of_digits n fun k => if h : s.bitPos.toNat + k < 8 * s.bnd.toNat then f _ h else false
  refine ⟨v, hlt, by rwa [bitsMSB_length], streamHolds_bitsMSB hdigits fun k hk => ?_⟩
  have hp : s.bitPos.toNat + k < 8 * s.bnd.toNat := by unfold State.remaining at hroom; omega
  rw [dif_pos hp, hf]

theorem exists_of_beginningCodeword_eq_some {cs : List Codeword} {n v : Nat} {c : Codeword}
    (h : beginningCodeword cs n v = some c) : c ∈ cs ∧ c.len ≤ n ∧ v / 2 ^ (n - c.len) = c.code := by
  have hc := List.find?_some h
  simp only [Bool.and_eq_true, decide_eq_true_eq] at hc
  exact ⟨List.mem_of_find?_eq_some h, hc⟩

/-- Where no codeword begins the bits, no beginning of them is a codeword. -/
theorem matchCode_of_beginningCodeword_eq_none {cs : List Codeword} {n v i k : Nat} (h : beginningCodeword cs n v = none)
    (hn : i + k = n) : matchCode cs i (v / 2 ^ k) = none := by
  refine matchCode_eq_none_iff.2 fun c hc hlen hcode => List.find?_eq_none.1 h c hc ?_
  obtain rfl : k = n - c.len := by omega
  simp [hcode]
  omega

/-- The descent answers the codeword that stands ahead. -/
theorem descend_codeword {n depth : Nat} {t : Lengths} {s : State} (ht : Sparse.Formed 0 n t) (hv : validTable depth t = true)
    {c : Codeword} (hc : c ∈ codewords t) (h : s.Ahead (bitsMSB c.len c.code)) :
    descend (codewords t) depth 0 0 s = .ok c.symbol (s.advance c.len) := by
  obtain ⟨hdepth, hfits⟩ := codeword_fits ht hv hc
  have hdescend := descend_spelled ht hc (Nat.zero_add _) (codeword_len_pos ht hc) hdepth h
  rwa [Nat.div_eq_of_lt hfits] at hdescend

/-- The descent reads on through bits that end no codeword. -/
theorem descend_no_codeword {cs : List Codeword} {fuel l k v : Nat} {s : State} (hfuel : k ≤ fuel) (h : s.Ahead (bitsMSB k v))
    (hnone : ∀ i j, 1 ≤ i → i + j = k → matchCode cs (l + i) (v / 2 ^ j) = none) :
    descend cs fuel l (v / 2 ^ k) s = descend cs (fuel - k) (l + k) v (s.advance k) := by
  induction k generalizing fuel l s with
  | zero => simp
  | succ k ih =>
    obtain ⟨fuel, rfl⟩ : ∃ f, fuel = f + 1 := ⟨fuel - 1, by omega⟩
    rw [bitsMSB_succ] at h
    obtain ⟨hread, hrest⟩ := h.readBit
    rw [descend_succ, hread, Res.bind_ok, two_mul_div_two_pow_add_testBit, hnone 1 k le_rfl (Nat.add_comm 1 k)]
    dsimp only
    rw [ih (by omega) hrest fun i j hi hj => by rw [Nat.add_assoc]; exact hnone (1 + i) j (by omega) (by omega),
      State.advance_advance, Nat.add_sub_add_right, Nat.add_assoc, Nat.add_comm 1 k]

/-- A descent with levels to go and nothing left to read raises TruncatedInput. -/
theorem descend_truncated {cs : List Codeword} {fuel l v : Nat} {s : State} (hfuel : 1 ≤ fuel) (h : s.remaining = 0) :
    descend cs fuel l v s = .raise .truncatedInput s := by
  obtain ⟨fuel, rfl⟩ : ∃ f, fuel = f + 1 := ⟨fuel - 1, by omega⟩
  have hread : readBit s = .raise .truncatedInput s := readBits_eq_raise.2 ⟨by omega, rfl, rfl⟩
  rw [descend_succ, hread, Res.bind_raise]

/-- A Full tree is decoded alike: the codeword the lookahead finds is the one the descent answers; where it finds none the descent reads all the bits looked at,
and then the depth or the payload is at its end. -/
theorem lookaheadOne_full_sameResult {n depth : Nat} {t : Lengths} {s : State} (ht : Sparse.Formed 0 n t)
    (hv : validTable depth t = true) (hfull : classify t = .full)
    (hread : ∀ p, p < 8 * s.bnd.toNat → ∃ b, streamBit s p = .ok b) :
    SameResult (lookaheadOne depth t s) (descend (codewords t) depth 0 0 s) := by
  have hroom : min depth s.remaining ≤ s.remaining := min_le_right _ _
  obtain ⟨v, hlt, hahead⟩ := State.exists_ahead hroom hread
  have hbits := streamBits_of_streamHolds hahead.2
  rw [Nat.div_eq_of_lt hlt] at hbits
  simp only [lookaheadOne, hfull, hbits]
  cases hfind : beginningCodeword (codewords t) (min depth s.remaining) v with
  | some c =>
    obtain ⟨hc, hlen, hcode⟩ := exists_of_beginningCodeword_eq_some hfind
    rw [← Nat.add_sub_cancel' hlen, bitsMSB_add, hcode] at hahead
    rw [descend_codeword ht hv hc (State.ahead_append_iff.1 hahead).1]
    exact ⟨rfl, rfl⟩
  | none =>
    have hdescend := descend_no_codeword (l := 0) (min_le_left _ _) hahead fun i j _ hij => by
      rw [Nat.zero_add]; exact matchCode_of_beginningCodeword_eq_none hfind hij
    rw [Nat.div_eq_of_lt hlt] at hdescend
    rw [hdescend]
    by_cases hshort : s.remaining < depth
    · rw [descend_truncated (by omega) (by rw [State.remaining_advance hroom]; omega)]
      simp only [if_pos hshort]
      rfl
    · rw [show depth - min depth s.remaining = 0 by omega]
      simp only [if_neg hshort]
      rfl

/-- Settles O19: the two differ in a Full tree only, and there the payload can be read. -/
theorem lookaheadDecodesAlike : Obligations.LookaheadDecodesAlike := by
  intro n depth t s ht hv hread
  unfold decodeOne
  cases hclass : classify t with
  | empty => simp [lookaheadOne, hclass, SameResult]
  | single symbol => simp [lookaheadOne, hclass, SameResult]
  | full => exact lookaheadOne_full_sameResult ht hv hclass hread

/-! ## Valid tables (R151) -/

/-- A property of the missing elements' value holds of every element exactly when it holds of every listed one. -/
theorem Sparse.forall_get_iff {α : Type} [DecidableEq α] {d : α} {n : Nat} {m : List (Nat × α)} (h : Sparse.Formed d n m)
    {p : α → Prop} (hd : p d) : (∀ k, k < n → p (Sparse.get d m k)) ↔ ∀ e ∈ m, p e.2 := by
  constructor
  · intro hall e he
    rw [← Sparse.get_of_mem h he]
    exact hall e.1 (h.2 e he).1
  · intro hall k _
    unfold Sparse.get
    cases hget : Assoc.get? m k with
    | none => exact hd
    | some v => exact hall _ (Assoc.mem_of_get? hget)

/-- A sum over a vector, to which missing elements give nothing, is the sum over what it lists. -/
theorem Sparse.sum_get {α : Type} [DecidableEq α] {d : α} {n : Nat} {m : List (Nat × α)} (h : Sparse.Formed d n m)
    {w : α → Nat} (hd : w d = 0) :
    ((List.range n).map fun k => w (Sparse.get d m k)).sum = (m.map fun e => w e.2).sum := by
  have hnodup : (m.map Prod.fst).Nodup := h.1.imp ne_of_lt
  have hsub : (m.map Prod.fst).toFinset ⊆ Finset.range n := fun k hk => by
    obtain ⟨e, he, rfl⟩ := List.mem_map.1 (List.mem_toFinset.1 hk)
    exact Finset.mem_range.2 (h.2 e he).1
  have hmissing : ∀ k, k ∉ (m.map Prod.fst).toFinset → w (Sparse.get d m k) = 0 := fun k hk => by
    have hnone : Assoc.get? m k = none := Assoc.get?_eq_none fun e he hek =>
      hk (List.mem_toFinset.2 (List.mem_map.2 ⟨e, he, hek⟩))
    simpa [Sparse.get, hnone] using hd
  calc ((List.range n).map fun k => w (Sparse.get d m k)).sum
      = ∑ k ∈ Finset.range n, w (Sparse.get d m k) := rfl
    _ = ∑ k ∈ (m.map Prod.fst).toFinset, w (Sparse.get d m k) :=
        (Finset.sum_subset hsub fun k _ hk => hmissing k hk).symm
    _ = ((m.map Prod.fst).map fun k => w (Sparse.get d m k)).sum := List.sum_toFinset _ hnodup
    _ = (m.map fun e => w e.2).sum := by
        rw [List.map_map]
        exact congrArg List.sum (List.map_congr_left fun e he => congrArg w (Sparse.get_of_mem h he))

/-- What a symbol of the given length adds to the Kraft sum: an absent one nothing. -/
def kraftTerm (depth l : Nat) : Nat := if 0 < l then 2 ^ (depth - l) else 0

theorem kraftSum_eq_sum_kraftTerm {n : Nat} {t : Lengths} (ht : Sparse.Formed 0 n t) (depth : Nat) :
    kraftSum depth t = ((List.range n).map fun k => kraftTerm depth (Sparse.get 0 t k)).sum := by
  rw [Sparse.sum_get ht (w := kraftTerm depth) rfl, kraftSum]
  refine congrArg List.sum (List.map_congr_left fun e he => ?_)
  rw [kraftTerm, if_pos (Nat.pos_of_ne_zero (ht.2 e he).2)]

/-- Settles O14: the symbols a table does not list have length 0 and add nothing. -/
theorem validTablesAreInstalled : Obligations.ValidTablesAreInstalled := by
  intro n depth t s ht
  refine ⟨?_, ?_, rfl, rfl⟩
  · rw [validTable_iff, kraftSum_eq_sum_kraftTerm ht, Sparse.forall_get_iff ht (p := (· ≤ depth)) (Nat.zero_le _)]
    rfl
  · simp [validTable_iff, kraftSum]

/-! ## The two trees (R158)

A change `g` of the state that leaves what the reader reads commutes with a decode. -/

/-- The result with its state changed. -/
def Res.mapState {α : Type} (g : State → State) : Res α → Res α
  | .ok a s => .ok a (g s)
  | .raise e s => .raise e (g s)
  | .fault f => .fault f

/-- The change leaves what the reader reads, and may come before or after the reader moves on. -/
structure LeavesStream (g : State → State) : Prop where
  streamBits : ∀ s p n v, Machine.streamBits (g s) p n v = Machine.streamBits s p n v
  remaining  : ∀ s, (g s).remaining = s.remaining
  bitPos     : ∀ s, (g s).bitPos = s.bitPos
  advance    : ∀ s n, (g s).advance n = g (s.advance n)

theorem Res.mapState_bind {α β : Type} {g : State → State} {r : Res α} {k : α → State → Res β}
    (hk : ∀ a s, k a (g s) = (k a s).mapState g) : (r.mapState g).bind k = (r.bind k).mapState g := by
  cases r with
  | ok a s => exact hk a s
  | raise e s => rfl
  | fault f => rfl

section Commute

variable {g : State → State} (hg : LeavesStream g)
include hg

theorem readBits_comm (n : Nat) (s : State) : readBits n (g s) = (readBits n s).mapState g := by
  unfold readBits
  rw [hg.remaining, hg.bitPos, hg.streamBits, hg.advance]
  split
  · rfl
  · cases streamBits s s.bitPos.toNat n 0 <;> rfl

theorem descend_comm (cs : List Codeword) (fuel l v : Nat) (s : State) :
    descend cs fuel l v (g s) = (descend cs fuel l v s).mapState g := by
  induction fuel generalizing l v s with
  | zero => rfl
  | succ fuel ih =>
    rw [descend_succ, descend_succ, readBit, readBits_comm hg]
    refine Res.mapState_bind fun b u => ?_
    cases matchCode cs (l + 1) (2 * v + b) with
    | some symbol => rfl
    | none => exact ih _ _ u

theorem decodeOne_comm (depth : Nat) (t : Lengths) (s : State) :
    decodeOne depth t (g s) = (decodeOne depth t s).mapState g := by
  unfold decodeOne
  cases classify t with
  | empty => rfl
  | single symbol => rfl
  | full => exact descend_comm hg _ _ _ _ _

end Commute

theorem streamBits_congr {s u : State} (h : ∀ p, streamBit u p = streamBit s p) (p n v : Nat) :
    streamBits u p n v = streamBits s p n v := by
  induction n generalizing p v with
  | zero => rfl
  | succ n ih => simp only [streamBits_succ, h, ih]

/-- The state with the D tree's table and counters replaced. -/
def State.withTreeD (l : Lengths) (c : Counts) (s : State) : State := { s with lenD := l, cntD := c }

/-- The state with the LL tree's table and counters replaced. -/
def State.withTreeLL (l : Lengths) (c : Counts) (s : State) : State := { s with lenLL := l, cntLL := c }

theorem leavesStream_withTreeD (l : Lengths) (c : Counts) : LeavesStream (State.withTreeD l c) :=
  ⟨fun _ => streamBits_congr fun _ => rfl, fun _ => rfl, fun _ => rfl, fun _ _ => rfl⟩

theorem leavesStream_withTreeLL (l : Lengths) (c : Counts) : LeavesStream (State.withTreeLL l c) :=
  ⟨fun _ => streamBits_congr fun _ => rfl, fun _ => rfl, fun _ => rfl, fun _ _ => rfl⟩

theorem decodeLL_withTreeD (l : Lengths) (c : Counts) (s : State) :
    decodeLL { s with lenD := l, cntD := c } = (decodeLL s).mapState (State.withTreeD l c) :=
  decodeOne_comm (leavesStream_withTreeD l c) s.cfg.maxDepthLL s.lenLL s

theorem decodeD_withTreeLL (l : Lengths) (c : Counts) (s : State) :
    decodeD { s with lenLL := l, cntLL := c } = (decodeD s).mapState (State.withTreeLL l c) :=
  decodeOne_comm (leavesStream_withTreeLL l c) s.cfg.maxDepthD s.lenD s

/-- Settles O21: a decode moves `bit_pos` and nothing else, and commutes with replacing the other tree. -/
theorem treesShareNoState : Obligations.TreesShareNoState := by
  intro s l c
  have hLL := decodeLL_withTreeD l c s
  have hD := decodeD_withTreeLL l c s
  refine ⟨fun symbol t h => ?_, fun e t h => ?_, fun f h => ?_, fun symbol t h => ?_, fun e t h => ?_, fun f h => ?_⟩
  · obtain ⟨k, -, -, rfl⟩ := decodeOne_eq_ok h
    exact ⟨rfl, rfl, by rw [hLL, h]; rfl⟩
  · obtain ⟨-, k, -, rfl⟩ := decodeOne_eq_raise h
    exact ⟨rfl, rfl, by rw [hLL, h]; rfl⟩
  · rw [hLL, h]; rfl
  · obtain ⟨k, -, -, rfl⟩ := decodeOne_eq_ok h
    exact ⟨rfl, rfl, by rw [hD, h]; rfl⟩
  · obtain ⟨-, k, -, rfl⟩ := decodeOne_eq_raise h
    exact ⟨rfl, rfl, by rw [hD, h]; rfl⟩
  · rw [hD, h]; rfl

end Sys2Proof.Machine
end

section
/-! SUPPORT. The dictionary (42_dictionary.md): what a literal and a copy leave in OUT, and the copy over a circular window beside the copy that reads
OUT back. -/

namespace Sys2Proof.Machine

/-! ## emit_literal (R181) -/

/-- Settles O22: the state after it is `s.emit b`, and `wp + 1` does not wrap below `os`. -/
theorem emitLiteralAppends : Obligations.EmitLiteralAppends :=
  fun b s hlt => ⟨s.emit b, emitLiteral_eq_ok.2 ⟨hlt, rfl⟩, fun a => Assoc.get?_put s.out s.wp.toNat a b, State.wp_succ hlt, rfl⟩

/-! ## copy_back (R182, R183) -/

/-- Each copied byte is the byte OUT holds `distance` before it once the copy is done, the copied ones among them. -/
theorem get?_copyLoop_back {distance length : Nat} {s t : State} (h : copyLoop distance length s = .ok () t)
    (hd : 1 ≤ distance) (hdw : distance ≤ s.wp.toNat) (hw : s.wp.toNat ≤ s.os.toNat) {k : Nat} (hk : k < length) :
    Assoc.get? t.out (s.wp.toNat + k) = Assoc.get? t.out (s.wp.toNat + k - distance) := by
  induction length generalizing s k with
  | zero => omega
  | succ n ih =>
    rw [copyLoop_succ] at h
    cases hr : readOut s (s.wp.toNat - distance) with
    | error f => simp [hr] at h
    | ok b =>
      simp only [hr] at h
      obtain ⟨_, s1, hemit, hrest⟩ := Res.bind_eq_ok.1 h
      obtain ⟨hlt, rfl⟩ := emitByte_eq_ok.1 hemit
      have hwp : (s.emit b).wp.toNat = s.wp.toNat + 1 := State.wp_succ hlt
      have hroom : (s.emit b).wp.toNat ≤ (s.emit b).os.toNat := hwp ▸ hlt
      cases k with
      | zero =>
        obtain ⟨-, -, hkept, -⟩ := copyLoop_eq_ok hrest hroom
        calc Assoc.get? t.out s.wp.toNat
            = some b := by rw [hkept _ (by omega), State.emit_out, Assoc.get?_put_self]
          _ = Assoc.get? s.out (s.wp.toNat - distance) := (readOut_eq_ok.1 hr).2.symm
          _ = Assoc.get? t.out (s.wp.toNat - distance) := by
              rw [hkept _ (by omega), State.emit_out, Assoc.get?_put_other _ _ (by omega)]
      | succ k =>
        have hback := ih hrest (by omega) hroom (Nat.lt_of_succ_lt_succ hk)
        rw [hwp] at hback
        rwa [Nat.add_right_comm, Nat.add_assoc s.wp.toNat] at hback

/-- The closed form of R183: a copy repeats the `distance` bytes before it with that period. -/
theorem get?_copyLoop {distance length : Nat} {s t : State} (h : copyLoop distance length s = .ok () t)
    (hd : 1 ≤ distance) (hdw : distance ≤ s.wp.toNat) (hw : s.wp.toNat ≤ s.os.toNat) {k : Nat} (hk : k < length) :
    Assoc.get? t.out (s.wp.toNat + k) = Assoc.get? s.out (s.wp.toNat - distance + k % distance) := by
  induction k using Nat.strongRecOn with
  | ind k ih =>
    rw [get?_copyLoop_back h hd hdw hw hk]
    by_cases hkd : k < distance
    · obtain ⟨-, -, hkept, -⟩ := copyLoop_eq_ok h hw
      rw [hkept _ (by omega), Nat.mod_eq_of_lt hkd, Nat.sub_add_comm hdw]
    · have hle : distance ≤ k := Nat.le_of_not_lt hkd
      rw [Nat.add_sub_assoc hle, ih (k - distance) (by omega) (by omega), ← Nat.mod_eq_sub_mod hle]

/-- Past its checks `copy_back` is the copy loop. -/
theorem copyBack_eq_copyLoop {distance length : Nat} {s : State} (hd : 1 ≤ distance) (hdw : distance ≤ s.wp.toNat)
    (hl : s.wp.toNat + length ≤ s.os.toNat) : copyBack distance length s = copyLoop distance length s := by
  rcases copyBack_cases distance length s with ⟨hcheck, _⟩ | ⟨_, _, _, hc⟩
  · omega
  · exact hc

/-- Settles O24: the written history lets the loop go through, and what it leaves is its frame and the closed form. -/
theorem copyBackRepeatsHistory : Obligations.CopyBackRepeatsHistory := by
  intro distance length s hd hdw hl hhistory
  have hw : s.wp.toNat ≤ s.os.toNat := Nat.le_of_add_right_le hl
  obtain ⟨t, ht⟩ := copyLoop_completes hd hdw hl hhistory
  obtain ⟨hwp, -, hkept, -, -, htouched⟩ := copyLoop_eq_ok ht hw
  exact ⟨t, (copyBack_eq_copyLoop hd hdw hl).trans ht, hwp, fun k hk => get?_copyLoop ht hd hdw hw hk, hkept, htouched⟩

/-! ## The circular window (R184)

`SameBesideWindow` relates a result over the window to one over OUT. An emitted byte keeps the window a mirror, so both loops read the same byte at
each turn. -/

/-- Two results that agree in everything but the window, which mirrors OUT after a value. -/
inductive SameBesideWindow (size : Nat) : Res Memory → Res Unit → Prop
  | ok (win : Memory) (t : State) (h : WindowMirrors size win t) : SameBesideWindow size (.ok win t) (.ok () t)
  | raise (e : ErrorKind) (t : State) : SameBesideWindow size (.raise e t) (.raise e t)
  | fault (f : Fault) : SameBesideWindow size (.fault f) (.fault f)

/-- Addresses fewer than `size` apart have window slots of their own. -/
theorem windowSlot_ne {size a d : Nat} (hd : 1 ≤ d) (hsize : d < size) (hda : d ≤ a) : (a - d) % size ≠ a % size := by
  intro h
  have hmod := Nat.sub_mod_eq_zero_of_mod_eq h.symm
  rw [Nat.sub_sub_self hda, Nat.mod_eq_of_lt hsize] at hmod
  omega

/-- A byte put into the window and emitted to OUT: the byte it displaces lies `size` back, out of the window's reach from the new `wp`. -/
theorem windowMirrors_emit {size : Nat} {win : Memory} {s : State} (h : WindowMirrors size win s)
    (hlt : s.wp.toNat < s.os.toNat) (b : Byte) : WindowMirrors size (windowPut size win s.wp.toNat b) (s.emit b) := by
  intro d hd hsize hdw
  rw [State.emit_wp, State.wp_succ hlt] at hdw ⊢
  rw [windowPut, State.emit_out]
  rcases Nat.eq_or_lt_of_le hd with rfl | hd
  · rw [Nat.add_sub_cancel, Assoc.get?_put_self, Assoc.get?_put_self]
  · have hback : s.wp.toNat + 1 - d = s.wp.toNat - (d - 1) := by omega
    have hslot := windowSlot_ne (size := size) (a := s.wp.toNat) (d := d - 1) (by omega) (by omega) (by omega)
    rw [hback, Assoc.get?_put_other _ _ hslot, Assoc.get?_put_other _ _ (by omega)]
    exact h (d - 1) (by omega) (by omega) (by omega)

/-- The copy over a mirroring window and the copy loop, past the checks, take the same turns. -/
theorem windowLoop_sameBesideWindow {size distance length : Nat} {win : Memory} {s : State} (h : WindowMirrors size win s)
    (hd : 1 ≤ distance) (hsize : distance ≤ size) (hdw : distance ≤ s.wp.toNat)
    (hl : s.wp.toNat + length ≤ s.os.toNat) :
    SameBesideWindow size (windowLoop size distance length win s) (copyLoop distance length s) := by
  induction length generalizing win s with
  | zero => exact .ok win s h
  | succ k ih =>
    have hlt : s.wp.toNat < s.os.toNat := by omega
    have hin : s.wp.toNat - distance < s.os.toNat := by omega
    rw [copyLoop_succ, windowLoop, h distance hd hsize hdw, readOut, if_pos hin]
    cases Assoc.get? s.out (s.wp.toNat - distance) with
    | none => exact .fault .outputUnwritten
    | some b =>
      have hemit : emitByte b s = .ok () (s.emit b) := emitByte_eq_ok.2 ⟨hlt, rfl⟩
      have hwp : (s.emit b).wp.toNat = s.wp.toNat + 1 := State.wp_succ hlt
      simp only [windowEmit, hemit, Res.bind_ok]
      exact ih (windowMirrors_emit h hlt b) (by omega) (by rw [hwp, State.emit_os]; omega)

theorem windowCopyBack_sameBesideWindow {size distance : Nat} (length : Nat) {win : Memory} {s : State}
    (h : WindowMirrors size win s) (hsize : distance ≤ size) (hw : s.wp.toNat ≤ s.os.toNat) :
    SameBesideWindow size (windowCopyBack size distance length win s) (copyBack distance length s) := by
  unfold windowCopyBack copyBack
  split
  · exact .raise .invalidBackReference s
  · split
    · exact .raise .invalidBackReference s
    · exact windowLoop_sameBesideWindow h (by omega) hsize (by omega) (by omega)

/-- Settles O25: related results answer alike; the window mirrors OUT's written part, so no byte need be written for that. -/
theorem windowCopyMatchesOutput : Obligations.WindowCopyMatchesOutput := by
  intro size distance length win s hmirrors hsize hw _
  have hsame := windowCopyBack_sameBesideWindow length hmirrors hsize hw
  generalize windowCopyBack size distance length win s = r at hsame ⊢
  generalize copyBack distance length s = q at hsame ⊢
  cases hsame with
  | ok win' t ht => simpa using ht
  | raise e t => simp
  | fault f => simp

end Sys2Proof.Machine
end

section
/-! SUPPORT. The decoder's steps (43_decoder.md R200, R201, R209 to R212): when the block steps and what it runs, where Idle, Done and Failed lead, and the
completion and rebuild of a symbol step as the spec words them. -/

namespace Sys2Proof.Machine

/-! ## Completion and rebuild (R209, R210) -/

theorem tailLeft_eq_true_iff {s : State} : tailLeft s = true ↔ s.cfg.tailCheck = .wholeByte ∧ 8 ≤ s.remaining := by
  simp [tailLeft]

theorem tailLeft_eq_false_iff {s : State} : tailLeft s = false ↔ s.TailOk := by
  rw [State.TailOk, ← tailLeft_eq_true_iff, Bool.not_eq_true]

theorem rebuildDue_eq_true_iff {s : State} :
    rebuildDue s = true ↔ 0 < s.cfg.rebuildPeriod ∧ s.symCount.toNat % s.cfg.rebuildPeriod = 0 := by
  simp [rebuildDue]

/-- Settles O20: the branches of `complete_or_rebuild()` before the end of a frame. -/
theorem rebuildFollowsCadence : Obligations.RebuildFollowsCadence := by
  intro s hw
  simp only [← rebuildDue_eq_true_iff]
  rcases completeOrRebuild_cases s with ⟨hend, -⟩ | ⟨hend, -⟩ | ⟨-, hdue, hr⟩ | ⟨-, hdue, hLL, hD, hr⟩ | ⟨-, hdue, hLL, hr⟩ |
      ⟨-, hdue, hLL, hD, hr⟩
  · exact absurd hend hw
  · exact absurd hend hw
  · rw [hr, if_neg (by simp [hdue])]
  · rw [hr, if_pos hdue, if_pos hLL, if_pos hD]
    rfl
  · rw [hr, if_pos hdue, if_neg (by simp [hLL])]
  · rw [hr, if_pos hdue, if_pos hLL, if_neg (by simp [hD])]
    rfl

/-- Settles O40: the tail check is asked at `wp = os` alone. -/
theorem completionAtDeclaredSize : Obligations.CompletionAtDeclaredSize := by
  intro s
  have hcomplete : complete s =
      if s.cfg.tailCheck = .wholeByte ∧ 8 ≤ 8 * s.bnd.toNat - s.bitPos.toNat then .raise .lengthMismatch s
      else .ok () { s with fsm := .done } := by
    simp only [complete, tailLeft_eq_true_iff]
    rfl
  rw [completeOrRebuild, hcomplete]

/-! ## START (R201) -/

theorem execStart_of_not_busy {s : State} (h : s.busy = false) :
    exec (.start true) s = .next (s.forget.enter .readingHeader) := by
  simp [exec, execStart, h]

/-- Settles O26: every element of R30 but `in_len` is forgotten, and `fsm` is ReadingHeader. -/
theorem startBeginsAFrame : Obligations.StartBeginsAFrame :=
  fun _ hb => ⟨_, execStart_of_not_busy hb, rfl, rfl, rfl, rfl, rfl, rfl, rfl, rfl, rfl⟩

/-! ## The block's turn (R200, R211, R212) -/

/-- At its turn the block acts in the state without the pass it took, if any. -/
theorem State.BlockTurn.nextAction_eq {s u : State} (h : s.BlockTurn u) : nextAction s = blockAction u := by
  unfold nextAction
  obtain ⟨hh, rfl⟩ | ⟨rest, hh, rfl⟩ | ⟨hb, ⟨m, rest, hh, hreset, hpass⟩, rfl⟩ := h
  · rw [hh]
  · rw [hh]
    rfl
  · rw [hh]
    cases m
    case reset => exact absurd rfl hreset
    case pass => exact absurd rfl hpass
    all_goals simp [hb]

theorem State.BlockTurn.step_eq {s u : State} (h : s.BlockTurn u) (hc : CfgOk s.cfg) : step s = (blockAction u).outcome := by
  rw [step_eq_outcome hc, h.nextAction_eq]

theorem State.BlockTurn.frame {s u : State} (h : s.BlockTurn u) : u = { s with host := u.host } := by
  obtain ⟨-, rfl⟩ | ⟨_, -, rfl⟩ | ⟨-, -, rfl⟩ := h <;> rfl

theorem blockAction_of_not_busy {s : State} (h : s.busy = false) : blockAction s = .settle (.next s) := by
  unfold State.busy at h
  unfold blockAction
  cases hf : s.fsm <;> simp [hf] at h ⊢

/-- Settles O47: the block waits in the state it steps in, which is BUSY no more than `s`. -/
theorem terminalStatesWait : Obligations.TerminalStatesWait := by
  intro s u hc hb hturn
  have hb' : u.busy = false := by rw [hturn.frame]; exact hb
  rw [hturn.step_eq hc, blockAction_of_not_busy hb']
  rfl

/-- Settles O48: of all a step can be, only a reset and a START that is taken write `fsm` when the block is not BUSY. -/
theorem terminalStatesLeftByStartOrReset : Obligations.TerminalStatesLeftByStartOrReset := by
  intro s t hb hstep hchanged
  obtain ⟨-, ⟨rest, hh, -⟩ | ⟨s0, hs0, hblock⟩ | ⟨-, bytes, rest, -, rfl⟩ | ⟨-, v, rest, hh, he⟩ | ⟨-, r, v, rest, -, -, rfl⟩⟩ :=
    step_eq_next hstep
  · exact ⟨rest, .inl hh⟩
  · have hs0f : s0 = { s with host := s0.host } := by obtain ⟨rfl, -⟩ | ⟨rest, -, rfl⟩ := hs0 <;> rfl
    have hb0 : s0.busy = false := by rw [hs0f]; exact hb
    rw [blockAction_of_not_busy hb0] at hblock
    obtain rfl := Host.Outcome.next.inj hblock
    exact absurd (by rw [hs0f]) hchanged
  · exact absurd rfl hchanged
  · rcases execStart_eq_next he with ⟨-, rfl⟩ | ⟨hgo, -, -⟩
    · exact absurd rfl hchanged
    · exact ⟨rest, .inr ⟨v, hh, hgo⟩⟩
  · exact absurd (by rw [writeReg_frame]; rfl) hchanged

/-! ## What the block runs (R200, R203, R240) -/

theorem blockAction_of_readingHeader {s : State} (h : s.fsm = .readingHeader) : blockAction s = fetchHeader s := by
  rw [blockAction, h]

theorem blockAction_of_decodingSymbols {s : State} (h : s.fsm = .decodingSymbols) : blockAction s = fetchSymbol s := by
  rw [blockAction, h]

theorem fetchHeader_short {s : State} (h : s.inLen.toNat < 8) : fetchHeader s = .settle (.next (s.fail .truncatedHeader)) :=
  if_pos h

theorem fetchHeader_decoded {s : State} {bytes : List Byte} {i : Instr} (hlen : 8 ≤ s.inLen.toNat)
    (hread : readInBytes s 0 8 = .ok bytes) (hdecode : decodeHeader bytes = .ok i) : fetchHeader s = .run i s := by
  rw [fetchHeader, if_neg (by omega), hread]
  simp only [decode, hdecode, runDecoded]

theorem fetchSymbol_raise {s t : State} {e : ErrorKind} (h : decodeLL s = .raise e t) :
    fetchSymbol s = .settle (.next (t.fail e)) := by
  rw [fetchSymbol, h]

theorem fetchSymbol_decoded {s t : State} {symbol : Nat} {i : Instr} (h : decodeLL s = .ok symbol t)
    (hdecode : decodeSymbol s.cfg.nll symbol = .ok i) : fetchSymbol s = .run i t := by
  rw [fetchSymbol, h]
  simp only [decode, hdecode, runDecoded]

/-- Settles O46: the fetch of the state the block steps in reads what the statement reads in `s`, the host's moves aside. -/
theorem stepRunsDecodedInstruction : Obligations.StepRunsDecodedInstruction := by
  intro s hc
  refine ⟨fun u hturn hf => ?header, fun u hturn hf => ?symbol, fun v rest hh hb => step_takes_move hc hb hh⟩
  case header =>
    have hframe := hturn.frame
    have hlen : u.inLen = s.inLen := by rw [hframe]
    have hinp : u.inp = s.inp := by rw [hframe]
    rw [hturn.step_eq hc, blockAction_of_readingHeader (by rw [hframe]; exact hf)]
    refine ⟨fun bytes i h8 hread hdecode => ?_, fun hshort => ⟨u.fail .truncatedHeader, ?_, rfl, rfl⟩⟩
    · rw [← readInBytes_congr hlen hinp] at hread
      rw [fetchHeader_decoded (hlen ▸ h8) hread hdecode]
      rfl
    · rw [fetchHeader_short (hlen ▸ hshort)]
      rfl
  case symbol =>
    have hframe := hturn.frame
    have hcfg : u.cfg = s.cfg := by rw [hframe]
    rw [hturn.step_eq hc, blockAction_of_decodingSymbols (by rw [hframe]; exact hf)]
    refine ⟨fun x s' i hread hdecode => ?_, fun e s' hread => ?_⟩
    · rw [fetchSymbol_decoded hread (hcfg ▸ hdecode)]
      rfl
    · rw [fetchSymbol_raise hread]
      obtain ⟨-, k, -, rfl⟩ := decodeOne_eq_raise hread
      exact ⟨(u.advance k).fail e, rfl, rfl, rfl⟩

end Sys2Proof.Machine
end

section
/-! SUPPORT. LIT and MATCH (43_decoder.md R204, R205): what a symbol instruction leaves when its effect has gone through, and the four ways a MATCH
can end. -/

namespace Sys2Proof.Machine

/-! ## The instruction counted (R208, R209, R210) -/

/-- What a counter reads after a symbol is counted, said of the counter asked for. -/
theorem get_bump_read {cnt : Counts} (h : Assoc.Sorted cnt) (j k : Nat) :
    Sparse.get 0 (bump cnt j) k = if k = j then Sparse.get 0 cnt k + 1 else Sparse.get 0 cnt k := by
  rw [get_bump h]
  split
  case isTrue hk => rw [hk]
  case isFalse => rfl

/-- `x` is `s` with its bits read in `u`, `n` bytes emitted and the instruction counted, before the frame is completed or continued. -/
structure State.Counted (s u x : State) (n : Nat) : Prop where
  read    : u = { s with bitPos := u.bitPos, cntLL := u.cntLL, cntD := u.cntD }
  counted : x = { u with cntLL := x.cntLL, out := x.out, wp := x.wp, symCount := s.symCount + 1 }
  wp      : x.wp.toNat = s.wp.toNat + n

theorem completeOrRebuild_proceeds (x : State) : ∃ t, (completeOrRebuild x).finish = .next t := by
  cases h : completeOrRebuild x with
  | ok u t => exact ⟨t, rfl⟩
  | raise e t => exact ⟨t.fail e, rfl⟩
  | fault f => exact absurd h (completeOrRebuild_ne_fault x f)

/-- Whatever it ends in, the completion or rebuild of `x` leaves everything but `fsm`, the trees and what a failure makes unspecified (R266). -/
theorem finished_touches {x t : State} (ht : (completeOrRebuild x).finish = .next t) :
    t = { x with
      fsm := t.fsm, cs := t.cs, os := t.os, bitPos := t.bitPos, wp := t.wp, lenLL := t.lenLL, lenD := t.lenD
      fresh := t.fresh } := by
  obtain ⟨u, hu, rfl | ⟨e, rfl⟩⟩ := finished_frame (Res.finish_eq_next.1 ht)
  · rw [hu]
  · rw [hu]
    rfl

/-- Where it does not fail, it writes `fsm` and the trees alone. -/
theorem finished_touches_of_not_failed {x t : State} (ht : (completeOrRebuild x).finish = .next t) (hnf : t.isFailed = false) :
    t = { x with fsm := t.fsm, lenLL := t.lenLL, lenD := t.lenD } := by
  obtain ⟨u, hu, rfl | ⟨e, rfl⟩⟩ := finished_frame (Res.finish_eq_next.1 ht)
  · exact hu
  · simp [State.isFailed] at hnf

section Counted

variable {s u x t : State} {n : Nat} (h : s.Counted u x n)
include h

/-- What the completion and the rebuild read of `x`, said of `s` and `u`. -/
theorem State.Counted.conditions : (x.wp = x.os ↔ s.wp.toNat + n = s.os.toNat) ∧ (tailLeft x = false ↔ u.TailOk) ∧
    (rebuildDue x = true ↔ s.RebuildNext) ∧ x.cfg = s.cfg := by
  have hwp := h.wp
  have hos : x.os = s.os := by rw [h.counted, h.read]
  have hcfg : x.cfg = s.cfg := by rw [h.counted, h.read]
  have htail : tailLeft x = tailLeft u := by rw [h.counted]; rfl
  have hcount : x.symCount = s.symCount + 1 := by rw [h.counted]
  refine ⟨?_, by rw [htail, tailLeft_eq_false_iff], ?_, hcfg⟩
  · rw [← BitVec.toNat_inj, hwp, hos]
  · rw [rebuildDue_eq_true_iff, hcfg, hcount, State.RebuildNext]

theorem State.Counted.endsIn (hf : s.fsm = .decodingSymbols) (ht : (completeOrRebuild x).finish = .next t) :
    s.EndsIn u t n := by
  obtain ⟨hend, htail, hdue, hcfg⟩ := h.conditions
  have hxf : x.fsm = .decodingSymbols := by rw [h.counted, h.read]; exact hf
  have hvalid : x.RebuildsValid t.cntLL t.cntD ↔ s.RebuildsValid t.cntLL t.cntD := by
    unfold State.RebuildsValid
    rw [hcfg]
  have hleft : tailLeft x = true ↔ ¬ u.TailOk := by rw [← htail, Bool.not_eq_false]
  have hnotDue : rebuildDue x = false ↔ ¬ s.RebuildNext := by rw [← hdue, Bool.not_eq_true]
  have hfsm := finished_fsm (Res.finish_eq_next.1 ht)
  rwa [ne_eq, hend, hxf, hvalid, htail, hleft, hdue, hnotDue] at hfsm

theorem State.Counted.trees (ht : (completeOrRebuild x).finish = .next t) :
    (s.wp.toNat + n = s.os.toNat ∨ ¬ s.RebuildNext → t.lenLL = s.lenLL ∧ t.lenD = s.lenD) ∧
      (s.wp.toNat + n ≠ s.os.toNat → s.RebuildNext → s.RebuildsInto t) := by
  obtain ⟨hend, -, hdue, hcfg⟩ := h.conditions
  have hLL : x.lenLL = s.lenLL := by rw [h.counted, h.read]
  have hD : x.lenD = s.lenD := by rw [h.counted, h.read]
  have htrees := finished_trees (Res.finish_eq_next.1 ht)
  rwa [ne_eq, hend, ← Bool.not_eq_true, hdue, hLL, hD, State.RebuildsInto, hcfg, hLL, hD] at htrees

/-- Where neither the tail check nor a rebuild raises, the frame is completed or goes on, and only `fsm` and the trees change. -/
theorem State.Counted.completes (hf : s.fsm = .decodingSymbols) (htail : s.wp.toNat + n = s.os.toNat → u.TailOk)
    (hvalid : s.wp.toNat + n ≠ s.os.toNat → s.RebuildNext → s.RebuildsValid x.cntLL x.cntD)
    (ht : (completeOrRebuild x).finish = .next t) :
    t = { x with fsm := t.fsm, lenLL := t.lenLL, lenD := t.lenD } ∧
      t.fsm = (if s.wp.toNat + n = s.os.toNat then .done else .decodingSymbols) ∧
      (s.wp.toNat + n = s.os.toNat ∨ ¬ s.RebuildNext → t.lenLL = s.lenLL ∧ t.lenD = s.lenD) ∧
      (s.wp.toNat + n ≠ s.os.toNat → s.RebuildNext →
        t.lenLL = rebuiltLL s.cfg t.cntLL ∧ t.lenD = rebuiltD s.cfg t.cntD) := by
  have hcntLL : t.cntLL = x.cntLL := by rw [finished_touches ht]
  have hcntD : t.cntD = x.cntD := by rw [finished_touches ht]
  obtain ⟨hend, hgoes⟩ := h.endsIn hf ht
  obtain ⟨hkept, hrebuilt⟩ := h.trees ht
  rw [← hcntLL, ← hcntD] at hvalid
  have hfsm : t.fsm = if s.wp.toNat + n = s.os.toNat then .done else .decodingSymbols := by
    split
    case isTrue hos => exact (hend hos).1 (htail hos)
    case isFalse hos => exact (hgoes hos).1 (or_iff_not_imp_left.2 fun hnext => hvalid hos (not_not.1 hnext))
  have hnf : t.isFailed = false := by
    rw [← Bool.not_eq_true, State.isFailed_eq_true_iff, hfsm]
    split <;> simp
  refine ⟨finished_touches_of_not_failed ht hnf, hfsm, hkept, fun hos hnext => ?_⟩
  obtain ⟨hvLL, hvD⟩ := hvalid hos hnext
  obtain ⟨hLL, hD⟩ := hrebuilt hos hnext
  exact ⟨hLL.trans (if_pos hvLL), hD.trans (if_pos ⟨hvLL, hvD⟩)⟩

end Counted

/-! ## LIT (R204) -/

/-- LIT up to the completion of its frame: everything it writes. -/
def State.litCounted (b : Byte) (s : State) : State :=
  { s with
    cntLL := bump s.cntLL b.toNat, out := Assoc.put s.out s.wp.toNat b, wp := s.wp + 1, symCount := s.symCount + 1 }

theorem State.litCounted_eq (b : Byte) (s : State) : s.litCounted b = ((s.countLL b.toNat).emit b).countInstr := by
  simp [State.litCounted, State.countLL, State.emit, State.countInstr]

theorem execLit_eq {b : Byte} {s : State} (hf : s.fsm = .decodingSymbols) (hw : s.wp.toNat < s.os.toNat) :
    exec (.lit b) s = (completeOrRebuild (s.litCounted b)).finish := by
  have hemit : emitLiteral b (s.countLL b.toNat) = .ok () ((s.countLL b.toNat).emit b) := emitLiteral_eq_ok.2 ⟨hw, rfl⟩
  simp only [exec, execLit, if_pos hf, symbolInstr, hemit, Res.bind_ok, State.litCounted_eq]

theorem execLit_eq_next_iff {b : Byte} {s t : State} :
    exec (.lit b) s = .next t ↔ s.fsm = .decodingSymbols ∧ s.wp.toNat < s.os.toNat ∧
      (completeOrRebuild (s.litCounted b)).finish = .next t := by
  constructor
  · intro h
    obtain ⟨hf, hw, -⟩ := execLit_eq_next h
    exact ⟨hf, hw, by rwa [execLit_eq hf hw] at h⟩
  · rintro ⟨hf, hw, h⟩
    rwa [execLit_eq hf hw]

theorem State.counted_lit {b : Byte} {s : State} (hw : s.wp.toNat < s.os.toNat) : s.Counted s (s.litCounted b) 1 :=
  ⟨rfl, rfl, State.wp_succ hw⟩

/-- Settles O34: the byte emitted and counted, the frame completes or goes on under the two conditions. -/
theorem litEmitsItsByte : Obligations.LitEmitsItsByte := by
  intro b s hf hw hsorted htail hvalid
  obtain ⟨t, ht⟩ := completeOrRebuild_proceeds (s.litCounted b)
  obtain ⟨heq, hfsm, hkept, hrebuilt⟩ := (State.counted_lit hw).completes hf htail hvalid ht
  have hout : t.out = Assoc.put s.out s.wp.toNat b := by rw [heq]; rfl
  have hwp : t.wp = s.wp + 1 := by rw [heq]; rfl
  have hcntLL : t.cntLL = bump s.cntLL b.toNat := by rw [heq]; rfl
  have hcntD : t.cntD = s.cntD := by rw [heq]; rfl
  refine ⟨t, (execLit_eq hf hw).trans ht, fun a => by rw [hout, Assoc.get?_put], by rw [hwp, State.wp_succ hw],
    fun k => ?_, by rw [heq]; rfl, hfsm, hkept, hcntD ▸ hrebuilt, by rw [heq]; rfl⟩
  rw [hcntLL, get_bump_read hsorted]

/-- Settles O35: whatever the completion ends in, it writes the trees and `fsm` alone, or fails. -/
theorem litFrame : Obligations.LitFrame := by
  intro b s hsorted
  refine ⟨fun hf hw => execLit_eq hf hw ▸ completeOrRebuild_proceeds _, fun t h => ?_⟩
  obtain ⟨hf, hw, ht⟩ := execLit_eq_next_iff.1 h
  have hcounted := State.counted_lit (b := b) hw
  obtain ⟨hkept, hrebuilt⟩ := hcounted.trees ht
  have hends := hcounted.endsIn hf ht
  have htouched := finished_touches ht
  refine ⟨hcounted.endsIn hf ht, fun a ha => ?_, by rw [htouched]; rfl, by rw [htouched]; rfl, by rw [htouched]; rfl,
    by rw [htouched]; rfl, by rw [htouched]; rfl, by rw [htouched]; rfl, fun k => ?_, by rw [htouched]; rfl, fun hnf => ?_,
    hkept, hrebuilt⟩
  · rw [htouched]
    exact Assoc.get?_put_other _ _ ha
  · rw [htouched]
    exact get_bump_read hsorted _ k
  · rw [finished_touches_of_not_failed ht hnf]
    exact ⟨rfl, rfl, rfl, rfl⟩

/-! ## MATCH (R205) -/

/-- The state a result leaves, with a value or with an error. -/
def Res.Leaves {α : Type} (r : Res α) (t : State) : Prop := (∃ a, r = .ok a t) ∨ ∃ e, r = .raise e t

@[simp] theorem Res.leaves_ok {α : Type} {a : α} {s t : State} : (Res.ok a s).Leaves t ↔ s = t := by simp [Res.Leaves]

@[simp] theorem Res.leaves_raise {α : Type} {e : ErrorKind} {s t : State} : (Res.raise e s : Res α).Leaves t ↔ s = t := by
  simp [Res.Leaves]

@[simp] theorem Res.leaves_fault {α : Type} {f : Fault} {t : State} : ¬ (Res.fault f : Res α).Leaves t := by
  simp [Res.Leaves]

/-- Giving a value another form leaves the same state. -/
theorem Res.leaves_bind_ok {α β : Type} {r : Res α} {g : α → β} {t : State} :
    (r.bind fun a s => .ok (g a) s).Leaves t ↔ r.Leaves t := by
  cases r <;> simp

theorem readValue_leaves_cntD {row : ExtraRow} {s t : State} (h : (readValue row s).Leaves t) : t.cntD = s.cntD := by
  obtain ⟨v, hok⟩ | ⟨e, hraise⟩ := h
  · obtain ⟨-, -, -, rfl⟩ := readValue_eq_ok hok
    rfl
  · rw [(readValue_eq_raise hraise).2]

/-- What reading a distance leaves of the D counters: the decoded symbol counted, nothing where none is decoded (R207, R208). -/
theorem readDistance_leaves_cntD {s t : State} (h : (readDistance s).Leaves t) :
    (∀ e u, decodeD s = .raise e u → t.cntD = s.cntD) ∧ ∀ j u, decodeD s = .ok j u → t.cntD = bump s.cntD j := by
  unfold readDistance at h
  refine ⟨fun e u hdecode => ?_, fun j u hdecode => ?_⟩ <;> rw [hdecode] at h
  · obtain ⟨-, k, -, rfl⟩ := decodeOne_eq_raise hdecode
    rw [← Res.leaves_raise.1 h, State.advance_cntD]
  · obtain ⟨k, -, -, rfl⟩ := decodeOne_eq_ok hdecode
    rw [Res.bind_ok, State.advance_cfg] at h
    cases hrow : s.cfg.dists[j]? with
    | none => simp [hrow] at h
    | some row =>
      simp only [hrow] at h
      rw [readValue_leaves_cntD h, State.countD_cntD, State.advance_cntD]

/-- The same of the operands of a MATCH, of which the length is read first (R205). -/
theorem readMatchOperands_leaves_cntD {row : ExtraRow} {s t : State} (h : (readMatchOperands row s).Leaves t) :
    (∀ e u, readValue row s = .raise e u → t.cntD = s.cntD) ∧
      ∀ length u, readValue row s = .ok length u →
        (∀ e v, decodeD u = .raise e v → t.cntD = s.cntD) ∧ ∀ j v, decodeD u = .ok j v → t.cntD = bump s.cntD j := by
  unfold readMatchOperands at h
  refine ⟨fun e u hlength => ?_, fun length u hlength => ?_⟩ <;> rw [hlength] at h
  · obtain ⟨-, rfl⟩ := readValue_eq_raise hlength
    rw [← Res.leaves_raise.1 h]
  · obtain ⟨-, -, -, rfl⟩ := readValue_eq_ok hlength
    exact readDistance_leaves_cntD (Res.leaves_bind_ok.1 h)

/-- Reading the operands, once the LL symbol is counted, writes `bit_pos` and the D counters. -/
theorem readMatchOperands_leaves {i : Nat} {row : ExtraRow} {s u : State}
    (h : (readMatchOperands row (s.countLL (256 + i))).Leaves u) :
    u = { s with bitPos := u.bitPos, cntLL := bump s.cntLL (256 + i), cntD := u.cntD } := by
  obtain ⟨p, hok⟩ | ⟨e, hraise⟩ := h
  · obtain ⟨k, -, hu, -⟩ := readMatchOperands_ok_frame hok
    exact hu
  · exact readMatchOperands_raise_frame hraise

section Match

variable {i : Nat} {row : ExtraRow} {s : State} (hf : s.fsm = .decodingSymbols) (hrow : s.cfg.lens[i]? = some row)
include hf hrow

theorem execMatchRef_eq : exec (.matchRef i) s = (symbolInstr (256 + i) (matchEffect row) s).finish := by
  simp only [exec, execMatchRef, if_pos hf, hrow]

/-- An error while the operands are read is the error of the MATCH. -/
theorem execMatchRef_of_read_raise {e : ErrorKind} {u : State}
    (h : readMatchOperands row (s.countLL (256 + i)) = .raise e u) : exec (.matchRef i) s = .next (u.fail e) := by
  simp only [execMatchRef_eq hf hrow, symbolInstr, matchEffect, h, Res.bind_raise, Res.finish_raise]

variable {length distance : Nat} {u : State}
  (hread : readMatchOperands row (s.countLL (256 + i)) = .ok (length, distance) u)
include hread

/-- Operands that break a check of the copy are InvalidBackReference. -/
theorem execMatchRef_of_check_fails (hcheck : distance = 0 ∨ s.wp.toNat < distance ∨ s.os.toNat - s.wp.toNat < length) :
    exec (.matchRef i) s = .next (u.fail .invalidBackReference) := by
  have hcopy : copyBack distance length u = .raise .invalidBackReference u := by
    have hu := readMatchOperands_leaves (.inl ⟨_, hread⟩)
    rcases copyBack_cases distance length u with ⟨-, hraise⟩ | ⟨hd, hw, hl, -⟩
    · exact hraise
    · rw [hu] at hw hl
      dsimp only at hw hl
      omega
  simp only [execMatchRef_eq hf hrow, symbolInstr, matchEffect, hread, Res.bind_ok, hcopy, Res.bind_raise, Res.finish_raise]

variable (hd : 1 ≤ distance) (hdw : distance ≤ s.wp.toNat) (hl : s.wp.toNat + length ≤ s.os.toNat)
include hd hdw hl

/-- Operands that pass the checks start the copy loop. -/
theorem execMatchRef_of_checks_pass :
    exec (.matchRef i) s =
      ((copyLoop distance length u).bind fun _ x => completeOrRebuild x.countInstr).finish := by
  have hcopy : copyBack distance length u = copyLoop distance length u := by
    have hu := readMatchOperands_leaves (.inl ⟨_, hread⟩)
    refine copyBack_eq_copyLoop hd ?_ ?_ <;> rw [hu] <;> assumption
  simp only [execMatchRef_eq hf hrow, symbolInstr, matchEffect, hread, Res.bind_ok, hcopy]

end Match

section Copy

variable {i : Nat} {row : ExtraRow} {s u : State} {length distance : Nat}
  (hread : readMatchOperands row (s.countLL (256 + i)) = .ok (length, distance) u)
  (hl : s.wp.toNat + length ≤ s.os.toNat)
include hread hl

/-- With the history written, the copy of operands that pass the checks goes through. -/
theorem copyLoop_of_checks_pass (hd : 1 ≤ distance) (hdw : distance ≤ s.wp.toNat)
    (hhistory : ∀ a, a < s.wp.toNat → (Assoc.get? s.out a).isSome = true) :
    ∃ v, copyLoop distance length u = .ok () v := by
  have hu := readMatchOperands_leaves (.inl ⟨_, hread⟩)
  refine copyLoop_completes hd ?_ ?_ ?_ <;> rw [hu] <;> assumption

variable {v : State} (hcopy : copyLoop distance length u = .ok () v)
include hcopy

/-- The copy made: OUT and `wp` are written beside what the operands wrote, OUT at the copied bytes alone. -/
theorem copied_frame :
    v = { s with
      bitPos := u.bitPos, cntLL := bump s.cntLL (256 + i), cntD := u.cntD, out := v.out, wp := v.wp } ∧
      (∀ a, a < s.wp.toNat ∨ s.wp.toNat + length ≤ a → Assoc.get? v.out a = Assoc.get? s.out a) ∧
      v.wp.toNat = s.wp.toNat + length := by
  have hu := readMatchOperands_leaves (.inl ⟨_, hread⟩)
  obtain ⟨heq, hkept, hwp⟩ := copyLoop_ok_frame hcopy (by rw [hu]; dsimp only; omega)
  have hwps : u.wp = s.wp := by rw [hu]
  have houts : u.out = s.out := by rw [hu]
  rw [hwps, houts] at hkept
  exact ⟨by rw [heq, hu], hkept, by rw [hwp, hwps]⟩

/-- The copied bytes in the closed form of R183. -/
theorem copied_bytes (hd : 1 ≤ distance) (hdw : distance ≤ s.wp.toNat) {k : Nat} (hk : k < length) :
    Assoc.get? v.out (s.wp.toNat + k) = Assoc.get? s.out (s.wp.toNat - distance + k % distance) := by
  have hu := readMatchOperands_leaves (.inl ⟨_, hread⟩)
  have hwps : u.wp = s.wp := by rw [hu]
  have houts : u.out = s.out := by rw [hu]
  have hoss : u.os = s.os := by rw [hu]
  have hclosed := get?_copyLoop hcopy hd (hwps ▸ hdw) (by rw [hwps, hoss]; omega) hk
  rwa [hwps, houts] at hclosed

/-- The copy made, the MATCH is counted. -/
theorem State.counted_match : s.Counted u v.countInstr length := by
  have hu := readMatchOperands_leaves (.inl ⟨_, hread⟩)
  obtain ⟨heq, -, hwp⟩ := copied_frame hread hl hcopy
  refine ⟨by rw [hu], ?_, hwp⟩
  rw [heq, hu]
  rfl

end Copy

/-- Settles O37: both forms of failure are raised before the copy loop. -/
theorem matchFailsBeforeWriting : Obligations.MatchFailsBeforeWriting := by
  intro i row s hf hrow
  refine ⟨fun e u hread => ⟨_, execMatchRef_of_read_raise hf hrow hread, rfl, ?_⟩,
    fun length distance u hread hcheck => ⟨_, execMatchRef_of_check_fails hf hrow hread hcheck, rfl, ?_⟩⟩
  · rw [State.fail_out, readMatchOperands_leaves (.inr ⟨e, hread⟩)]
  · rw [State.fail_out, readMatchOperands_leaves (.inl ⟨_, hread⟩)]

/-- Settles O36: the copy loop goes through, and the instruction counted, the frame completes or goes on under the two conditions. -/
theorem matchCopiesHistory : Obligations.MatchCopiesHistory := by
  intro i length distance row s u hf hsorted hrow hread hd hdw _ hl hhistory htail hvalid
  have hu := readMatchOperands_leaves (.inl ⟨_, hread⟩)
  obtain ⟨v, hcopy⟩ := copyLoop_of_checks_pass hread hl hd hdw hhistory
  obtain ⟨hv, hkept, hwp⟩ := copied_frame hread hl hcopy
  have hcntLL : v.cntLL = u.cntLL := by rw [hv, hu]
  have hcntD : v.cntD = u.cntD := by rw [hv]
  rw [← hcntLL, ← hcntD] at hvalid
  obtain ⟨t, ht⟩ := completeOrRebuild_proceeds v.countInstr
  obtain ⟨heq, hfsm, htrees, hrebuilt⟩ := (State.counted_match hread hl hcopy).completes hf htail hvalid ht
  have hstep : exec (.matchRef i) s = .next t := by
    rw [execMatchRef_of_checks_pass hf hrow hread hd hdw hl, hcopy]
    exact ht
  refine ⟨t, hstep, fun k hk => ?_, fun a ha => ?_, ?_, ?_, ?_, fun k => ?_, ?_, hfsm, htrees, hrebuilt, ?_⟩
  · rw [heq]
    exact copied_bytes hread hl hcopy hd hdw hk
  · rw [heq]
    exact hkept a ha
  · rw [heq]
    exact hwp
  · rw [heq, hv]
    rfl
  · rw [heq]
    exact hcntD
  · rw [heq, hv]
    exact get_bump_read hsorted _ k
  · rw [heq, hv]
    rfl
  · rw [heq, hv]
    rfl

/-- The ways a MATCH can come to a next state: its operands cannot be read, or fail a check of the copy; or the copy is made and its frame
completed or continued. -/
theorem execMatchRef_next_cases {i : Nat} {row : ExtraRow} {s t : State} (hrow : s.cfg.lens[i]? = some row)
    (h : exec (.matchRef i) s = .next t) :
    s.fsm = .decodingSymbols ∧
    ((∃ e u, readMatchOperands row (s.countLL (256 + i)) = .raise e u ∧ t = u.fail e) ∨
     ∃ length distance u, readMatchOperands row (s.countLL (256 + i)) = .ok (length, distance) u ∧
      ((distance = 0 ∨ s.wp.toNat < distance ∨ s.os.toNat - s.wp.toNat < length) ∧ t = u.fail .invalidBackReference ∨
       (1 ≤ distance ∧ distance ≤ s.wp.toNat ∧ length ≤ s.os.toNat - s.wp.toNat) ∧
        ∃ v, copyLoop distance length u = .ok () v ∧ (completeOrRebuild v.countInstr).finish = .next t)) := by
  obtain ⟨hf, row', hrow', hends⟩ := execMatchRef_eq_next h
  obtain rfl := Option.some.inj (hrow.symm.trans hrow')
  refine ⟨hf, ?_⟩
  rcases hends with ⟨v, heffect, ht⟩ | ⟨e, u, heffect, rfl⟩
  · obtain ⟨⟨length, distance⟩, u, hread, hd, hdw, hl, hcopy, -⟩ := matchEffect_ok_frame heffect
    exact .inr ⟨length, distance, u, hread, .inr ⟨⟨hd, hdw, hl⟩, v, hcopy, Res.finish_eq_next.2 ht⟩⟩
  · rcases matchEffect_eq_raise heffect with ⟨hread, -⟩ | ⟨rfl, ⟨length, distance⟩, hread, hcheck⟩
    · exact .inl ⟨e, u, hread, rfl⟩
    · rw [readMatchOperands_leaves (.inl ⟨_, hread⟩)] at hcheck
      exact .inr ⟨length, distance, u, hread, .inl ⟨hcheck, rfl⟩⟩

/-- Whatever it ends in, a MATCH leaves what its operands left, but for OUT, the count of instructions, `fsm`, the trees and what a failure makes
unspecified (R266). -/
theorem execMatchRef_leaves {i : Nat} {row : ExtraRow} {s t : State} (hrow : s.cfg.lens[i]? = some row)
    (hw : s.wp.toNat ≤ s.os.toNat) (h : exec (.matchRef i) s = .next t) :
    ∃ u, (readMatchOperands row (s.countLL (256 + i))).Leaves u ∧
      t = { u with
        fsm := t.fsm, cs := t.cs, os := t.os, bitPos := t.bitPos, wp := t.wp, lenLL := t.lenLL, lenD := t.lenD
        symCount := t.symCount, out := t.out, fresh := t.fresh } := by
  obtain ⟨-, ⟨e, u, hread, rfl⟩ | ⟨length, distance, u, hread, ⟨-, rfl⟩ | ⟨⟨-, -, hl⟩, v, hcopy, ht⟩⟩⟩ :=
    execMatchRef_next_cases hrow h
  · exact ⟨u, .inr ⟨e, hread⟩, rfl⟩
  · exact ⟨u, .inl ⟨_, hread⟩, rfl⟩
  · refine ⟨u, .inl ⟨_, hread⟩, ?_⟩
    have hv := (State.counted_match hread (by omega) hcopy).counted
    have hcntLL : v.countInstr.cntLL = u.cntLL := by
      rw [State.countInstr_cntLL, (copied_frame hread (by omega) hcopy).1, readMatchOperands_leaves (.inl ⟨_, hread⟩)]
    rw [finished_touches ht, hv, hcntLL]

/-- A MATCH that does not fail leaves the size fields. -/
theorem execMatchRef_sizes {i : Nat} {row : ExtraRow} {s t : State} (hrow : s.cfg.lens[i]? = some row)
    (hw : s.wp.toNat ≤ s.os.toNat) (h : exec (.matchRef i) s = .next t) (hnf : t.isFailed = false) :
    t.cs = s.cs ∧ t.os = s.os ∧ t.fresh = s.fresh := by
  obtain ⟨-, ⟨e, u, hread, rfl⟩ | ⟨length, distance, u, hread, ⟨-, rfl⟩ | ⟨⟨-, -, hl⟩, v, hcopy, ht⟩⟩⟩ :=
    execMatchRef_next_cases hrow h
  · simp [State.isFailed] at hnf
  · simp [State.isFailed] at hnf
  · rw [finished_touches_of_not_failed ht hnf, (copied_frame hread (by omega) hcopy).1]
    exact ⟨rfl, rfl, rfl⟩

/-- A MATCH that fails in `u`, its operands not read or refused by a check, leaves OUT, the count of instructions and the trees. -/
theorem readMatchOperands_fail_kept {i : Nat} {row : ExtraRow} {s u : State} (e : ErrorKind)
    (h : (readMatchOperands row (s.countLL (256 + i))).Leaves u) :
    (u.fail e).out = s.out ∧ (u.fail e).symCount = s.symCount ∧ (u.fail e).lenLL = s.lenLL ∧ (u.fail e).lenD = s.lenD := by
  rw [readMatchOperands_leaves h]
  exact ⟨rfl, rfl, rfl, rfl⟩

/-- Settles O39: each clause is read off the state the operands left, or off the way the MATCH ended. -/
theorem matchFrame : Obligations.MatchFrame := by
  intro i row s hsortedLL hsortedD hw hrow
  refine ⟨fun length distance u hf hread hd hdw hl hhistory => ?_, fun t h => ?_⟩
  · obtain ⟨v, hcopy⟩ := copyLoop_of_checks_pass hread hl hd hdw hhistory
    rw [execMatchRef_of_checks_pass hf hrow hread hd hdw hl, hcopy]
    exact completeOrRebuild_proceeds _
  · obtain ⟨u, hleaves, ht⟩ := execMatchRef_leaves hrow hw h
    have hu := readMatchOperands_leaves hleaves
    have hcntLL : t.cntLL = bump s.cntLL (256 + i) := by rw [ht, hu]
    have hcntD : t.cntD = u.cntD := by rw [ht]
    have hbnd : t.bnd = s.bnd := by rw [ht, hu]
    obtain ⟨hcfg, hinp, hinLen, hhost⟩ := exec_sameEnv h
    obtain ⟨hshort, hlength⟩ := readMatchOperands_leaves_cntD hleaves
    rw [← hcntD] at hshort hlength
    refine ⟨hcfg, hinp, hinLen, hbnd, hhost, execMatchRef_sizes hrow hw h, fun k => ?_, hshort,
      fun length s1 hread => ⟨(hlength length s1 hread).1, fun j s2 hdecode k => ?_⟩, fun e s1 hraise => ?raises,
      fun length distance s1 hread => ?reads⟩
    · rw [hcntLL, get_bump_read hsortedLL]
    · rw [(hlength length s1 hread).2 j s2 hdecode]
      exact get_bump_read hsortedD j k
    case raises =>
      obtain ⟨-, ⟨e', u', hread', rfl⟩ | ⟨_, _, u', hread', -⟩⟩ := execMatchRef_next_cases hrow h
      · exact readMatchOperands_fail_kept e' (.inr ⟨e', hread'⟩)
      · rw [hraise] at hread'
        cases hread'
    case reads =>
      obtain ⟨hf, ⟨e', u', hread', -⟩ | ⟨_, _, u', hread', hends⟩⟩ := execMatchRef_next_cases hrow h <;> rw [hread] at hread' <;>
        cases hread'
      obtain ⟨hcheck, rfl⟩ | ⟨hpass, v, hcopy, htv⟩ := hends
      · have hkept := readMatchOperands_fail_kept .invalidBackReference (.inl ⟨_, hread⟩)
        exact ⟨fun a _ => by rw [hkept.1], fun _ => hkept, fun hd hdw hl => by omega⟩
      · obtain ⟨-, hkept, -⟩ := copied_frame hread (by omega) hcopy
        have hcounted := State.counted_match hread (by omega) hcopy
        obtain ⟨hsame, hrebuilt⟩ := hcounted.trees htv
        refine ⟨fun a ha => ?_, fun hcheck => by omega, fun _ _ _ => ⟨hcounted.endsIn hf htv, ?_, hsame, hrebuilt⟩⟩
        · rw [finished_touches htv]
          exact hkept a ha
        · rw [finished_touches htv, hcounted.counted]

end Sys2Proof.Machine
end

section
/-! SUPPORT. The end of a frame (43_decoder.md R211, R215, R216): the block's own step is never stopped while IN is placed, each one emits, so a frame comes to
Done or Failed; and what the result is there. -/

namespace Sys2Proof.Machine

/-! ## Reading never faults (R71, R136)

Each primitive of a symbol step faults only where a byte it reads is missing, or a symbol has no row. -/

/-- Every bit of the payload can be read. -/
def State.Readable (s : State) : Prop := ∀ p, p < 8 * s.bnd.toNat → ∃ b, streamBit s p = .ok b

/-- Where IN is placed and holds the payload, every bit of it can be read (R243, R294 duty 1). -/
theorem State.Placed.readable {s : State} (h : s.Placed) (hb : 8 + s.bnd.toNat ≤ s.inLen.toNat) : s.Readable := by
  intro p hp
  have hin : 8 + p / 8 < s.inLen.toNat := by omega
  obtain ⟨b, hb⟩ := Option.isSome_iff_exists.1 (h _ hin)
  exact ⟨_, streamBit_of_readIn (readIn_eq_ok.2 ⟨hin, hb⟩)⟩

theorem readInBytes_of_placed {s : State} (h : s.Placed) {a n : Nat} (hn : a + n ≤ s.inLen.toNat) :
    ∃ bytes, readInBytes s a n = .ok bytes ∧ bytes.length = n := by
  induction n generalizing a with
  | zero => exact ⟨[], rfl, rfl⟩
  | succ n ih =>
    have hin : a < s.inLen.toNat := by omega
    obtain ⟨b, hb⟩ := Option.isSome_iff_exists.1 (h a hin)
    obtain ⟨bytes, hbytes, hlen⟩ := ih (a := a + 1) (by omega)
    refine ⟨b :: bytes, ?_, by rw [List.length_cons, hlen]⟩
    rw [readInBytes, readIn_eq_ok.2 ⟨hin, hb⟩, hbytes]

section Readable

variable {s : State} (h : s.Readable)
include h

theorem streamBits_ne_error {p n v : Nat} {f : Fault} (hn : n = 0 ∨ p + n ≤ 8 * s.bnd.toNat) :
    streamBits s p n v ≠ .error f := by
  induction n generalizing p v with
  | zero => simp [streamBits]
  | succ n ih =>
    obtain ⟨b, hb⟩ := h p (by omega)
    rw [streamBits_succ, hb]
    exact ih (by omega)

theorem readBits_ne_fault {n : Nat} {f : Fault} : readBits n s ≠ .fault f := by
  rcases readBits_cases n s with ⟨-, hr⟩ | ⟨hroom, g, hbits, -⟩ | ⟨-, v, -, hr⟩
  · simp [hr]
  · exact absurd hbits (streamBits_ne_error h (by unfold State.remaining at hroom; omega))
  · simp [hr]

theorem readValue_ne_fault {row : ExtraRow} {f : Fault} : readValue row s ≠ .fault f := by
  intro hfault
  rcases Res.bind_eq_fault.1 hfault with hextra | ⟨_, _, -, hok⟩
  · unfold readExtra at hextra
    split at hextra
    · simp at hextra
    · exact readBits_ne_fault h hextra
  · simp at hok

theorem descend_ne_fault {cs : List Codeword} {fuel l v : Nat} {f : Fault} : descend cs fuel l v s ≠ .fault f := by
  induction fuel generalizing l v s with
  | zero => simp [descend]
  | succ fuel ih =>
    rw [descend_succ]
    intro hfault
    rcases Res.bind_eq_fault.1 hfault with hbit | ⟨b, u, hbit, hrest⟩
    · exact readBits_ne_fault h hbit
    · obtain ⟨-, -, rfl⟩ := readBits_eq_ok.1 hbit
      split at hrest
      · simp at hrest
      · exact ih (s := s.advance 1) h hrest

theorem decodeOne_ne_fault {depth : Nat} {t : Lengths} {f : Fault} : decodeOne depth t s ≠ .fault f := by
  unfold decodeOne
  split
  · simp
  · simp
  · exact descend_ne_fault h

/-- A symbol of the D tree has its row (30_encoding.md R108). -/
theorem readDistance_ne_fault {f : Fault} (hD : Sparse.Formed 0 s.cfg.dists.length s.lenD) : readDistance s ≠ .fault f := by
  intro hfault
  rcases Res.bind_eq_fault.1 hfault with hdecode | ⟨j, u, hdecode, hrest⟩
  · exact decodeOne_ne_fault h hdecode
  · obtain ⟨l, hl⟩ := decodeOne_mem hdecode
    obtain ⟨k, -, -, rfl⟩ := decodeOne_eq_ok hdecode
    rw [State.advance_cfg, List.getElem?_eq_getElem (hD.2 _ hl).1] at hrest
    exact readValue_ne_fault (s := (s.advance k).countD j) h hrest

theorem readMatchOperands_ne_fault {row : ExtraRow} {f : Fault} (hD : Sparse.Formed 0 s.cfg.dists.length s.lenD) :
    readMatchOperands row s ≠ .fault f := by
  intro hfault
  rcases Res.bind_eq_fault.1 hfault with hlength | ⟨length, u, hlength, hrest⟩
  · exact readValue_ne_fault h hlength
  · obtain ⟨-, -, -, rfl⟩ := readValue_eq_ok hlength
    rcases Res.bind_eq_fault.1 hrest with hdistance | ⟨_, _, -, hok⟩
    · exact readDistance_ne_fault (s := s.advance row.extra) h hD hdistance
    · simp at hok

end Readable

/-! ## The block's own step is never stopped (R271) -/

theorem State.Inv.formedD {s : State} (h : s.Inv) (hc : CfgOk s.cfg) : Sparse.Formed 0 s.cfg.dists.length s.lenD :=
  hc.facts.dists ▸ h.canonical.lenD

theorem execMatchRef_proceeds {i : Nat} {s : State} (h : s.Inv) (hp : s.Placed) (hc : CfgOk s.cfg) (hf : s.fsm = .decodingSymbols)
    (hi : 256 + i < s.cfg.nll) : Proceeds (exec (.matchRef i) s) := by
  have hlens : i < s.cfg.lens.length := by
    have := hc.facts.lens
    omega
  have hrow := List.getElem?_eq_getElem hlens
  have hw := (h.decoding hf).2
  have hreadable : s.Readable := hp.readable (h.decoding hf).1
  cases hread : readMatchOperands s.cfg.lens[i] (s.countLL (256 + i)) with
  | fault f => exact absurd hread (readMatchOperands_ne_fault (s := s.countLL (256 + i)) hreadable (h.formedD hc))
  | raise e u => exact ⟨_, execMatchRef_of_read_raise hf hrow hread⟩
  | ok p u =>
    by_cases hcheck : p.2 = 0 ∨ s.wp.toNat < p.2 ∨ s.os.toNat - s.wp.toNat < p.1
    · exact ⟨_, execMatchRef_of_check_fails hf hrow hread hcheck⟩
    · obtain ⟨v, hcopy⟩ := copyLoop_of_checks_pass hread (by omega) (by omega) (by omega) fun a ha =>
        ((h.frame (.inl hf)).history a).2 ha
      rw [execMatchRef_of_checks_pass hf hrow hread (by omega) (by omega) (by omega), hcopy]
      exact completeOrRebuild_proceeds _

theorem fetchSymbol_proceeds {s : State} (h : s.Inv) (hp : s.Placed) (hc : CfgOk s.cfg) (hf : s.fsm = .decodingSymbols) :
    Proceeds (fetchSymbol s).outcome := by
  cases hread : decodeLL s with
  | fault f => exact absurd hread (decodeOne_ne_fault (hp.readable (h.decoding hf).1))
  | raise e u => exact ⟨u.fail e, by rw [fetchSymbol_raise hread]; rfl⟩
  | ok symbol u =>
    obtain ⟨l, hl⟩ := decodeOne_mem hread
    have hsymbol : symbol < s.cfg.nll := (h.canonical.lenLL.2 _ hl).1
    obtain ⟨k, hk, -, rfl⟩ := decodeOne_eq_ok hread
    have hinv := h.advance hf hk
    by_cases hlit : symbol < 256
    · rw [fetchSymbol_decoded hread (if_pos hlit)]
      exact (execLit_eq (s := s.advance k) hf (hinv.decoding hf).2 ▸ completeOrRebuild_proceeds _ :)
    · have hdecode : decodeSymbol s.cfg.nll symbol = .ok (.matchRef (symbol - 256)) :=
        (if_neg hlit).trans (if_pos hsymbol)
      rw [fetchSymbol_decoded hread hdecode]
      exact execMatchRef_proceeds hinv hp hc hf (by rw [State.advance_cfg]; omega)

theorem decodeHeader_of_length {bytes : List Byte} (h : bytes.length = 8) :
    ∃ cs os, decodeHeader bytes = .ok (.frameHeader cs os) := by
  match bytes, h with
  | [_, _, _, _, _, _, _, _], _ => exact ⟨_, _, rfl⟩

theorem headerStep_proceeds (cs os : U32) (s : State) : Proceeds (headerStep cs os s).finish := by
  rcases headerStep_cases cs os s with ⟨-, hr⟩ | ⟨-, -, hr⟩ | ⟨-, -, ⟨-, hr⟩ | ⟨-, -, hr⟩ | ⟨-, -, hr⟩⟩ <;> rw [hr]
  case inr.inr.inr.inr =>
    rcases beginSymbols_cases (((s.setSizes cs os).clearFrame.setLenLL s.cfg.initLL).setLenD s.cfg.initD) with
      ⟨-, -, hr⟩ | ⟨-, -, hr⟩ | ⟨-, hr⟩ <;> rw [hr] <;> exact ⟨_, rfl⟩
  all_goals exact ⟨_, rfl⟩

theorem execFrameHeader_eq {cs os : U32} {s : State} (hf : s.fsm = .readingHeader) :
    exec (.frameHeader cs os) s = (headerStep cs os s).finish := if_pos hf

theorem fetchHeader_proceeds {s : State} (hp : s.Placed) (hf : s.fsm = .readingHeader) : Proceeds (fetchHeader s).outcome := by
  by_cases hlen : s.inLen.toNat < 8
  · exact ⟨_, by rw [fetchHeader_short hlen]; rfl⟩
  · obtain ⟨bytes, hread, hbytes⟩ := readInBytes_of_placed hp (a := 0) (n := 8) (by omega)
    obtain ⟨cs, os, hdecode⟩ := decodeHeader_of_length hbytes
    rw [fetchHeader_decoded (by omega) hread hdecode]
    exact (execFrameHeader_eq hf ▸ headerStep_proceeds cs os s :)

/-- The block's own step always has a next state, under the invariant, with IN placed and a well-formed configuration. -/
theorem blockAction_proceeds {s : State} (h : s.Inv) (hp : s.Placed) (hc : CfgOk s.cfg) : Proceeds (blockAction s).outcome := by
  cases hb : s.busy with
  | false => exact ⟨s, by rw [blockAction_of_not_busy hb]; rfl⟩
  | true =>
    rcases State.busy_eq_true_iff.1 hb with hf | hf
    · rw [blockAction_of_readingHeader hf]
      exact fetchHeader_proceeds hp hf
    · rw [blockAction_of_decodingSymbols hf]
      exact fetchSymbol_proceeds h hp hc hf

/-! ## Every symbol step emits (R204, R205, R209) -/

theorem completeOrRebuild_ok_fsm {x t : State} (h : completeOrRebuild x = .ok () t) : t.fsm = .done ∨ t.fsm = x.fsm := by
  rcases completeOrRebuild_cases x with ⟨-, -, hr⟩ | ⟨-, -, hr⟩ | ⟨-, -, hr⟩ | ⟨-, -, -, -, hr⟩ | ⟨-, -, -, hr⟩ |
      ⟨-, -, -, -, hr⟩ <;> rw [hr] at h <;> cases h
  · exact .inl rfl
  · exact .inr rfl
  · exact .inr rfl

/-- An instruction whose effect went through and that does not fail: the frame is Done or goes on, with more emitted. -/
theorem State.SymbolEffect.emits {s u t : State} {symbol : Nat} (he : s.SymbolEffect symbol u) (hf : s.fsm = .decodingSymbols)
    (ht : (completeOrRebuild u.countInstr).finish = .next t) (hnf : t.isFailed = false) :
    (t.fsm = .done ∨ t.fsm = .decodingSymbols) ∧ s.wp.toNat < t.wp.toNat ∧ t.os = s.os := by
  have huf : u.fsm = .decodingSymbols := by rw [he.touched]; exact hf
  have htouched := finished_touches_of_not_failed ht hnf
  refine ⟨?_, by rw [htouched]; exact he.grows, by rw [htouched, he.touched]; rfl⟩
  rcases Res.finish_eq_next.1 ht with hok | ⟨e, v, -, rfl⟩
  · exact (completeOrRebuild_ok_fsm hok).imp_right fun hsame => hsame.trans huf
  · simp [State.isFailed] at hnf

/-- A symbol step that does not fail. -/
theorem blockAction_emits {s t : State} (h : s.Inv) (hc : CfgOk s.cfg) (hf : s.fsm = .decodingSymbols)
    (ht : (blockAction s).outcome = .next t) (hnf : t.isFailed = false) :
    (t.fsm = .done ∨ t.fsm = .decodingSymbols) ∧ s.wp.toNat < t.wp.toNat ∧ t.os = s.os := by
  have hframe := h.inFrame hf
  rcases blockAction_eq_next ht with ⟨hb, -⟩ | ⟨hr, -⟩ | ⟨hr, -⟩ | ⟨-, e, u, -, rfl⟩ | ⟨-, x, u, hd, -, he⟩ | ⟨-, i, u, hd, -, he⟩
  · simp [State.busy, hf] at hb
  · simp [hf] at hr
  · simp [hf] at hr
  · simp [State.isFailed] at hnf
  · obtain ⟨k, hk, -, rfl⟩ := decodeOne_eq_ok hd
    obtain ⟨-, hw, hfinish⟩ := execLit_eq_next_iff.1 he
    rw [State.litCounted_eq] at hfinish
    exact ((hframe.advance hk).emit_effect hw _).emits hf hfinish hnf
  · obtain ⟨k, hk, -, rfl⟩ := decodeOne_eq_ok hd
    obtain ⟨-, row, hrow, ⟨v, heffect, hfinish⟩ | ⟨e, v, -, rfl⟩⟩ := execMatchRef_eq_next he
    · exact ((hframe.advance hk).match_effect hc hrow heffect).emits hf (Res.finish_eq_next.2 hfinish) hnf
    · simp [State.isFailed] at hnf

/-- Settles O54: more is emitted unless the step fails, and how much, and whether that is all, is the invariant of the next state. -/
theorem symbolStepEmits : Obligations.SymbolStepEmits := by
  intro s t h hf hh hstep
  obtain ⟨hc, hblock⟩ := step_eq_blockAction hh hstep
  have ht := blockAction_inv h hc hblock
  cases hnf : t.isFailed with
  | true => exact .inl rfl
  | false =>
    obtain ⟨hfsm, hgrows, hos⟩ := blockAction_emits h hc hf hblock hnf
    refine .inr ⟨hgrows, (ht.frame hfsm.symm).wp, hos, ht.finished, fun hall => ?_⟩
    rcases hfsm with hdone | hgoes
    · exact hdone
    · exact absurd (congrArg BitVec.toNat hall) (ht.decoding hgoes).2.ne

/-! ## Every frame ends (R215) -/

/-- Nothing stands in the block's way: the invariant, IN placed, a well-formed configuration, and no move of the host pending. -/
structure State.Ready (s : State) : Prop where
  inv    : s.Inv
  placed : s.Placed
  cfgOk  : CfgOk s.cfg
  host   : s.host = []

/-- The block steps on its own, and nothing comes in its way. -/
theorem State.Ready.step {s : State} (h : s.Ready) :
    ∃ t, Machine.step s = .next t ∧ (blockAction s).outcome = .next t ∧ t.Ready := by
  obtain ⟨t, ht⟩ := blockAction_proceeds h.inv h.placed h.cfgOk
  have hturn : s.BlockTurn s := .inl ⟨h.host, rfl⟩
  obtain ⟨hcfg, hinp, hinLen, hhost⟩ := blockAction_sameEnv ht
  refine ⟨t, (hturn.step_eq h.cfgOk).trans ht, ht, blockAction_inv h.inv h.cfgOk ht, ?_, hcfg ▸ h.cfgOk, hhost.trans h.host⟩
  unfold State.Placed
  rw [hinp, hinLen]
  exact h.placed

theorem coreRun_succ {M : Host.Core} {s t : M.State} (h : M.step s = .next t) (n : Nat) : M.run (n + 1) s = M.run n t := by
  rw [Host.Core.run, h]

theorem runSteps_succ {s t : State} (h : step s = .next t) (n : Nat) : runSteps (n + 1) s = runSteps n t :=
  coreRun_succ (M := Sys2Proof.core) h n

theorem State.terminal_iff {s : State} : s.Terminal ↔ s.fsm = .done ∨ s.isFailed = true := by
  simp [State.Terminal, State.isDone]

/-- Each symbol step ends the frame or leaves less to emit. -/
theorem State.Ready.ends {s : State} (h : s.Ready) (hf : s.fsm = .decodingSymbols) :
    ∃ n t, n ≤ s.os.toNat - s.wp.toNat ∧ runSteps n s = .next t ∧ t.Terminal := by
  induction hk : s.os.toNat - s.wp.toNat using Nat.strongRecOn generalizing s with
  | ind k ih =>
    have hleft := (h.inv.decoding hf).2
    obtain ⟨u, hstep, hblock, hu⟩ := h.step
    by_cases hterm : u.Terminal
    · exact ⟨1, u, by omega, runSteps_succ hstep 0, hterm⟩
    · rw [State.terminal_iff, not_or, Bool.not_eq_true] at hterm
      obtain ⟨hfsm, hgrows, hos⟩ := blockAction_emits h.inv h.cfgOk hf hblock hterm.2
      obtain ⟨n, t, hn, hrun, ht⟩ := ih (u.os.toNat - u.wp.toNat) (by rw [hos]; omega) hu (hfsm.resolve_left hterm.1) rfl
      exact ⟨n + 1, t, by rw [hos] at hn; omega, (runSteps_succ hstep n).trans hrun, ht⟩

/-- Where a header step leads that does not end the frame at once (44_frame_header.md R240). -/
theorem headerStep_leads {cs os : U32} {s t : State} (ht : (headerStep cs os s).finish = .next t) (hterm : ¬ t.Terminal) :
    t.fsm = .decodingSymbols ∧ t.os = os ∧ t.wp = 0 := by
  have hnf : t.isFailed = false := by
    rw [State.terminal_iff, not_or, Bool.not_eq_true] at hterm
    exact hterm.2
  rcases Res.finish_eq_next.1 ht with hok | ⟨e, v, -, rfl⟩
  · rcases headerStep_cases cs os s with ⟨-, hr⟩ | ⟨-, -, hr⟩ | ⟨-, -, ⟨-, hr⟩ | ⟨-, -, hr⟩ | ⟨-, -, hr⟩⟩ <;> rw [hr] at hok
    case inr.inr.inr.inr =>
      rcases beginSymbols_cases (((s.setSizes cs os).clearFrame.setLenLL s.cfg.initLL).setLenD s.cfg.initD) with
        ⟨-, -, hr⟩ | ⟨-, -, hr⟩ | ⟨-, hr⟩ <;> rw [hr] at hok <;> cases hok
      · exact absurd (State.terminal_iff.2 (.inl rfl)) hterm
      · exact ⟨rfl, rfl, rfl⟩
    all_goals cases hok
  · simp [State.isFailed] at hnf

/-- Settles O58: one step for the header, then no more symbol steps than it declares bytes. -/
theorem everyFrameEnds : Obligations.EveryFrameEnds := by
  intro s hinv hplaced hc hhost
  have hready : s.Ready := ⟨hinv, hplaced, hc, hhost⟩
  refine ⟨hready.ends, fun hf => ?_⟩
  obtain ⟨u, hstep, hblock, hu⟩ := hready.step
  by_cases hterm : u.Terminal
  · exact ⟨1, u, by norm_num, runSteps_succ hstep 0, hterm, fun _ _ os _ _ => Nat.le_add_left 1 os.toNat⟩
  · rcases blockAction_eq_next_of_readingHeader hf hblock with ⟨-, rfl⟩ | ⟨-, bytes, cs, os, hread, hdecode, hheader⟩
    · exact absurd (State.terminal_iff.2 (.inr rfl)) hterm
    · obtain ⟨huf, hos, hwp⟩ := headerStep_leads hheader hterm
      obtain ⟨n, t, hn, hrun, ht⟩ := hu.ends huf
      rw [hos, hwp] at hn
      have hn' : n ≤ os.toNat := hn
      have hlt := os.isLt
      refine ⟨n + 1, t, by omega, (runSteps_succ hstep n).trans hrun, ht, fun bytes' cs' os' hread' hdecode' => ?_⟩
      rw [hread] at hread'
      cases hread'
      rw [hdecode] at hdecode'
      cases hdecode'
      omega

/-! ## The result (R216) -/

/-- The first `n` bytes of a memory that holds them. -/
theorem filterMap_get?_range {m : Memory} {n : Nat} (h : ∀ a, a < n → (Assoc.get? m a).isSome = true) :
    ((List.range n).filterMap (Assoc.get? m)).length = n ∧
      ∀ a, a < n → ((List.range n).filterMap (Assoc.get? m))[a]? = Assoc.get? m a := by
  have hsome : ∀ a, a < n → Assoc.get? m a = some ((Assoc.get? m a).getD 0) := fun a ha => by
    obtain ⟨b, hb⟩ := Option.isSome_iff_exists.1 (h a ha)
    rw [hb, Option.getD_some]
  have hmap : (List.range n).filterMap (Assoc.get? m) = (List.range n).map fun a => (Assoc.get? m a).getD 0 := by
    rw [← List.filterMap_eq_map]
    exact List.filterMap_congr fun a ha => hsome a (List.mem_range.1 ha)
  refine ⟨by simp [hmap], fun a ha => ?_⟩
  rw [hmap, List.getElem?_map, List.getElem?_range ha, Option.map_some, ← hsome a ha]

/-- Settles O59: at Done `wp = os`, so the invariant's history is all of the frame. -/
theorem resultAtTerminalState : Obligations.ResultAtTerminalState := by
  intro s h
  refine ⟨fun hf => ?_, fun e hf => by rw [frameResult, hf], fun hterm => ?_⟩
  · have hwritten : ∀ a, a < s.os.toNat → (Assoc.get? s.out a).isSome = true := fun a ha =>
      ((h.frame (.inr hf)).history a).2 (h.finished hf ▸ ha)
    obtain ⟨hlen, hget⟩ := filterMap_get?_range hwritten
    refine ⟨_, by rw [frameResult, hf], hlen, fun a ha => ⟨?_, hget a ha⟩⟩
    rw [hget a ha, hostReadOut, if_pos (by simp [State.isDone, hf, ha])]
  · rw [State.terminal_iff, not_or] at hterm
    obtain ⟨hdone, hfailed⟩ := hterm
    refine ⟨?_, fun a => by simp [hostReadOut, State.isDone, hdone]⟩
    rw [State.isFailed_eq_true_iff] at hfailed
    unfold frameResult
    split
    · exact absurd ‹_› hdone
    · exact absurd ⟨_, ‹_›⟩ hfailed
    all_goals rfl

end Sys2Proof.Machine
end

section
/-! SUPPORT. What the result of a frame depends on (10_state.md R32; 43_decoder.md R214; 70_reset_and_hazards.md R292): after START two blocks with the same
configuration, IN and IN_LEN take the same steps, whatever stood in them before. -/

namespace Sys2Proof.Machine

/-! ## The draw counter is never read

Free values are drawn by `State.fail` alone among all a step of the block runs, so every primitive commutes with a change of the draw counter. -/

/-- The state with another draw counter. -/
def State.withFresh (n : Nat) (s : State) : State := { s with fresh := n }

@[simp] theorem State.withFresh_cfg (n : Nat) (s : State) : (s.withFresh n).cfg = s.cfg := rfl
@[simp] theorem State.withFresh_cntLL (n : Nat) (s : State) : (s.withFresh n).cntLL = s.cntLL := rfl

theorem leavesStream_withFresh (n : Nat) : LeavesStream (State.withFresh n) :=
  ⟨fun _ => streamBits_congr fun _ => rfl, fun _ => rfl, fun _ => rfl, fun _ _ => rfl⟩

/-- A test that reads nothing the change writes. -/
theorem Res.ite_mapState {α : Type} {g : State → State} {c : Prop} [Decidable c] {r q r' q' : Res α} (hr : r' = r.mapState g)
    (hq : q' = q.mapState g) : (if c then r' else q') = (if c then r else q).mapState g := by
  split
  · exact hr
  · exact hq

theorem Res.mapState_eq_ok {α : Type} {g : State → State} {r : Res α} {a : α} {t : State} (h : r.mapState g = .ok a t) :
    ∃ u, r = .ok a u ∧ t = g u := by
  cases r <;> cases h
  exact ⟨_, rfl, rfl⟩

theorem Res.mapState_eq_raise {α : Type} {g : State → State} {r : Res α} {e : ErrorKind} {t : State}
    (h : r.mapState g = .raise e t) : ∃ u, r = .raise e u ∧ t = g u := by
  cases r <;> cases h
  exact ⟨_, rfl, rfl⟩

section Primitives

variable (n : Nat) (s : State)

theorem readValue_withFresh (row : ExtraRow) :
    readValue row (s.withFresh n) = (readValue row s).mapState (State.withFresh n) := by
  have hextra : readExtra row.extra (s.withFresh n) = (readExtra row.extra s).mapState (State.withFresh n) :=
    Res.ite_mapState rfl (readBits_comm (leavesStream_withFresh n) _ s)
  rw [readValue, hextra]
  exact Res.mapState_bind fun _ _ => rfl

theorem readDistance_withFresh : readDistance (s.withFresh n) = (readDistance s).mapState (State.withFresh n) := by
  have hdecode : decodeD (s.withFresh n) = (decodeD s).mapState (State.withFresh n) :=
    decodeOne_comm (leavesStream_withFresh n) s.cfg.maxDepthD s.lenD s
  rw [readDistance, hdecode]
  refine Res.mapState_bind fun j u => ?_
  rw [State.withFresh_cfg]
  cases u.cfg.dists[j]? with
  | none => rfl
  | some row => exact readValue_withFresh n (u.countD j) row

theorem readMatchOperands_withFresh (row : ExtraRow) :
    readMatchOperands row (s.withFresh n) = (readMatchOperands row s).mapState (State.withFresh n) := by
  rw [readMatchOperands, readValue_withFresh]
  refine Res.mapState_bind fun length u => ?_
  rw [readDistance_withFresh]
  exact Res.mapState_bind fun _ _ => rfl

theorem emitByte_withFresh (b : Byte) : emitByte b (s.withFresh n) = (emitByte b s).mapState (State.withFresh n) :=
  Res.ite_mapState rfl rfl

theorem copyLoop_withFresh (distance length : Nat) :
    copyLoop distance length (s.withFresh n) = (copyLoop distance length s).mapState (State.withFresh n) := by
  induction length generalizing s with
  | zero => rfl
  | succ k ih =>
    have hread : readOut (s.withFresh n) ((s.withFresh n).wp.toNat - distance) = readOut s (s.wp.toNat - distance) := rfl
    rw [copyLoop_succ, copyLoop_succ, hread]
    cases readOut s (s.wp.toNat - distance) with
    | error f => rfl
    | ok b =>
      dsimp only
      rw [emitByte_withFresh]
      exact Res.mapState_bind fun _ u => ih u

theorem copyBack_withFresh (distance length : Nat) :
    copyBack distance length (s.withFresh n) = (copyBack distance length s).mapState (State.withFresh n) :=
  Res.ite_mapState rfl (Res.ite_mapState rfl (copyLoop_withFresh n s distance length))

theorem matchEffect_withFresh (row : ExtraRow) :
    matchEffect row (s.withFresh n) = (matchEffect row s).mapState (State.withFresh n) := by
  rw [matchEffect, readMatchOperands_withFresh]
  exact Res.mapState_bind fun p u => copyBack_withFresh n u p.2 p.1

theorem rebuildTrees_withFresh : rebuildTrees (s.withFresh n) = (rebuildTrees s).mapState (State.withFresh n) := by
  have hLL : installLL (rebuiltLL s.cfg s.cntLL) (s.withFresh n) =
      (installLL (rebuiltLL s.cfg s.cntLL) s).mapState (State.withFresh n) := Res.ite_mapState rfl rfl
  rw [rebuildTrees, rebuildTrees, State.withFresh_cfg, State.withFresh_cntLL, hLL]
  exact Res.mapState_bind fun _ u => Res.ite_mapState rfl rfl

theorem completeOrRebuild_withFresh :
    completeOrRebuild (s.withFresh n) = (completeOrRebuild s).mapState (State.withFresh n) :=
  Res.ite_mapState (Res.ite_mapState rfl rfl) (Res.ite_mapState (rebuildTrees_withFresh n s) rfl)

theorem matchInstr_withFresh (i : Nat) (row : ExtraRow) :
    symbolInstr (256 + i) (matchEffect row) (s.withFresh n) =
      (symbolInstr (256 + i) (matchEffect row) s).mapState (State.withFresh n) := by
  have heffect : matchEffect row ((s.withFresh n).countLL (256 + i)) =
      (matchEffect row (s.countLL (256 + i))).mapState (State.withFresh n) :=
    matchEffect_withFresh n (s.countLL (256 + i)) row
  rw [symbolInstr, heffect]
  exact Res.mapState_bind fun _ u => completeOrRebuild_withFresh n u.countInstr

end Primitives

/-! ## The block's own step -/

/-- Two states alike but for the draw counter, or both in Failed with the same kind. -/
def State.SameOutcome (t1 t2 : State) : Prop :=
  t1.fsm = t2.fsm ∧ (t1.isFailed = false → t1 = t2.withFresh t1.fresh)

theorem State.sameOutcome_fail (e : ErrorKind) (u1 u2 : State) : (u1.fail e).SameOutcome (u2.fail e) := ⟨rfl, nofun⟩

theorem State.sameOutcome_withFresh (n : Nat) (t : State) : (t.withFresh n).SameOutcome t := ⟨rfl, fun _ => rfl⟩

theorem SameButFresh.exists_next {r1 r2 : Res Unit} {t1 : State} (h : SameButFresh r1 r2) (h1 : r1.finish = .next t1) :
    ∃ t2, r2.finish = .next t2 ∧ t1.SameOutcome t2 := by
  cases h with
  | ok t n => cases h1; exact ⟨t, rfl, t.sameOutcome_withFresh n⟩
  | raise e u1 u2 => cases h1; exact ⟨u2.fail e, rfl, State.sameOutcome_fail e u1 u2⟩

theorem Res.exists_next_of_mapState {n : Nat} {r : Res Unit} {t1 : State}
    (h1 : (r.mapState (State.withFresh n)).finish = .next t1) : ∃ t2, r.finish = .next t2 ∧ t1.SameOutcome t2 := by
  cases r with
  | ok _ t => cases h1; exact ⟨t, rfl, t.sameOutcome_withFresh n⟩
  | raise e u => cases h1; exact ⟨u.fail e, rfl, State.sameOutcome_fail e _ u⟩
  | fault f => cases h1

theorem execLit_withFresh {n : Nat} {b : Byte} {s t1 : State} (h1 : exec (.lit b) (s.withFresh n) = .next t1) :
    ∃ t2, exec (.lit b) s = .next t2 ∧ t1.SameOutcome t2 := by
  obtain ⟨hf, hw, hfinish⟩ := execLit_eq_next_iff.1 h1
  have hcounted : (s.withFresh n).litCounted b = (s.litCounted b).withFresh n := rfl
  rw [hcounted, completeOrRebuild_withFresh] at hfinish
  obtain ⟨t2, ht2, hsame⟩ := Res.exists_next_of_mapState hfinish
  exact ⟨t2, execLit_eq_next_iff.2 ⟨hf, hw, ht2⟩, hsame⟩

theorem execMatchRef_withFresh {n i : Nat} {s t1 : State} (h1 : exec (.matchRef i) (s.withFresh n) = .next t1) :
    ∃ t2, exec (.matchRef i) s = .next t2 ∧ t1.SameOutcome t2 := by
  obtain ⟨hf, row, hrow, -⟩ := execMatchRef_eq_next h1
  have hf' : s.fsm = .decodingSymbols := hf
  have hrow' : s.cfg.lens[i]? = some row := hrow
  rw [execMatchRef_eq hf hrow, matchInstr_withFresh] at h1
  rw [execMatchRef_eq hf' hrow']
  exact Res.exists_next_of_mapState h1

/-- A symbol step from a state with another draw counter. -/
theorem symbolStep_withFresh {n : Nat} {s t1 : State} (hf : s.fsm = .decodingSymbols)
    (h1 : (blockAction (s.withFresh n)).outcome = .next t1) :
    ∃ t2, (blockAction s).outcome = .next t2 ∧ t1.SameOutcome t2 := by
  have hf1 : (s.withFresh n).fsm = .decodingSymbols := hf
  have hdecode : decodeLL (s.withFresh n) = (decodeLL s).mapState (State.withFresh n) :=
    decodeOne_comm (leavesStream_withFresh n) s.cfg.maxDepthLL s.lenLL s
  rw [blockAction_of_decodingSymbols hf]
  rcases blockAction_eq_next h1 with ⟨hb, -⟩ | ⟨hr, -⟩ | ⟨hr, -⟩ | ⟨-, e, u1, hd, rfl⟩ | ⟨-, x, u1, hd, hx, he⟩ |
      ⟨-, i, u1, hd, hi, he⟩
  · simp [State.busy, hf1] at hb
  · simp [hf1] at hr
  · simp [hf1] at hr
  · obtain ⟨u, hd2, rfl⟩ := Res.mapState_eq_raise (hdecode.symm.trans hd)
    exact ⟨u.fail e, by rw [fetchSymbol_raise hd2]; rfl, State.sameOutcome_fail e _ u⟩
  · obtain ⟨u, hd2, rfl⟩ := Res.mapState_eq_ok (hdecode.symm.trans hd)
    rw [fetchSymbol_decoded hd2 (if_pos hx)]
    exact execLit_withFresh he
  · obtain ⟨u, hd2, rfl⟩ := Res.mapState_eq_ok (hdecode.symm.trans hd)
    rw [fetchSymbol_decoded hd2 (decodeSymbol_match hi)]
    exact execMatchRef_withFresh he

/-- A header step from a state with the same configuration, input and OUT. -/
theorem State.SameFrameInput.headerAction {s1 s2 t1 : State} (h : s1.SameFrameInput s2) (hf1 : s1.fsm = .readingHeader)
    (hf2 : s2.fsm = .readingHeader) (h1 : (blockAction s1).outcome = .next t1) :
    ∃ t2, (blockAction s2).outcome = .next t2 ∧ t1.SameOutcome t2 := by
  rw [blockAction_of_readingHeader hf2]
  rcases blockAction_eq_next_of_readingHeader hf1 h1 with ⟨hlen, rfl⟩ | ⟨hlen, bytes, cs, os, hread, hdecode, hfinish⟩ <;>
    rw [h.inLen] at hlen
  · exact ⟨s2.fail .truncatedHeader, by rw [fetchHeader_short hlen]; rfl, State.sameOutcome_fail _ s1 s2⟩
  · rw [readInBytes_congr h.inLen h.inp] at hread
    obtain ⟨t2, ht2, hsame⟩ := (h.headerStep (hf1.trans hf2.symm) cs os).exists_next hfinish
    rw [fetchHeader_decoded hlen hread hdecode]
    exact ⟨t2, (execFrameHeader_eq hf2).trans ht2, hsame⟩

/-! ## Two blocks in the same frame -/

/-- Two blocks on their own that are at the same point of a frame: what they differ in no later step of the frame reads. -/
structure State.SameFrame (s1 s2 : State) : Prop where
  cfg    : s1.cfg = s2.cfg
  host1  : s1.host = []
  host2  : s2.host = []
  fsm    : s1.fsm = s2.fsm
  header : s1.fsm = .readingHeader → s1.SameFrameInput s2
  frame  : s1.fsm = .decodingSymbols ∨ s1.fsm = .done → s1 = s2.withFresh s1.fresh

theorem State.SameOutcome.sameFrame {t1 t2 : State} (h : t1.SameOutcome t2) (hcfg : t1.cfg = t2.cfg) (hh1 : t1.host = [])
    (hh2 : t2.host = []) : t1.SameFrame t2 := by
  obtain ⟨hfsm, heq⟩ := h
  refine ⟨hcfg, hh1, hh2, hfsm, fun hf => ?_, fun hf => heq ?_⟩
  · have hsame := heq (by simp [State.isFailed, hf])
    exact ⟨hcfg, by rw [hsame]; rfl, by rw [hsame]; rfl, by rw [hsame]; rfl, hh1.trans hh2.symm⟩
  · rcases hf with hf | hf <;> simp [State.isFailed, hf]

/-- The two blocks take the same step. -/
theorem State.SameFrame.step {s1 s2 t1 : State} (h : s1.SameFrame s2) (h1 : Machine.step s1 = .next t1) :
    ∃ t2, Machine.step s2 = .next t2 ∧ t1.SameFrame t2 := by
  obtain ⟨hc, hblock1⟩ := step_eq_blockAction h.host1 h1
  have hturn : s2.BlockTurn s2 := .inl ⟨h.host2, rfl⟩
  rw [hturn.step_eq (h.cfg ▸ hc)]
  cases hb : s1.busy with
  | false =>
    have hb2 : s2.busy = false := by rwa [State.busy, ← h.fsm]
    rw [blockAction_of_not_busy hb] at hblock1
    cases hblock1
    exact ⟨s2, by rw [blockAction_of_not_busy hb2]; rfl, h⟩
  | true =>
    have hsame : ∃ t2, (blockAction s2).outcome = .next t2 ∧ t1.SameOutcome t2 := by
      rcases State.busy_eq_true_iff.1 hb with hf | hf
      · exact (h.header hf).headerAction hf (h.fsm ▸ hf) hblock1
      · rw [h.frame (.inl hf)] at hblock1
        exact symbolStep_withFresh (h.fsm ▸ hf) hblock1
    obtain ⟨t2, hblock2, hsame⟩ := hsame
    obtain ⟨hcfg1, -, -, hhost1⟩ := blockAction_sameEnv hblock1
    obtain ⟨hcfg2, -, -, hhost2⟩ := blockAction_sameEnv hblock2
    exact ⟨t2, hblock2, hsame.sameFrame (hcfg1.trans (h.cfg.trans hcfg2.symm)) (hhost1.trans h.host1) (hhost2.trans h.host2)⟩

theorem coreRun_succ_eq_next {M : Host.Core} {s t : M.State} {n : Nat} (h : M.run (n + 1) s = .next t) :
    ∃ u, M.step s = .next u ∧ M.run n u = .next t := by
  rw [Host.Core.run] at h
  cases hstep : M.step s with
  | next u =>
    rw [hstep] at h
    exact ⟨u, rfl, h⟩
  | fault r =>
    rw [hstep] at h
    cases h
  | refused r =>
    rw [hstep] at h
    cases h

theorem runSteps_succ_eq_next {s t : State} {n : Nat} (h : runSteps (n + 1) s = .next t) :
    ∃ u, step s = .next u ∧ runSteps n u = .next t :=
  coreRun_succ_eq_next (M := Sys2Proof.core) h

theorem State.SameFrame.run {s1 s2 t1 : State} {n : Nat} (h : s1.SameFrame s2) (h1 : runSteps n s1 = .next t1) :
    ∃ t2, runSteps n s2 = .next t2 ∧ t1.SameFrame t2 := by
  induction n generalizing s1 s2 with
  | zero => cases h1; exact ⟨s2, rfl, h⟩
  | succ n ih =>
    obtain ⟨u1, hstep1, hrun1⟩ := runSteps_succ_eq_next h1
    obtain ⟨u2, hstep2, hu⟩ := h.step hstep1
    obtain ⟨t2, hrun2, ht⟩ := ih hu hrun1
    exact ⟨t2, (runSteps_succ hstep2 n).trans hrun2, ht⟩

theorem State.SameFrame.frameResult_eq {t1 t2 : State} (h : t1.SameFrame t2) : frameResult t1 = frameResult t2 := by
  unfold frameResult
  rw [← h.fsm]
  split
  · have heq := h.frame (.inr ‹_›)
    rw [heq]
    rfl
  all_goals rfl

/-- START forgets all but the configuration, IN and IN_LEN (R201). -/
theorem step_start {s : State} (hc : CfgOk s.cfg) (hb : s.busy = false) :
    step (s.setHost [.write .ctrl 1]) = .next ((s.setHost []).forget.enter .readingHeader) :=
  (step_takes_move (s := s.setHost [.write .ctrl 1]) hc hb rfl).trans (execStart_of_not_busy (s := s.setHost []) hb)

theorem State.sameFrame_start {s1 s2 : State} (hcfg : s1.cfg = s2.cfg) (hinp : s1.inp = s2.inp) (hinLen : s1.inLen = s2.inLen) :
    ((s1.setHost []).forget.enter .readingHeader).SameFrame ((s2.setHost []).forget.enter .readingHeader) where
  cfg := hcfg
  host1 := rfl
  host2 := rfl
  fsm := rfl
  header := fun _ => ⟨hcfg, hinp, hinLen, rfl, rfl⟩
  frame := nofun

/-- Settles O60: START brings both states to the same point of a frame, and each later step keeps them there. -/
theorem resultDependsOnFrameAlone : Obligations.ResultDependsOnFrameAlone := by
  intro s1 s2 t1 n hb1 hb2 hcfg hinp hinLen hrun
  obtain ⟨u1, hstep, hrest⟩ := runSteps_succ_eq_next (s := s1.setHost [.write .ctrl 1]) hrun
  have hc : CfgOk s1.cfg := step_eq_next_cfgOk (s := s1.setHost [.write .ctrl 1]) hstep
  rw [step_start hc hb1] at hstep
  cases hstep
  obtain ⟨t2, hrun2, hsame⟩ := (State.sameFrame_start hcfg hinp hinLen).run hrest
  exact ⟨t2, (runSteps_succ (step_start (hcfg ▸ hc) hb2) n).trans hrun2, hsame.fsm.symm, hsame.frameResult_eq.symm⟩

end Sys2Proof.Machine
end

section
/-! SUPPORT. The frame header (44_frame_header.md R240 to R246): the one state FRAME_HEADER leads to, what it writes of it, where TruncatedHeader comes from,
and the bytes its fields are read from. -/

namespace Sys2Proof.Machine

/-! ## The next state of FRAME_HEADER (R240) -/

/-- Where FRAME_HEADER leads, check by check: the writes made before the check that fails stay (R240, R241, R242, R244, R266). -/
def State.afterHeader (cs os : U32) (s : State) : State :=
  if s.inLen.toNat < 8 then s.fail .truncatedHeader
  else if s.cfg.outCapacity < os.toNat then (s.setSizes cs os).fail .outOfMemory
  else if validTable s.cfg.maxDepthLL s.cfg.initLL = false then (s.setSizes cs os).clearFrame.fail .corruptCodeTree
  else if validTable s.cfg.maxDepthD s.cfg.initD = false then
    ((s.setSizes cs os).clearFrame.setLenLL s.cfg.initLL).fail .corruptCodeTree
  else if os ≠ 0 then (s.headed cs os).enter .decodingSymbols
  else if s.cfg.tailCheck = .wholeByte ∧ 8 ≤ 8 * min cs.toNat (s.inLen.toNat - 8) then (s.headed cs os).fail .lengthMismatch
  else (s.headed cs os).enter .done

/-- Before any bit is read, the whole payload is left (R209, R244). -/
theorem tailLeft_headed_iff {cs os : U32} {s : State} :
    tailLeft (s.headed cs os) = true ↔
      s.cfg.tailCheck = .wholeByte ∧ 8 ≤ 8 * min cs.toNat (s.inLen.toNat - 8) := by
  have hremaining : (s.headed cs os).remaining = 8 * min cs.toNat (s.inLen.toNat - 8) := by
    rw [← s.setSizes_bnd_toNat cs os]
    rfl
  rw [tailLeft_eq_true_iff, hremaining]
  rfl

theorem finish_beginSymbols_headed (cs os : U32) (s : State) :
    (beginSymbols (s.headed cs os)).finish = .next
      (if os ≠ 0 then (s.headed cs os).enter .decodingSymbols
      else if s.cfg.tailCheck = .wholeByte ∧ 8 ≤ 8 * min cs.toNat (s.inLen.toNat - 8) then
        (s.headed cs os).fail .lengthMismatch
      else (s.headed cs os).enter .done) := by
  have hos : (s.headed cs os).os = os := rfl
  rcases beginSymbols_cases (s.headed cs os) with ⟨hzero, htail, hr⟩ | ⟨hzero, htail, hr⟩ | ⟨hpos, hr⟩ <;> rw [hr]
  · rw [if_neg (not_not.2 (hos ▸ hzero)), if_pos (tailLeft_headed_iff.1 htail)]
    rfl
  · rw [if_neg (not_not.2 (hos ▸ hzero)), if_neg fun h => by simp [tailLeft_headed_iff.2 h] at htail]
    rfl
  · rw [if_pos (hos ▸ hpos)]
    rfl

theorem finish_headerStep (cs os : U32) (s : State) : (headerStep cs os s).finish = .next (s.afterHeader cs os) := by
  rw [headerStep_eq, State.afterHeader]
  split; · rfl
  split; · rfl
  split; · rfl
  split; · rfl
  exact finish_beginSymbols_headed cs os s

theorem execFrameHeader_eq_afterHeader {cs os : U32} {s : State} (hf : s.fsm = .readingHeader) :
    exec (.frameHeader cs os) s = .next (s.afterHeader cs os) :=
  (execFrameHeader_eq hf).trans (finish_headerStep cs os s)

/-! ## What that state holds (R240, R241, R242, R243, R244, R266) -/

section AfterHeader

variable {cs os : U32} {s : State}

theorem State.afterHeader_of_checks (hlen : 8 ≤ s.inLen.toNat) (hcap : os.toNat ≤ s.cfg.outCapacity)
    (hLL : validTable s.cfg.maxDepthLL s.cfg.initLL = true) (hD : validTable s.cfg.maxDepthD s.cfg.initD = true)
    (htail : os = 0 → ¬ (s.cfg.tailCheck = .wholeByte ∧ 1 ≤ min cs.toNat (s.inLen.toNat - 8))) :
    s.afterHeader cs os = (s.headed cs os).enter (if os = 0 then .done else .decodingSymbols) := by
  rw [State.afterHeader, if_neg (by omega), if_neg (by omega), if_neg (by simp [hLL]), if_neg (by simp [hD])]
  by_cases hos : os = 0
  · rw [if_neg (not_not.2 hos), if_neg fun h => htail hos ⟨h.1, by omega⟩, if_pos hos]
  · rw [if_pos hos, if_neg hos]

theorem State.afterHeader_fsm : (s.afterHeader cs os).fsm =
    if s.inLen.toNat < 8 then .failed .truncatedHeader
    else if s.cfg.outCapacity < os.toNat then .failed .outOfMemory
    else if validTable s.cfg.maxDepthLL s.cfg.initLL = false then .failed .corruptCodeTree
    else if validTable s.cfg.maxDepthD s.cfg.initD = false then .failed .corruptCodeTree
    else if os ≠ 0 then .decodingSymbols
    else if s.cfg.tailCheck = .wholeByte ∧ 8 ≤ 8 * min cs.toNat (s.inLen.toNat - 8) then .failed .lengthMismatch
    else .done := by
  simp only [State.afterHeader, apply_ite State.fsm, State.fail_fsm, State.enter_fsm]

/-- No header writes OUT (R72). -/
theorem State.afterHeader_out : (s.afterHeader cs os).out = s.out := by
  unfold State.afterHeader
  split_ifs <;> rfl

/-- The boundary is set once the header is long enough (R243). -/
theorem State.afterHeader_bnd :
    (s.afterHeader cs os).bnd = if s.inLen.toNat < 8 then s.bnd else (s.setSizes cs os).bnd := by
  unfold State.afterHeader
  split_ifs <;> rfl

/-- The first two checks come before the tables and counters are touched (R240). -/
theorem State.afterHeader_early (h : s.inLen.toNat < 8 ∨ s.cfg.outCapacity < os.toNat) :
    (s.afterHeader cs os).lenLL = s.lenLL ∧ (s.afterHeader cs os).lenD = s.lenD ∧
      (s.afterHeader cs os).cntLL = s.cntLL ∧ (s.afterHeader cs os).cntD = s.cntD ∧
      (s.afterHeader cs os).symCount = s.symCount := by
  unfold State.afterHeader
  split
  · exact ⟨rfl, rfl, rfl, rfl, rfl⟩
  · rw [if_pos (h.resolve_left ‹_›)]
    exact ⟨rfl, rfl, rfl, rfl, rfl⟩

/-- After the first two checks the counters are cleared, and the tables are installed as far as they are valid (R240, R241, R242). -/
theorem State.afterHeader_late (hlen : 8 ≤ s.inLen.toNat) (hcap : os.toNat ≤ s.cfg.outCapacity) :
    (s.afterHeader cs os).cntLL = [] ∧ (s.afterHeader cs os).cntD = [] ∧ (s.afterHeader cs os).symCount = 0 ∧
      (s.afterHeader cs os).lenLL = (if validTable s.cfg.maxDepthLL s.cfg.initLL then s.cfg.initLL else s.lenLL) ∧
      (s.afterHeader cs os).lenD =
        (if validTable s.cfg.maxDepthLL s.cfg.initLL ∧ validTable s.cfg.maxDepthD s.cfg.initD then s.cfg.initD
        else s.lenD) := by
  rw [State.afterHeader, if_neg (by omega), if_neg (by omega)]
  cases hLL : validTable s.cfg.maxDepthLL s.cfg.initLL with
  | false => exact ⟨rfl, rfl, rfl, rfl, rfl⟩
  | true =>
    cases hD : validTable s.cfg.maxDepthD s.cfg.initD with
    | false => exact ⟨rfl, rfl, rfl, rfl, rfl⟩
    | true =>
      simp only [reduceCtorEq, if_false, and_self, if_true]
      split_ifs <;> exact ⟨rfl, rfl, rfl, rfl, rfl⟩

/-- Only a failure draws free values (R266). -/
theorem State.afterHeader_fresh (h : (s.afterHeader cs os).isFailed = false) : (s.afterHeader cs os).fresh = s.fresh := by
  revert h
  unfold State.afterHeader
  split_ifs <;> simp [State.isFailed, State.headed]

end AfterHeader

/-- Settles O28: the checks passed, the header leads to `s.headed cs os`, in the state of `fsm` the frame goes on in. -/
theorem headerStepCompletes : Obligations.HeaderStepCompletes := by
  intro cs os s hf hlen hcap hLL hD htail
  exact ⟨_, (execFrameHeader_eq_afterHeader hf).trans (congrArg _ (State.afterHeader_of_checks hlen hcap hLL hD htail)),
    s.setSizes_bnd_toNat cs os, rfl⟩

/-- Settles O29: `fsm` of the one state the header leads to. -/
theorem headerChecksInOrder : Obligations.HeaderChecksInOrder :=
  fun _ _ _ hf => ⟨_, execFrameHeader_eq_afterHeader hf, State.afterHeader_fsm⟩

/-- Settles O30: no instruction touches the environment, and the other elements are those of the one state the header leads to. -/
theorem headerFrame : Obligations.HeaderFrame := by
  intro cs os s t h
  obtain ⟨hcfg, hinp, hinLen, hhost⟩ := exec_sameEnv h
  rw [execFrameHeader_eq_afterHeader (execFrameHeader_eq_next h).1] at h
  obtain rfl := Host.Outcome.next.inj h
  refine ⟨hcfg, hinp, hinLen, State.afterHeader_out, hhost, fun hshort => ?_, fun hlen => ?_, State.afterHeader_early,
    State.afterHeader_late, State.afterHeader_fresh⟩
  · rw [State.afterHeader_bnd, if_pos hshort]
  · rw [State.afterHeader_bnd, if_neg (by omega), State.setSizes_bnd_toNat]

/-! ## Where TruncatedHeader is raised (R245, R261) -/

theorem State.afterHeader_ne_truncatedHeader {cs os : U32} {s : State} (hlen : 8 ≤ s.inLen.toNat) :
    (s.afterHeader cs os).fsm ≠ .failed .truncatedHeader := by
  rw [State.afterHeader_fsm, if_neg (by omega)]
  split_ifs <;> simp

theorem completeOrRebuild_ne_truncatedHeader {x t : State}
    (h : completeOrRebuild x = .ok () t ∨ ∃ e u, completeOrRebuild x = .raise e u ∧ t = u.fail e)
    (hx : x.fsm = .decodingSymbols) :
    t.fsm ≠ .failed .truncatedHeader := by
  rcases h with hok | ⟨e, u, hraise, rfl⟩
  · rcases completeOrRebuild_ok_fsm hok with hdone | hsame
    · simp [hdone]
    · simp [hsame, hx]
  · rcases completeOrRebuild_eq_raise hraise with ⟨rfl, -⟩ | ⟨rfl, -⟩ <;> simp

theorem execLit_ne_truncatedHeader {b : Byte} {s t : State} (h : exec (.lit b) s = .next t) :
    t.fsm ≠ .failed .truncatedHeader := by
  obtain ⟨hf, -, hend⟩ := execLit_eq_next h
  exact completeOrRebuild_ne_truncatedHeader hend hf

theorem execMatchRef_ne_truncatedHeader {i : Nat} {s t : State} (h : exec (.matchRef i) s = .next t) :
    t.fsm ≠ .failed .truncatedHeader := by
  obtain ⟨hf, row, -, ⟨u, heffect, hend⟩ | ⟨e, u, hraise, rfl⟩⟩ := execMatchRef_eq_next h
  · obtain ⟨-, -, -, -, -, -, -, -, hframe, -⟩ := matchEffect_ok_frame heffect
    exact completeOrRebuild_ne_truncatedHeader hend (by rw [State.countInstr_fsm, hframe]; exact hf)
  · rcases matchEffect_eq_raise hraise with ⟨-, rfl | rfl⟩ | ⟨rfl, -⟩ <;> simp

/-- Of all the block's own step can end in, only a header of fewer than eight bytes raises TruncatedHeader. -/
theorem blockAction_truncatedHeader_iff {s t : State} (hs : s.fsm ≠ .failed .truncatedHeader)
    (h : (blockAction s).outcome = .next t) :
    t.fsm = .failed .truncatedHeader ↔ s.fsm = .readingHeader ∧ s.inLen.toNat < 8 := by
  rcases blockAction_eq_next h with ⟨hb, rfl⟩ | ⟨hf, hlen, rfl⟩ | ⟨hf, hlen, -, cs, os, -, -, he⟩ |
      ⟨hf, e, u, hraise, rfl⟩ | ⟨hf, x, u, -, -, he⟩ | ⟨hf, i, u, -, -, he⟩
  · exact iff_of_false hs fun ⟨hf, _⟩ => by simp [State.busy, hf] at hb
  · exact iff_of_true rfl ⟨hf, hlen⟩
  · rw [execFrameHeader_eq_afterHeader hf] at he
    obtain rfl := Host.Outcome.next.inj he
    exact iff_of_false (State.afterHeader_ne_truncatedHeader hlen) fun ⟨_, hshort⟩ => by omega
  · refine iff_of_false ?_ (by simp [hf])
    rcases (decodeOne_eq_raise hraise).1 with rfl | rfl <;> simp
  · exact iff_of_false (execLit_ne_truncatedHeader he) (by simp [hf])
  · exact iff_of_false (execMatchRef_ne_truncatedHeader he) (by simp [hf])

/-- Settles O31: with no move of the host pending the step is the block's own. -/
theorem truncatedHeaderExactly : Obligations.TruncatedHeaderExactly :=
  fun _ _ hh hs hstep => blockAction_truncatedHeader_iff hs (step_eq_blockAction hh hstep).2

/-! ## The header's bytes (R246, R75) -/

theorem readInBytes_of_get? {s : State} {a : Nat} {bytes : List Byte} (hlen : a + bytes.length ≤ s.inLen.toNat)
    (hget : ∀ k b, bytes[k]? = some b → Assoc.get? s.inp (a + k) = some b) :
    readInBytes s a bytes.length = .ok bytes := by
  induction bytes generalizing a with
  | nil => rfl
  | cons b r ih =>
    rw [List.length_cons] at hlen ⊢
    have hread : readIn s a = .ok b := readIn_eq_ok.2 ⟨by omega, hget 0 b rfl⟩
    have hrest : readInBytes s (a + 1) r.length = .ok r := ih (by omega) fun k c hc => by
      rw [Nat.add_right_comm, Nat.add_assoc]
      exact hget (k + 1) c hc
    rw [readInBytes, hread, hrest]

/-- Settles O32: the eight bytes are there and placed, and a sum of four of them fits its field. -/
theorem headerFieldsAreLittleEndian : Obligations.HeaderFieldsAreLittleEndian := by
  intro s b0 b1 b2 b3 b4 b5 b6 b7 hc hf hh hlen hget
  have hread : readInBytes s 0 8 = .ok [b0, b1, b2, b3, b4, b5, b6, b7] :=
    readInBytes_of_get? (a := 0) (bytes := [b0, b1, b2, b3, b4, b5, b6, b7]) hlen (by simpa only [Nat.zero_add] using hget)
  have hturn : s.BlockTurn s := .inl ⟨hh, rfl⟩
  refine ⟨le32 b0 b1 b2 b3, le32 b4 b5 b6 b7, ?_, le32_toNat .., le32_toNat ..⟩
  rw [hturn.step_eq hc, blockAction_of_readingHeader hf, fetchHeader_decoded hlen hread rfl]
  rfl

end Sys2Proof.Machine
end

section
/-! SUPPORT. Errors (60_exceptions.md R260 to R271): what a raise leaves, which step raises which kind, and that no step ends in a fault or a refusal. -/

namespace Sys2Proof.Machine

/-! ## Entering Failed (R266) -/

/-- Settles O41: the next state is `s.fail e`, which writes the listed elements alone. -/
theorem raiseEntersFailed : Obligations.RaiseEntersFailed :=
  fun e s => ⟨s.fail e, Res.finish_raise e s, rfl, rfl, rfl, rfl⟩

/-! ## InvalidBackReference (R264) -/

/-- Settles O23: the checks raise before the copy loop, and the loop raises nothing. -/
theorem copyBackChecksFirst : Obligations.CopyBackChecksFirst := by
  intro distance length s s' e
  rcases copyBack_cases distance length s with ⟨hcheck, hr⟩ | ⟨hd, hw, hl, hr⟩ <;> rw [hr]
  · simp [hcheck, eq_comm]
  · exact iff_of_false copyLoop_ne_raise fun ⟨hcheck, _⟩ => by omega

/-! ## The kinds each step raises (R260, R265, R267) -/

/-- The kinds the header step can raise, LengthMismatch under WholeByte alone. -/
def HeaderRaises (c : Cfg) : ErrorKind → Prop
  | .truncatedHeader | .outOfMemory | .corruptCodeTree => True
  | .lengthMismatch => c.tailCheck = .wholeByte
  | .truncatedInput | .invalidBackReference => False

/-- The kinds a symbol step can raise, LengthMismatch under WholeByte alone. -/
def SymbolRaises (c : Cfg) : ErrorKind → Prop
  | .truncatedInput | .corruptCodeTree | .invalidBackReference => True
  | .lengthMismatch => c.tailCheck = .wholeByte
  | .truncatedHeader | .outOfMemory => False

theorem HeaderRaises.kinds {c : Cfg} {e : ErrorKind} (h : HeaderRaises c e) :
    (e = .truncatedHeader ∨ e = .outOfMemory ∨ e = .corruptCodeTree ∨ e = .lengthMismatch) ∧
      (e = .lengthMismatch → c.tailCheck = .wholeByte) := by
  cases e <;> simp_all [HeaderRaises]

theorem SymbolRaises.kinds {c : Cfg} {e : ErrorKind} (h : SymbolRaises c e) :
    (e = .truncatedInput ∨ e = .corruptCodeTree ∨ e = .invalidBackReference ∨ e = .lengthMismatch) ∧
      (e = .lengthMismatch → c.tailCheck = .wholeByte) := by
  cases e <;> simp_all [SymbolRaises]

theorem State.afterHeader_raises {cs os : U32} {s : State} {e : ErrorKind} (h : (s.afterHeader cs os).fsm = .failed e) :
    HeaderRaises s.cfg e := by
  rw [State.afterHeader_fsm] at h
  split_ifs at h with _ _ _ _ _ htail <;> cases h
  · trivial
  · trivial
  · trivial
  · trivial
  · exact htail.1

theorem completeOrRebuild_raises {x t : State} {e : ErrorKind} (hx : x.fsm = .decodingSymbols)
    (h : completeOrRebuild x = .ok () t ∨ ∃ e u, completeOrRebuild x = .raise e u ∧ t = u.fail e) (ht : t.fsm = .failed e) :
    SymbolRaises x.cfg e := by
  rcases h with hok | ⟨e', u, hraise, rfl⟩
  · rcases completeOrRebuild_ok_fsm hok with hdone | hsame
    · simp [hdone] at ht
    · simp [hsame, hx] at ht
  · cases ht
    rcases completeOrRebuild_eq_raise hraise with ⟨rfl, -, htail, -⟩ | ⟨rfl, -⟩
    · exact (tailLeft_eq_true_iff.1 htail).1
    · trivial

theorem execLit_raises {b : Byte} {s t : State} {e : ErrorKind} (h : exec (.lit b) s = .next t) (ht : t.fsm = .failed e) :
    SymbolRaises s.cfg e := by
  obtain ⟨hf, -, hend⟩ := execLit_eq_next h
  exact completeOrRebuild_raises (x := ((s.countLL b.toNat).emit b).countInstr) hf hend ht

theorem symbolRaises_of_reading (c : Cfg) {e : ErrorKind} (h : e = .corruptCodeTree ∨ e = .truncatedInput) :
    SymbolRaises c e := by
  rcases h with rfl | rfl <;> trivial

theorem execMatchRef_raises {i : Nat} {s t : State} {e : ErrorKind} (h : exec (.matchRef i) s = .next t)
    (ht : t.fsm = .failed e) : SymbolRaises s.cfg e := by
  obtain ⟨hf, row, -, ⟨u, heffect, hend⟩ | ⟨e', u, hraise, rfl⟩⟩ := execMatchRef_eq_next h
  · obtain ⟨-, -, -, -, -, -, -, -, hframe, -⟩ := matchEffect_ok_frame heffect
    have hcfg : u.countInstr.cfg = s.cfg := by rw [State.countInstr_cfg, hframe]; rfl
    have hfsm : u.countInstr.fsm = .decodingSymbols := by rw [State.countInstr_fsm, hframe]; exact hf
    exact hcfg ▸ completeOrRebuild_raises hfsm hend ht
  · cases ht
    rcases matchEffect_eq_raise hraise with ⟨-, hkind⟩ | ⟨rfl, -⟩
    · exact symbolRaises_of_reading s.cfg hkind
    · trivial

/-- The step of a state in which the step raises an error, and the kind it raises. -/
def State.Raises (s : State) (e : ErrorKind) : Prop :=
  s.fsm = .readingHeader ∧ HeaderRaises s.cfg e ∨ s.fsm = .decodingSymbols ∧ SymbolRaises s.cfg e

theorem blockAction_raises {s t : State} {e : ErrorKind} (h : (blockAction s).outcome = .next t) (ht : t.fsm = .failed e)
    (hs : s.fsm ≠ .failed e) : s.Raises e := by
  rcases blockAction_eq_next h with ⟨-, rfl⟩ | ⟨hf, -, rfl⟩ | ⟨hf, -, -, cs, os, -, -, he⟩ | ⟨hf, e', u, hraise, rfl⟩ |
      ⟨hf, x, u, hd, -, he⟩ | ⟨hf, i, u, hd, -, he⟩
  · exact absurd ht hs
  · cases ht
    exact .inl ⟨hf, trivial⟩
  · rw [execFrameHeader_eq_afterHeader hf] at he
    obtain rfl := Host.Outcome.next.inj he
    exact .inl ⟨hf, State.afterHeader_raises ht⟩
  · cases ht
    exact .inr ⟨hf, symbolRaises_of_reading s.cfg (decodeOne_eq_raise hraise).1⟩
  · obtain ⟨k, -, -, rfl⟩ := decodeOne_eq_ok hd
    exact .inr ⟨hf, execLit_raises (s := s.advance k) he ht⟩
  · obtain ⟨k, -, -, rfl⟩ := decodeOne_eq_ok hd
    exact .inr ⟨hf, execMatchRef_raises (s := s.advance k) he ht⟩

/-- A step that enters Failed is the block's own: no move of the host raises an error. -/
theorem step_raises {s t : State} {e : ErrorKind} (h : step s = .next t) (ht : t.fsm = .failed e) (hs : s.fsm ≠ .failed e) :
    s.Raises e := by
  obtain ⟨-, ⟨rest, -, rfl⟩ | ⟨s0, hs0, hblock⟩ | ⟨-, bytes, rest, -, rfl⟩ | ⟨-, v, rest, -, hstart⟩ |
    ⟨-, r, v, rest, -, -, rfl⟩⟩ := step_eq_next h
  · cases ht
  · rcases hs0 with ⟨rfl, -⟩ | ⟨rest, -, rfl⟩
    · exact blockAction_raises hblock ht hs
    · exact blockAction_raises (s := s.setHost rest) hblock ht hs
  · exact absurd ht hs
  · rcases execStart_eq_next hstart with ⟨-, rfl⟩ | ⟨-, -, rfl⟩
    · exact absurd ht hs
    · cases ht
  · rw [writeReg_frame] at ht
    exact absurd ht hs

/-- Settles O44: the kinds of the step that is run, read off step by step. -/
theorem errorKindsByStep : Obligations.ErrorKindsByStep := by
  intro s t e hstep ht hs
  rcases step_raises hstep ht hs with ⟨hf, hraises⟩ | ⟨hf, hraises⟩
  · exact ⟨.inl ⟨hf, hraises.kinds.1⟩, hraises.kinds.2⟩
  · exact ⟨.inr ⟨hf, hraises.kinds.1⟩, hraises.kinds.2⟩

/-! ## No step is stopped (R271, R185, R136) -/

/-- While the block is not BUSY, a write to CTRL has a next state, whatever its START bit. -/
theorem execStart_proceeds {s : State} (hb : s.busy = false) (go : Bool) : Proceeds (exec (.start go) s) := by
  cases go with
  | false => exact ⟨s, execStart_false s⟩
  | true => exact ⟨_, execStart_of_not_busy hb⟩

/-- Settles O57: a move of the host is taken only where it has a next state, and the block's own step always has one. -/
theorem stepNeverStops : Obligations.StepNeverStops := by
  intro s h hp hc
  rw [step_eq_outcome hc]
  rcases nextAction_cases s with ⟨rest, -, ha⟩ | ⟨s0, hs0, ha⟩ | ⟨-, bytes, rest, -, ha⟩ | ⟨hb, v, rest, -, ha⟩ |
      ⟨-, r, v, rest, -, -, ha⟩ <;> rw [ha]
  · exact ⟨_, rfl⟩
  · rcases hs0 with ⟨rfl, -⟩ | ⟨rest, -, rfl⟩
    · exact blockAction_proceeds h hp hc
    · exact blockAction_proceeds (h.setHost rest) hp hc
  · exact ⟨_, rfl⟩
  · exact execStart_proceeds (s := s.setHost rest) hb _
  · exact ⟨_, rfl⟩

end Sys2Proof.Machine
end

section
/-! SUPPORT. Reset and hazards (70_reset_and_hazards.md R290, R291, R294): where a reset leads, what the state right after reset satisfies, and what
waits while the block is BUSY. -/

namespace Sys2Proof.Machine

/-! ## The host's moves wait (R294) -/

/-- A BUSY block steps in its own state, unless the host resets it or passes. -/
theorem State.blockTurn_of_busy {s : State} (hb : s.busy = true)
    (hwait : ∀ rest, s.host ≠ .reset :: rest ∧ s.host ≠ .pass :: rest) : s.BlockTurn s := by
  cases hh : s.host with
  | nil => exact .inl ⟨hh, rfl⟩
  | cons m rest =>
    obtain ⟨hreset, hpass⟩ := hwait rest
    exact .inr (.inr ⟨hb, ⟨m, rest, hh, fun hm => hreset (hm ▸ hh), fun hm => hpass (hm ▸ hh)⟩, rfl⟩)

/-- Settles O50: it is the block's turn, and its own step leaves the environment. -/
theorem hostMovesWaitWhileBusy : Obligations.HostMovesWaitWhileBusy := by
  intro s t hb hstep hwait
  rw [(State.blockTurn_of_busy hb hwait).step_eq (step_eq_next_cfgOk hstep)] at hstep
  obtain ⟨-, hinp, hinLen, hhost⟩ := blockAction_sameEnv hstep
  exact ⟨hhost, hinp, hinLen⟩

/-! ## Reset (R290, R291) -/

/-- STATUS of an Idle block (10_state.md R38). -/
theorem readReg_status_of_idle {s : State} (h : s.fsm = .idle) : readReg s .status = 0 := by
  simp [readReg, State.statusWord, h, stateField, errField]

/-- A pending reset is taken, BUSY or not (R291). -/
theorem step_takes_reset {s : State} {rest : List HostMove} (hc : CfgOk s.cfg) (hh : s.host = .reset :: rest) :
    step s = .next (s.setHost rest).hostReset := by
  have hnext : nextAction s = .settle (.next (s.setHost rest).hostReset) := by
    rw [nextAction, hh]
    rfl
  rw [step_eq_outcome hc, hnext]
  rfl

/-- Settles O51: a reset is taken whatever `fsm` is, and Idle waits. -/
theorem resetGivesIdle : Obligations.ResetGivesIdle := by
  refine ⟨fun s rest hc hh => ?move, rfl, readReg_status_of_idle rfl, rfl, fun hc => ?waits⟩
  case move =>
    exact ⟨_, step_takes_reset hc hh, rfl, readReg_status_of_idle rfl, rfl, rfl, rfl, rfl, rfl, rfl, rfl⟩
  case waits =>
    exact terminalStatesWait State.reset State.reset hc rfl (.inl ⟨rfl, rfl⟩)

/-- The state right after reset lists nothing. -/
theorem State.Canonical.reset : State.reset.Canonical where
  inp := State.wf_reset.1
  out := State.wf_reset.2
  lenLL := Sparse.formed_nil ..
  lenD := Sparse.formed_nil ..
  cntLL := Sparse.formed_nil ..
  cntD := Sparse.formed_nil ..

/-- Settles O55: Idle is neither BUSY nor Done. -/
theorem resetMeetsInvariant : Obligations.ResetMeetsInvariant :=
  .of_not_busy rfl .reset nofun

end Sys2Proof.Machine
end
